-- ==== Sys2Proof/Word.lean ====
section
/-! DEFINITION. The machine's words: bytes, 16-bit words and 32-bit longwords (00_scope.md R7, R8). -/

namespace Sys2Proof

/-- A longword, and the width of every register and address: `REGW` = `ADDRW` = 32 (R6). -/
abbrev Word := BitVec 32

/-- A 16-bit word, the unit of instruction words (R8, R60). -/
abbrev Half := BitVec 16

/-- A byte, the unit of memory (R8, R33). -/
abbrev Byte := BitVec 8

end Sys2Proof
end

