-- ==== Sys2Proof/Config.lean ====
section
/-! DEFINITION. The parameters of the model (00_scope.md R6, the list of open parameters of 92_eei_decisions.md)
and the free values: what the spec leaves open, as constants without a body. The parameters are plain data that
`State` carries and no step changes (assumption 1). -/

namespace Sys2Proof

/-- What an exception does (R6 `TRAP_MODEL`, R200, R214). -/
inductive TrapModel where
  | terminal
  | vectored
deriving DecidableEq, Repr

/-- What a misaligned data access does (R6 `MISALIGNED_DATA`, R44). -/
inductive MisalignedData where
  | split
  | fault
deriving DecidableEq, Repr

/-- The kind of an address range of `MEM` (R47). -/
inductive RegionKind where
  | ram
  | rom
  | device
deriving DecidableEq, Repr

/-- One address range of `MEM`: the bytes `base` to `base + len - 1` (R49, D22). -/
structure Region where
  base : Nat
  len : Nat
  kind : RegionKind
deriving DecidableEq, Repr

/-- A run of byte addresses of `LAUNCH.code`: `base` to `base + len - 1` (R55). -/
structure Span where
  base : Nat
  len : Nat
deriving DecidableEq, Repr

/-- The parameters a caller fixes before a run (R6, R240, D13, D22). -/
structure Params where
  /-- `HAS_FPU`: scale factor 8 is available (R114, D10). -/
  hasFpu : Bool
  /-- `MISALIGNED_DATA` (R44, D3). -/
  misaligned : MisalignedData
  /-- `TRAP_MODEL` (R200, D7). -/
  trapModel : TrapModel
  /-- The debug control bit that lets HALT run in user mode (R186; assumption 15). -/
  userHalt : Bool
  /-- `MEM`, the address ranges (R49, D22). -/
  regions : List Region
  /-- `LAUNCH.code`, the bytes of the program text (R55, D16). -/
  code : List Span
deriving DecidableEq, Repr

/-- The values R6 takes, with the open `MEM` as one `ram` range over the whole space and the open `LAUNCH.code`
empty (DESIGN CHOICE, unsafe, assumptions 2 and 3). -/
def Params.default : Params where
  hasFpu := false
  misaligned := .split
  trapModel := .terminal
  userHalt := false
  regions := [⟨0, 2 ^ 32, .ram⟩]
  code := []

/-- FREE VALUE: the byte at an address of `ram` or `rom` that neither the launch image nor the program has written
(R49, R240, U11; assumption 5). -/
opaque Config.launchByte : Nat → Byte

/-- FREE VALUE: the byte a read of a `device` address returns, a fresh draw each time (R47, U11; assumption 6). -/
opaque Config.deviceByte : Nat → Byte

/-- FREE VALUE: what an address register stepped by (An)+ or -(An) holds once the instruction has raised an
exception (R130, U9; assumption 8). -/
opaque Config.unspecifiedWord : Nat → Word

/-- FREE VALUE: a flag after a chip reset (R241; assumption 26). -/
opaque Config.unspecifiedFlag : Nat → Bool

/-- FREE VALUE: the fault status field of an address error that an index word raises, which R216 does not list
(assumption 10). -/
opaque Config.indexFaultStatus : BitVec 4

end Sys2Proof
end

