-- ==== Sys2Proof/Syntax.lean ====
section
/-! DEFINITION. The instructions as syntax: one constructor of `Instr` for each row of spec/opcode_table.json, in the
table's order, with the operands the encodings hold (30_encoding.md, 40_addressing_modes.md). -/

namespace Sys2Proof

/-- A data register number (R20). -/
structure DReg where
  num : Fin 8
deriving DecidableEq, Repr

/-- An address register number (R21). -/
structure AReg where
  num : Fin 8
deriving DecidableEq, Repr

/-- A7, the stack pointer (R22). -/
def AReg.sp : AReg := ⟨7⟩

/-- Size of operation (R8). -/
inductive Size where
  | b
  | w
  | l
deriving DecidableEq, Repr

/-- `bytes(sz)` (R8). -/
def Size.bytes : Size → Nat
  | .b => 1
  | .w => 2
  | .l => 4

/-- `bits(sz)` = 8 * `bytes(sz)` (R8). -/
def Size.bits : Size → Nat
  | .b => 8
  | .w => 16
  | .l => 32

/-- A data or an address register: an index register (R64) or an entry of MOVEM's register list (R155). -/
inductive AnyReg where
  | d (n : DReg)
  | a (n : AReg)
deriving DecidableEq, Repr

/-- The extension word of the two indexed modes, field by field (R63, R64). -/
structure IndexWord where
  /-- D/A and Register, bits 15..12. -/
  xi : AnyReg
  /-- W/L, bit 11: true is longword. -/
  long : Bool
  /-- Scale, bits 10..9. -/
  scale : BitVec 2
  /-- Bit 8, which the format prints as 0. -/
  reserved : Bool
  /-- Displacement d8, bits 7..0. -/
  disp : Byte
deriving DecidableEq, Repr

/-- An effective address with its extension words: the twelve addressing modes of R62. -/
inductive Ea where
  /-- Dn (R102). -/
  | dreg (n : DReg)
  /-- An (R103). -/
  | areg (n : AReg)
  /-- (An) (R104). -/
  | ind (n : AReg)
  /-- (An)+ (R105). -/
  | postinc (n : AReg)
  /-- -(An) (R106). -/
  | predec (n : AReg)
  /-- (d16,An) (R107). -/
  | disp (d : Half) (n : AReg)
  /-- (d8,An,Xi*SF) (R108). -/
  | index (e : IndexWord) (n : AReg)
  /-- (xxx).W (R109). -/
  | absW (a : Half)
  /-- (xxx).L (R110). -/
  | absL (a : Word)
  /-- (d16,PC) (R112). -/
  | pcDisp (d : Half)
  /-- (d8,PC,Xi*SF) (R113). -/
  | pcIndex (e : IndexWord)
  /-- #xxx (R111): the extension words as a number, that is one 16-bit word for sizes B and W, two for L (R65). -/
  | imm (v : Word)
deriving DecidableEq, Repr

/-- The displacement of Bcc, BRA and BSR: in the operation word, or in a second word (R181). -/
inductive BranchDisp where
  | short (d : Byte)
  | word (d : Half)
deriving DecidableEq, Repr

/-- The instructions, in the order of spec/opcode_table.json. `y` operands are sources, `x` destinations. -/
inductive Instr where
  /-- ADDX.L Dy,Dx (R131). -/
  | addx (dy dx : DReg)
  /-- ADD.L ea,Dx (R132). -/
  | addToD (ea : Ea) (dx : DReg)
  /-- ADD.L Dy,ea (R132). -/
  | addToEa (dy : DReg) (ea : Ea)
  /-- ADDA.L ea,Ax (R133). -/
  | adda (ea : Ea) (ax : AReg)
  /-- ADDI.L #data,Dx (R134). -/
  | addi (data : Word) (dx : DReg)
  /-- SUB.L ea,Dx (R135). -/
  | subToD (ea : Ea) (dx : DReg)
  /-- SUB.L Dy,ea (R135). -/
  | subToEa (dy : DReg) (ea : Ea)
  /-- CMPA.L ea,Ax (R136). -/
  | cmpa (ea : Ea) (ax : AReg)
  /-- AND.L ea,Dx (R171). -/
  | andToD (ea : Ea) (dx : DReg)
  /-- AND.L Dy,ea (R171). -/
  | andToEa (dy : DReg) (ea : Ea)
  /-- MOVEA.sz ea,Ax with sz W or L (R152). -/
  | movea (sz : Size) (ea : Ea) (ax : AReg)
  /-- MOVE.B src,dst (R151). -/
  | moveB (src dst : Ea)
  /-- MOVE.L src,dst (R151). -/
  | moveL (src dst : Ea)
  /-- MOVE.W src,dst (R151). -/
  | moveW (src dst : Ea)
  /-- MOVEQ #data,Dx (R153). -/
  | moveq (data : Byte) (dx : DReg)
  /-- MOVEM.L #list,ea, registers to memory (R155). -/
  | movemStore (mask : Half) (ea : Ea)
  /-- MOVEM.L ea,#list, memory to registers (R155). -/
  | movemLoad (mask : Half) (ea : Ea)
  /-- LEA ea,Ax (R156). -/
  | lea (ea : Ea) (ax : AReg)
  /-- CLR.B ea (R157). -/
  | clrB (ea : Ea)
  /-- CLR.W ea (R157). -/
  | clrW (ea : Ea)
  /-- CLR.L ea (R157). -/
  | clrL (ea : Ea)
  /-- ASR.L #count,Dx: the count field, 0 standing for 8 (R172). -/
  | asrImm (count : BitVec 3) (dx : DReg)
  /-- ASR.L Dy,Dx (R172). -/
  | asrReg (dy dx : DReg)
  /-- BSET #num,ea: the whole bit-number word (R173). -/
  | bsetImm (num : Half) (ea : Ea)
  /-- BSET Dy,ea (R173). -/
  | bsetReg (dy : DReg) (ea : Ea)
  /-- BRA (R182). -/
  | bra (disp : BranchDisp)
  /-- BSR (R184). -/
  | bsr (disp : BranchDisp)
  /-- BHI, condition 0010 (R181). -/
  | bhi (disp : BranchDisp)
  /-- BLS, condition 0011 (R181). -/
  | bls (disp : BranchDisp)
  /-- BCC, condition 0100 (R181). -/
  | bcc (disp : BranchDisp)
  /-- BCS, condition 0101 (R181). -/
  | bcs (disp : BranchDisp)
  /-- BNE, condition 0110 (R181). -/
  | bne (disp : BranchDisp)
  /-- BEQ, condition 0111 (R181). -/
  | beq (disp : BranchDisp)
  /-- BVC, condition 1000 (R181). -/
  | bvc (disp : BranchDisp)
  /-- BVS, condition 1001 (R181). -/
  | bvs (disp : BranchDisp)
  /-- BPL, condition 1010 (R181). -/
  | bpl (disp : BranchDisp)
  /-- BMI, condition 1011 (R181). -/
  | bmi (disp : BranchDisp)
  /-- BGE, condition 1100 (R181). -/
  | bge (disp : BranchDisp)
  /-- BLT, condition 1101 (R181). -/
  | blt (disp : BranchDisp)
  /-- BGT, condition 1110 (R181). -/
  | bgt (disp : BranchDisp)
  /-- BLE, condition 1111 (R181). -/
  | ble (disp : BranchDisp)
  /-- RTS (R185). -/
  | rts
  /-- HALT (R186). -/
  | halt
deriving DecidableEq, Repr

/-- Why words are no instruction of the spec: the reasons of R202 that concern an encoding. All are safe. -/
inductive DecodeError where
  /-- No row of the opcode table takes the operation word (R80). -/
  | notSpecified
  /-- Mode 111 with Register 101, 110 or 111 (R116). -/
  | reservedAddressingMode
  /-- Bit 8 of an index word, or the high byte of a bit-number word, is not zero (R64, R173). -/
  | reservedExtensionWord
  /-- The high byte of a byte immediate is not zero (R65). -/
  | byteImmediateHighBits
  /-- More than three words (R68). -/
  | longerThanThreeWords
  /-- The input of `decodeBytes` ends inside the instruction; a step never answers this. -/
  | truncated
deriving DecidableEq, Repr

end Sys2Proof
end

