-- ==== Sys2Proof/WellFormed.lean ====
section
/-! DEFINITION. Which instructions are well formed: the addressing modes each instruction admits (30_encoding.md R76),
MOVE's pair restrictions (42_move.md R151), and the operand words' own ranges (R64, R65, R173, R181). -/

namespace Sys2Proof

/-- Data modes: every mode but An (R115). -/
def Ea.isData : Ea → Bool
  | .areg _ => false
  | _ => true

/-- Memory alterable modes: the destinations of ADD, SUB and AND (R76, R115). -/
def Ea.isMemoryAlterable : Ea → Bool
  | .ind _ | .postinc _ | .predec _ | .disp _ _ | .index _ _ | .absW _ | .absL _ => true
  | _ => false

/-- Data alterable modes: the destinations of MOVE, CLR and BSET Dy (R76, R115). -/
def Ea.isDataAlterable : Ea → Bool
  | .dreg _ => true
  | ea => ea.isMemoryAlterable

/-- Control modes: the source of LEA (R76, R115). -/
def Ea.isControl : Ea → Bool
  | .ind _ | .disp _ _ | .index _ _ | .absW _ | .absL _ | .pcDisp _ | .pcIndex _ => true
  | _ => false

/-- The modes of BSET with a constant bit number (R76, R173). -/
def Ea.isBsetStatic : Ea → Bool
  | .dreg _ | .ind _ | .postinc _ | .predec _ | .disp _ _ => true
  | _ => false

/-- The modes of MOVEM (R76, R155). -/
def Ea.isMovem : Ea → Bool
  | .ind _ | .disp _ _ => true
  | _ => false

/-- The pairs of modes MOVE admits, for a destination that is data alterable: the three rows of R151's table. -/
def movePair (src dst : Ea) : Bool :=
  match src with
  | .dreg _ | .areg _ | .ind _ | .postinc _ | .predec _ => true
  | .disp _ _ | .pcDisp _ =>
    match dst with
    | .index _ _ | .absW _ | .absL _ => false
    | _ => true
  | .index _ _ | .pcIndex _ | .absW _ | .absL _ | .imm _ =>
    match dst with
    | .disp _ _ | .index _ _ | .absW _ | .absL _ => false
    | _ => true

/-- A displacement byte of 0x00 or 0xFF is not a one-word branch (R181). -/
def BranchDisp.ok : BranchDisp → Bool
  | .short d => d != 0x00 && d != 0xFF
  | .word _ => true

/-- What the operation word alone decides: the modes each instruction admits (R76, R151). -/
def Instr.modesOk : Instr → Bool
  | .addx _ _ | .addToD _ _ | .adda _ _ | .addi _ _ | .subToD _ _ | .cmpa _ _ => true
  | .addToEa _ ea | .subToEa _ ea | .andToEa _ ea => ea.isMemoryAlterable
  | .andToD ea _ => ea.isData
  | .movea sz _ _ => sz != .b
  | .moveB src dst => src.isData && dst.isDataAlterable && movePair src dst
  | .moveL src dst | .moveW src dst => dst.isDataAlterable && movePair src dst
  | .moveq _ _ => true
  | .movemStore _ ea | .movemLoad _ ea => ea.isMovem
  | .lea ea _ => ea.isControl
  | .clrB ea | .clrW ea | .clrL ea => ea.isDataAlterable
  | .asrImm _ _ | .asrReg _ _ => true
  | .bsetImm _ ea => ea.isBsetStatic
  | .bsetReg _ ea => ea.isDataAlterable
  | .bra d | .bsr d | .bhi d | .bls d | .bcc d | .bcs d | .bne d | .beq d | .bvc d | .bvs d | .bpl d | .bmi d
  | .bge d | .blt d | .bgt d | .ble d => d.ok
  | .rts | .halt => true

/-- An immediate's extension words hold no more than the operand's bits (R65): a byte immediate's word has a zero high
byte, and a byte or word immediate is one word. -/
def Ea.immFits (sz : Size) : Ea → Bool
  | .imm v => v.toNat < 2 ^ sz.bits
  | _ => true

/-- An index word's bit 8 is 0 (R64). -/
def Ea.indexOk : Ea → Bool
  | .index e _ | .pcIndex e => !e.reserved
  | _ => true

/-- The operand words of an instruction are ones the format allows: R64, R65, R173. -/
def Instr.operandsOk : Instr → Bool
  | .addx _ _ | .addi _ _ | .moveq _ _ | .asrImm _ _ | .asrReg _ _ => true
  | .addToD ea _ | .addToEa _ ea | .adda ea _ | .subToD ea _ | .subToEa _ ea | .cmpa ea _ | .andToD ea _
  | .andToEa _ ea | .lea ea _ => ea.indexOk
  | .movea sz ea _ => ea.indexOk && ea.immFits sz
  | .moveB src dst => src.indexOk && src.immFits .b && dst.indexOk
  | .moveL src dst => src.indexOk && dst.indexOk
  | .moveW src dst => src.indexOk && src.immFits .w && dst.indexOk
  | .movemStore _ _ | .movemLoad _ _ => true
  | .clrB ea | .clrW ea | .clrL ea | .bsetReg _ ea => ea.indexOk
  | .bsetImm num _ => num.toNat < 256
  | .bra _ | .bsr _ | .bhi _ | .bls _ | .bcc _ | .bcs _ | .bne _ | .beq _ | .bvc _ | .bvs _ | .bpl _ | .bmi _
  | .bge _ | .blt _ | .bgt _ | .ble _ => true
  | .rts | .halt => true

/-- A well-formed instruction: one the encoding can express and the spec gives a meaning. -/
def Instr.wf (i : Instr) : Bool :=
  i.modesOk && i.operandsOk

end Sys2Proof
end

