-- ==== Sys2Proof/Decode.lean ====
section
/-! DEFINITION. From words to instructions and back: the decoder (30_encoding.md R60 to R76), the length of an
instruction (R68), and the encoder, both written from the formats of R61 to R73 and the opcode map of R74. -/

namespace Sys2Proof

/-! ### Register numbers and small fields -/

/-- Data register of a 3-bit field (R20). -/
def DReg.ofBits (b : BitVec 3) : DReg := ⟨b.toFin⟩

/-- The 3-bit field of a data register (R20). -/
def DReg.bits (r : DReg) : BitVec 3 := BitVec.ofFin r.num

/-- Address register of a 3-bit field (R21). -/
def AReg.ofBits (b : BitVec 3) : AReg := ⟨b.toFin⟩

/-- The 3-bit field of an address register (R21). -/
def AReg.bits (r : AReg) : BitVec 3 := BitVec.ofFin r.num

/-! ### The indexed extension word (R63, R64) -/

/-- Read an indexed extension word: D/A, Register, W/L, Scale, bit 8, Displacement (R63). -/
def IndexWord.ofHalf (e : Half) : IndexWord where
  xi := if e.getLsbD 15 then .a (AReg.ofBits (e.extractLsb' 12 3)) else .d (DReg.ofBits (e.extractLsb' 12 3))
  long := e.getLsbD 11
  scale := e.extractLsb' 9 2
  reserved := e.getLsbD 8
  disp := e.extractLsb' 0 8

/-- D/A and Register of an index register (R64: 0 = Dn, 1 = An). -/
def AnyReg.bits : AnyReg → BitVec 4
  | .d n => 0#1 ++ n.bits
  | .a n => 1#1 ++ n.bits

/-- Write an indexed extension word (R63). -/
def IndexWord.toHalf (e : IndexWord) : Half :=
  e.xi.bits ++ BitVec.ofBool e.long ++ e.scale ++ BitVec.ofBool e.reserved ++ e.disp

/-! ### Effective addresses (R62, R65 to R67) -/

/-- How many extension words an effective address adds (R62, R65). -/
def Ea.words (sz : Size) : Ea → Nat
  | .dreg _ | .areg _ | .ind _ | .postinc _ | .predec _ => 0
  | .disp _ _ | .index _ _ | .absW _ | .pcDisp _ | .pcIndex _ => 1
  | .absL _ => 2
  | .imm _ => match sz with
    | .l => 2
    | _ => 1

/-- Read an effective address from its Mode and Register fields and the words that follow; a word that is not there
reads as zero (R62, R65, R66). -/
def decodeEa (mode reg : BitVec 3) (sz : Size) (xs : List Half) : Except DecodeError Ea :=
  let x0 := xs.getD 0 0
  let x1 := xs.getD 1 0
  if mode = 0 then .ok (.dreg (DReg.ofBits reg))
  else if mode = 1 then .ok (.areg (AReg.ofBits reg))
  else if mode = 2 then .ok (.ind (AReg.ofBits reg))
  else if mode = 3 then .ok (.postinc (AReg.ofBits reg))
  else if mode = 4 then .ok (.predec (AReg.ofBits reg))
  else if mode = 5 then .ok (.disp x0 (AReg.ofBits reg))
  else if mode = 6 then .ok (.index (IndexWord.ofHalf x0) (AReg.ofBits reg))
  else if reg = 0 then .ok (.absW x0)
  else if reg = 1 then .ok (.absL (x0 ++ x1))
  else if reg = 2 then .ok (.pcDisp x0)
  else if reg = 3 then .ok (.pcIndex (IndexWord.ofHalf x0))
  else if reg = 4 then
    .ok (.imm (match sz with
      | .l => x0 ++ x1
      | _ => x0.setWidth 32))
  else .error .reservedAddressingMode

/-- The Mode field (R62). -/
def Ea.mode : Ea → BitVec 3
  | .dreg _ => 0
  | .areg _ => 1
  | .ind _ => 2
  | .postinc _ => 3
  | .predec _ => 4
  | .disp _ _ => 5
  | .index _ _ => 6
  | .absW _ | .absL _ | .pcDisp _ | .pcIndex _ | .imm _ => 7

/-- The Register field (R62). -/
def Ea.reg : Ea → BitVec 3
  | .dreg n => n.bits
  | .areg n | .ind n | .postinc n | .predec n | .disp _ n | .index _ n => n.bits
  | .absW _ => 0
  | .absL _ => 1
  | .pcDisp _ => 2
  | .pcIndex _ => 3
  | .imm _ => 4

/-- The two words of a 32-bit operand word pair, high-order word first (R65, R66). -/
def longWords (v : Word) : List Half := [v.extractLsb' 16 16, v.extractLsb' 0 16]

/-- The extension words of an effective address (R65, R66). -/
def Ea.exts (sz : Size) : Ea → List Half
  | .dreg _ | .areg _ | .ind _ | .postinc _ | .predec _ => []
  | .disp d _ | .absW d | .pcDisp d => [d]
  | .index e _ | .pcIndex e => [e.toHalf]
  | .absL a => longWords a
  | .imm v => match sz with
    | .l => longWords v
    | _ => [v.extractLsb' 0 16]

/-! ### Lengths (R68) -/

/-- Words a branch's displacement adds (R181). -/
def BranchDisp.words : BranchDisp → Nat
  | .short _ => 0
  | .word _ => 1

/-- The length of an instruction in 16-bit words: one, its own operand words, the extension words of its effective
addresses (R68). -/
def Instr.words : Instr → Nat
  | .addx _ _ | .moveq _ _ | .asrImm _ _ | .asrReg _ _ | .rts | .halt => 1
  | .addToD ea _ | .addToEa _ ea | .adda ea _ | .subToD ea _ | .subToEa _ ea | .cmpa ea _ | .andToD ea _
  | .andToEa _ ea | .lea ea _ => 1 + ea.words .l
  | .addi _ _ => 3
  | .movea sz ea _ => 1 + ea.words sz
  | .moveB src dst => 1 + src.words .b + dst.words .b
  | .moveL src dst => 1 + src.words .l + dst.words .l
  | .moveW src dst => 1 + src.words .w + dst.words .w
  | .movemStore _ ea | .movemLoad _ ea => 2 + ea.words .l
  | .clrB ea => 1 + ea.words .b
  | .clrW ea => 1 + ea.words .w
  | .clrL ea => 1 + ea.words .l
  | .bsetImm _ ea => 2 + ea.words .b
  | .bsetReg _ ea => 1 + ea.words .b
  | .bra d | .bsr d | .bhi d | .bls d | .bcc d | .bcs d | .bne d | .beq d | .bvc d | .bvs d | .bpl d | .bmi d
  | .bge d | .blt d | .bgt d | .ble d => 1 + d.words

/-! ### The decoder (R74, R75) -/

/-- Operation words with bits 15..12 = 0000: ADDI, BSET # and BSET Dy (R73, R74). -/
def candidate0 (r o m g : BitVec 3) (xs : List Half) : Except DecodeError Instr :=
  if r = 3 ∧ o = 2 ∧ m = 0 then .ok (.addi (xs.getD 0 0 ++ xs.getD 1 0) (DReg.ofBits g))
  else if r = 4 ∧ o = 3 then (decodeEa m g .b (xs.drop 1)).map fun ea => .bsetImm (xs.getD 0 0) ea
  else if o = 7 then (decodeEa m g .b xs).map fun ea => .bsetReg (DReg.ofBits r) ea
  else .error .notSpecified

/-- The MOVE format: source, then destination, whose Register field stands above its Mode field (R67, R69). -/
def candidateMove (sz : Size) (mk : Ea → Ea → Instr) (r o m g : BitVec 3) (xs : List Half) :
    Except DecodeError Instr :=
  match decodeEa m g sz xs with
  | .error e => .error e
  | .ok src => (decodeEa o r sz (xs.drop (src.words sz))).map fun dst => mk src dst

/-- MOVEA, the MOVE format with Destination Mode 001 (R69, R152). -/
def candidateMovea (sz : Size) (r m g : BitVec 3) (xs : List Half) : Except DecodeError Instr :=
  (decodeEa m g sz xs).map fun ea => .movea sz ea (AReg.ofBits r)

/-- Operation words with bits 15..12 = 0100: RTS, HALT, LEA, CLR and MOVEM (R73, R74). -/
def candidate4 (r o m g : BitVec 3) (xs : List Half) : Except DecodeError Instr :=
  if r = 7 ∧ o = 1 ∧ m = 6 ∧ g = 5 then .ok .rts
  else if r = 5 ∧ o = 3 ∧ m = 1 ∧ g = 0 then .ok .halt
  else if o = 7 then (decodeEa m g .l xs).map fun ea => .lea ea (AReg.ofBits r)
  else if r = 1 ∧ o = 0 then (decodeEa m g .b xs).map fun ea => .clrB ea
  else if r = 1 ∧ o = 1 then (decodeEa m g .w xs).map fun ea => .clrW ea
  else if r = 1 ∧ o = 2 then (decodeEa m g .l xs).map fun ea => .clrL ea
  else if r = 4 ∧ o = 3 then (decodeEa m g .l (xs.drop 1)).map fun ea => .movemStore (xs.getD 0 0) ea
  else if r = 6 ∧ o = 3 then (decodeEa m g .l (xs.drop 1)).map fun ea => .movemLoad (xs.getD 0 0) ea
  else .error .notSpecified

/-- The branch of a condition field (R181's table; 0000 is BRA, 0001 BSR). -/
def branchOf (cc : BitVec 4) (d : BranchDisp) : Instr :=
  if cc = 0 then .bra d
  else if cc = 1 then .bsr d
  else if cc = 2 then .bhi d
  else if cc = 3 then .bls d
  else if cc = 4 then .bcc d
  else if cc = 5 then .bcs d
  else if cc = 6 then .bne d
  else if cc = 7 then .beq d
  else if cc = 8 then .bvc d
  else if cc = 9 then .bvs d
  else if cc = 10 then .bpl d
  else if cc = 11 then .bmi d
  else if cc = 12 then .bge d
  else if cc = 13 then .blt d
  else if cc = 14 then .bgt d
  else .ble d

/-- Operation words with bits 15..12 = 0110: a displacement byte of 0x00 says that a displacement word follows
(R181). -/
def candidate6 (cc : BitVec 4) (d8 : Byte) (xs : List Half) : Except DecodeError Instr :=
  if d8 = 0x00 then .ok (branchOf cc (.word (xs.getD 0 0)))
  else .ok (branchOf cc (.short d8))

/-- The ADD, SUB and AND format with Opmode 010 or 110 (R71). -/
def candidateAlu (toD : Ea → DReg → Instr) (toEa : DReg → Ea → Instr) (r o m g : BitVec 3) (xs : List Half) :
    Except DecodeError Instr :=
  if o = 2 then (decodeEa m g .l xs).map fun ea => toD ea (DReg.ofBits r)
  else if o = 6 then (decodeEa m g .l xs).map fun ea => toEa (DReg.ofBits r) ea
  else .error .notSpecified

/-- Operation words with bits 15..12 = 1101: ADDX before ADD (R75), ADDA, ADD (R71 to R74). -/
def candidateD (r o m g : BitVec 3) (xs : List Half) : Except DecodeError Instr :=
  if o = 6 ∧ m = 0 then .ok (.addx (DReg.ofBits g) (DReg.ofBits r))
  else if o = 7 then (decodeEa m g .l xs).map fun ea => .adda ea (AReg.ofBits r)
  else candidateAlu .addToD .addToEa r o m g xs

/-- Operation words with bits 15..12 = 1110: ASR.L (R73, R74). -/
def candidateE (r o m g : BitVec 3) : Except DecodeError Instr :=
  if o = 2 ∧ m = 0 then .ok (.asrImm r (DReg.ofBits g))
  else if o = 2 ∧ m = 4 then .ok (.asrReg (DReg.ofBits r) (DReg.ofBits g))
  else .error .notSpecified

/-- The row an operation word matches (R74, R75), its modes not yet checked; `xs` are the words after it, of which a
word that is not there reads as zero. -/
def candidate (w : Half) (xs : List Half) : Except DecodeError Instr :=
  let top : BitVec 4 := w.extractLsb' 12 4
  let r : BitVec 3 := w.extractLsb' 9 3
  let o : BitVec 3 := w.extractLsb' 6 3
  let m : BitVec 3 := w.extractLsb' 3 3
  let g : BitVec 3 := w.extractLsb' 0 3
  if top = 0 then candidate0 r o m g xs
  else if top = 1 then candidateMove .b .moveB r o m g xs
  else if top = 2 then
    if o = 1 then candidateMovea .l r m g xs else candidateMove .l .moveL r o m g xs
  else if top = 3 then
    if o = 1 then candidateMovea .w r m g xs else candidateMove .w .moveW r o m g xs
  else if top = 4 then candidate4 r o m g xs
  else if top = 6 then candidate6 (w.extractLsb' 8 4) (w.extractLsb' 0 8) xs
  else if top = 7 then
    if w.getLsbD 8 then .error .notSpecified else .ok (.moveq (w.extractLsb' 0 8) (DReg.ofBits r))
  else if top = 9 then candidateAlu .subToD .subToEa r o m g xs
  else if top = 11 then
    if o = 7 then (decodeEa m g .l xs).map fun ea => .cmpa ea (AReg.ofBits r) else .error .notSpecified
  else if top = 12 then candidateAlu .andToD .andToEa r o m g xs
  else if top = 13 then candidateD r o m g xs
  else if top = 14 then candidateE r o m g
  else .error .notSpecified

/-- The operand words that a decoder refuses by name: a byte immediate's high byte (R65) and the high byte of a
bit-number word (R173). An index word's bit 8 is refused where the operand is resolved (R114). -/
def Instr.operandError : Instr → Option DecodeError
  | .moveB src _ => if src.immFits .b then none else some .byteImmediateHighBits
  | .bsetImm num _ => if num.toNat < 256 then none else some .reservedExtensionWord
  | _ => none

/-- Decode an operation word with the words that follow it; a word that is not there reads as zero. A word no row
takes, or whose modes the row does not admit (R76; Mode 111 Register 101 to 111 among them, R116), is not specified
(R75, R80). -/
def decode (w : Half) (xs : List Half) : Except DecodeError Instr :=
  match candidate w xs with
  | .error _ => .error .notSpecified
  | .ok i =>
    if i.modesOk = false then .error .notSpecified
    else if 3 < i.words then .error .longerThanThreeWords
    else
      match i.operandError with
      | some e => .error e
      | none => .ok i

/-- Decode the first instruction of a sequence of words, with the words after it. -/
def decodeWords : List Half → Except DecodeError (Instr × List Half)
  | [] => .error .truncated
  | w :: xs =>
    match decode w xs with
    | .error e => .error e
    | .ok i => if xs.length + 1 < i.words then .error .truncated else .ok (i, xs.drop (i.words - 1))

/-- Pairs of bytes as 16-bit words, the high byte first (R41); an odd last byte is no word. -/
def halvesOfBytes : List Byte → List Half
  | hi :: lo :: rest => (hi ++ lo) :: halvesOfBytes rest
  | _ => []

/-- The bytes of 16-bit words in memory order, the high byte first (R41). -/
def bytesOfHalves : List Half → List Byte
  | [] => []
  | w :: ws => w.extractLsb' 8 8 :: w.extractLsb' 0 8 :: bytesOfHalves ws

/-- Decode the first instruction of a sequence of bytes, with the bytes after it; total on any bytes. -/
def decodeBytes (bs : List Byte) : Except DecodeError (Instr × List Byte) :=
  match decodeWords (halvesOfBytes bs) with
  | .error e => .error e
  | .ok (i, _) => .ok (i, bs.drop (2 * i.words))

/-! ### The encoder -/

/-- The operation word from its five fields: bits 15..12, 11..9, 8..6, 5..3 and 2..0 (R61, R69 to R73). -/
def opWord (top : BitVec 4) (r o m g : BitVec 3) : Half := top ++ r ++ o ++ m ++ g

/-- The operation word of a branch and its displacement word, if it has one (R73, R181). -/
def branchWords (cc : BitVec 4) : BranchDisp → List Half
  | .short d => [0x6#4 ++ cc ++ d]
  | .word d => [0x6#4 ++ cc ++ 0x00#8, d]

/-- The words of an instruction (R60, R67, R69 to R73). -/
def encode : Instr → List Half
  | .addx dy dx => [opWord 0xD dx.bits 6 0 dy.bits]
  | .addToD ea dx => opWord 0xD dx.bits 2 ea.mode ea.reg :: ea.exts .l
  | .addToEa dy ea => opWord 0xD dy.bits 6 ea.mode ea.reg :: ea.exts .l
  | .adda ea ax => opWord 0xD ax.bits 7 ea.mode ea.reg :: ea.exts .l
  | .addi data dx => opWord 0x0 3 2 0 dx.bits :: longWords data
  | .subToD ea dx => opWord 0x9 dx.bits 2 ea.mode ea.reg :: ea.exts .l
  | .subToEa dy ea => opWord 0x9 dy.bits 6 ea.mode ea.reg :: ea.exts .l
  | .cmpa ea ax => opWord 0xB ax.bits 7 ea.mode ea.reg :: ea.exts .l
  | .andToD ea dx => opWord 0xC dx.bits 2 ea.mode ea.reg :: ea.exts .l
  | .andToEa dy ea => opWord 0xC dy.bits 6 ea.mode ea.reg :: ea.exts .l
  | .movea sz ea ax => opWord (match sz with | .w => 0x3 | _ => 0x2) ax.bits 1 ea.mode ea.reg :: ea.exts sz
  | .moveB src dst => opWord 0x1 dst.reg dst.mode src.mode src.reg :: (src.exts .b ++ dst.exts .b)
  | .moveL src dst => opWord 0x2 dst.reg dst.mode src.mode src.reg :: (src.exts .l ++ dst.exts .l)
  | .moveW src dst => opWord 0x3 dst.reg dst.mode src.mode src.reg :: (src.exts .w ++ dst.exts .w)
  | .moveq data dx => [0x7#4 ++ dx.bits ++ 0#1 ++ data]
  | .movemStore mask ea => opWord 0x4 4 3 ea.mode ea.reg :: mask :: ea.exts .l
  | .movemLoad mask ea => opWord 0x4 6 3 ea.mode ea.reg :: mask :: ea.exts .l
  | .lea ea ax => opWord 0x4 ax.bits 7 ea.mode ea.reg :: ea.exts .l
  | .clrB ea => opWord 0x4 1 0 ea.mode ea.reg :: ea.exts .b
  | .clrW ea => opWord 0x4 1 1 ea.mode ea.reg :: ea.exts .w
  | .clrL ea => opWord 0x4 1 2 ea.mode ea.reg :: ea.exts .l
  | .asrImm count dx => [opWord 0xE count 2 0 dx.bits]
  | .asrReg dy dx => [opWord 0xE dy.bits 2 4 dx.bits]
  | .bsetImm num ea => opWord 0x0 4 3 ea.mode ea.reg :: num :: ea.exts .b
  | .bsetReg dy ea => opWord 0x0 dy.bits 7 ea.mode ea.reg :: ea.exts .b
  | .bra d => branchWords 0 d
  | .bsr d => branchWords 1 d
  | .bhi d => branchWords 2 d
  | .bls d => branchWords 3 d
  | .bcc d => branchWords 4 d
  | .bcs d => branchWords 5 d
  | .bne d => branchWords 6 d
  | .beq d => branchWords 7 d
  | .bvc d => branchWords 8 d
  | .bvs d => branchWords 9 d
  | .bpl d => branchWords 10 d
  | .bmi d => branchWords 11 d
  | .bge d => branchWords 12 d
  | .blt d => branchWords 13 d
  | .bgt d => branchWords 14 d
  | .ble d => branchWords 15 d
  | .rts => [0x4E75]
  | .halt => [0x4AC8]

/-- The bytes of an instruction in memory (R41). -/
def encodeBytes (i : Instr) : List Byte := bytesOfHalves (encode i)

/-! ### The opcode table's numbering -/

/-- The three 16-bit words of an instruction whose bits are `w`, bit 0 the least significant bit of the first word; the
bits from `nbits` on are zero. -/
def tableHalves (nbits w : Nat) : List Half :=
  let v := w % 2 ^ nbits
  [BitVec.ofNat 16 v, BitVec.ofNat 16 (v / 2 ^ 16), BitVec.ofNat 16 (v / 2 ^ 32)]

/-- The six bytes of that instruction in memory order (R41). -/
def tableBytes (nbits w : Nat) : List Byte := bytesOfHalves (tableHalves nbits w)

/-- The instruction the decoder reads from an instruction whose bits are `w`, numbered as spec/opcode_table.json
numbers them. -/
def decodeTableWord (nbits w : Nat) : Option Instr :=
  match decodeBytes (tableBytes nbits w) with
  | .ok (i, _) => some i
  | .error _ => none

end Sys2Proof
end

