-- ==== Sys2Proof/Machine/State.lean ====
section
/-! DEFINITION. The machine's state as plain data, the reasons a step stops, and the state after reset (10_state.md R20
to R36, 60_exceptions.md R200 to R202). -/

namespace Sys2Proof.Machine

/-- The condition code register's five flags (R26). -/
structure Ccr where
  x : Bool
  n : Bool
  z : Bool
  v : Bool
  c : Bool
deriving DecidableEq, Repr

/-- The fields of the status register's high byte: T (bit 15), S (13), M (12), I (10..8); its other bits are zero and
hold nothing (R30). -/
structure SrHigh where
  t : Bool
  s : Bool
  m : Bool
  i : BitVec 3
deriving DecidableEq, Repr

/-- Memory as a list of (address, byte) pairs in one canonical form: addresses strictly rising, each below 2^32. An
address that is not listed holds no written byte, and reads as the free value `Config.launchByte` (assumption 5). -/
abbrev Memory := List Host.Cell

/-- The canonical form of a memory. -/
abbrev Memory.wf (m : Memory) : Prop :=
  m.Pairwise (fun c d => c.1 < d.1) ∧ ∀ c ∈ m, c.1 < 2 ^ 32

/-- What an access is for (R201, R216). -/
inductive Access where
  | fetch
  | read
  | write
deriving DecidableEq, Repr

/-- One access to a `device` range, as the record of R47 holds it: its kind, address, size in bytes and value. -/
structure DeviceAccess where
  kind : Access
  addr : Word
  size : Nat
  value : Word
deriving DecidableEq, Repr

/-- What an address error is about: the rows of R201's table. -/
inductive AddressFault where
  /-- An instruction is to be fetched at an odd pc (R43). -/
  | oddPc
  /-- An index word has W/L = 0, or Scale = 11 without an FPU (R114). -/
  | index
  /-- A misaligned data access under `MISALIGNED_DATA` = fault (R44). -/
  | data (k : Access)
deriving DecidableEq, Repr

/-- Exception causes, with the info R201 records. -/
inductive Cause where
  /-- AddressError; `info` is the odd pc, the index word's address, or the data address (R201, R114). -/
  | addressError (info : Word) (on : AddressFault)
  /-- AccessError; `info` is the first offending byte's address, `rom` says it stands in a `rom` range (R201, R47). -/
  | accessError (info : Word) (kind : Access) (rom : Bool)
  /-- HALT in user mode (R186). -/
  | privilegeViolation
  /-- The format field of an exception frame is not 4 to 7 (R217); raised by the return operation only. -/
  | formatError
deriving DecidableEq, Repr

/-- The fault record (E, info, pc) of R200. -/
structure FaultRecord where
  cause : Cause
  pc : Word
deriving DecidableEq, Repr

/-- Whether the processor executes instructions: the halted flag of R34 and R186, and the halt of a fault-on-fault
(R217). -/
inductive RunStatus where
  | running
  | halted
  | faultOnFault
deriving DecidableEq, Repr

/-- The machine (R20 to R34). -/
structure State where
  /-- D0 to D7 (R20). -/
  d : Vector Word 8
  /-- A0 to A7; A7 is the stack pointer (R21, R22). -/
  a : Vector Word 8
  /-- The address of the operation word of the instruction to execute (R24). -/
  pc : Word
  /-- X N Z V C (R26). -/
  ccr : Ccr
  /-- The status register's high byte (R30). -/
  sr : SrHigh
  /-- The vector base register (R31); read through `vbrBase`, which makes bits 19..0 zero. -/
  vbr : Word
  /-- Memory (R33). -/
  mem : Memory
  /-- The halted flag (R34). -/
  status : RunStatus
  /-- The fault record under `TRAP_MODEL` = terminal (R200). -/
  faultRecord : Option FaultRecord
  /-- The accesses made to `device` ranges, oldest first (R47). -/
  deviceLog : List DeviceAccess
  /-- The MODEL's own counter of free values (assumption 7). -/
  draws : Nat
  /-- The parameters fixed at launch (R6, R240). -/
  params : Params
deriving DecidableEq, Repr

/-- Why a step ends in a fault. -/
inductive Fault where
  /-- Raised by taking an exception under `TRAP_MODEL` = terminal: the record, and the faulted state, which carries
  the record and every write made before the raising line (R200, R208). Safe: the run ends where the chip would go on
  in a handler. -/
  | exception (r : FaultRecord) (faulted : State)
  /-- Raised by `step` in a halted state, which takes no further step (R186). Safe: a stuck state. -/
  | halted
  /-- Raised by `step` after a fault-on-fault, from which only reset recovers (R217). Safe: a stuck state. -/
  | faultOnFault
  /-- Raised by `step` in a state that carries a fault record, which takes no further step (R200). Safe: a stuck
  state. -/
  | alreadyFaulted (r : FaultRecord)
deriving DecidableEq, Repr

/-- Why a step is refused: the spec gives the words or the access no meaning (R202). All are safe. -/
inductive Refusal where
  /-- Answered by `exec` for an instruction the model has not reached. Safe. -/
  | notModelled (mnemonic : String)
  /-- Answered by `step` where the decoder refuses the words, by an operand whose index word has bit 8 set
  (ReservedExtensionWord, R114), and by a meaning given a mode its instruction does not admit (NotSpecified, R80).
  Safe. -/
  | encoding (e : DecodeError)
  /-- Answered by MOVE An,(An)+ and MOVE An,-(An) with one register (R120). Safe. -/
  | baseIsAlsoData
  /-- Answered by any store that touches `LAUNCH.code` (R55). Safe. -/
  | storeToCode
  /-- Answered by `step` for an instruction whose words straddle the top of the address space (R24). Safe. -/
  | wrapAround
deriving DecidableEq, Repr

/-- The outcome of one part of an instruction: a value and the state so far, an exception with the state it is raised
in (R208), or a refusal. -/
inductive Res (α : Type) where
  | ok (v : α) (s : State)
  | raise (c : Cause) (s : State)
  | refuse (r : Refusal)
deriving DecidableEq, Repr

/-- Why an access or an operand stops: an exception or a refusal. -/
inductive Stop where
  | cause (c : Cause)
  | refusal (r : Refusal)
deriving DecidableEq, Repr

/-- The machine right after reset: the values of R30, R31 and R35 where the spec gives them (S = 1, T = 0, M = 0,
I = 7, VBR = 0, not halted, no fault recorded); zero for the registers, flags and pc that R35 leaves to the caller
(DESIGN CHOICE, unsafe, assumption 4); no byte of memory listed; the parameters of R6. -/
def State.reset : State where
  d := Vector.replicate 8 0
  a := Vector.replicate 8 0
  pc := 0
  ccr := ⟨false, false, false, false, false⟩
  sr := ⟨false, true, false, 7⟩
  vbr := 0
  mem := []
  status := .running
  faultRecord := none
  deviceLog := []
  draws := 0
  params := Params.default

end Sys2Proof.Machine
end

