-- ==== Sys2Proof/Machine/Ops.lean ====
section
/-! DEFINITION. The operations over registers and memory, sequencing of partial outcomes, taking an exception and
returning from one (10_state.md, 20_memory.md, 60_exceptions.md, 70_reset_and_hazards.md R241). -/

namespace Sys2Proof.Machine

/-! ### Sequencing -/

/-- Go on with the value and state of a part that completed (R9: after a `raise` no later line runs). -/
def Res.bind {α β : Type} (x : Res α) (k : α → State → Res β) : Res β :=
  match x with
  | .ok v s => k v s
  | .raise c s => .raise c s
  | .refuse r => .refuse r

/-- A check's stop as an outcome. -/
def Stop.toRes {α : Type} (st : Stop) (s : State) : Res α :=
  match st with
  | .cause c => .raise c s
  | .refusal r => .refuse r

/-! ### Registers -/

/-- D[n] (R9, R20). -/
def State.getD (s : State) (n : DReg) : Word := s.d[n.num]

/-- D[n] <- v (R9). -/
def State.setD (s : State) (n : DReg) (v : Word) : State := { s with d := s.d.set n.num v }

/-- A[n] (R9, R21). -/
def State.getA (s : State) (n : AReg) : Word := s.a[n.num]

/-- A[n] <- v (R9). -/
def State.setA (s : State) (n : AReg) (v : Word) : State := { s with a := s.a.set n.num v }

/-- A register of either file (R64, R155). -/
def State.getR (s : State) : AnyReg → Word
  | .d n => s.getD n
  | .a n => s.getA n

/-- Write a register of either file (R155). -/
def State.setR (s : State) : AnyReg → Word → State
  | .d n => s.setD n
  | .a n => s.setA n

/-- Write the flags. -/
def State.setCcr (s : State) (f : Ccr) : State := { s with ccr := f }

/-- Write the pc. -/
def State.setPc (s : State) (v : Word) : State := { s with pc := v }

/-- Write the status register's high byte. -/
def State.setSr (s : State) (h : SrHigh) : State := { s with sr := h }

/-- Count one free value as drawn. -/
def State.bump (s : State) : State := { s with draws := s.draws + 1 }

/-- The value of the vector base register: bits 19..0 read as zero (R31). -/
def State.vbrBase (s : State) : Word := s.vbr &&& 0xFFF00000

/-- Write the vector base register: bits 19..0 are discarded (R31). -/
def State.setVbr (s : State) (v : Word) : State := { s with vbr := v &&& 0xFFF00000 }

/-- The 16-bit status register: T 0 S M 0 I(3) 000 X N Z V C (R30). -/
def State.srWord (s : State) : Half :=
  BitVec.ofBool s.sr.t ++ 0#1 ++ BitVec.ofBool s.sr.s ++ BitVec.ofBool s.sr.m ++ 0#1 ++ s.sr.i ++ 0#3 ++
    BitVec.ofBool s.ccr.x ++ BitVec.ofBool s.ccr.n ++ BitVec.ofBool s.ccr.z ++ BitVec.ofBool s.ccr.v ++
    BitVec.ofBool s.ccr.c

/-- Write the whole status register; the bits R30 gives as zero are discarded. -/
def State.setSrWord (s : State) (w : Half) : State :=
  (s.setSr ⟨w.getLsbD 15, w.getLsbD 13, w.getLsbD 12, w.extractLsb' 8 3⟩).setCcr
    ⟨w.getLsbD 4, w.getLsbD 3, w.getLsbD 2, w.getLsbD 1, w.getLsbD 0⟩

/-! ### The memory list -/

/-- The byte listed at an address. -/
def Memory.get : Memory → Nat → Option Byte
  | [], _ => none
  | (x, b) :: rest, a => if x = a then some b else Memory.get rest a

/-- List a byte at an address, keeping the addresses strictly rising. -/
def Memory.set : Memory → Nat → Byte → Memory
  | [], a, b => [(a, b)]
  | (x, c) :: rest, a, b =>
    if a < x then (a, b) :: (x, c) :: rest
    else if a = x then (a, b) :: rest
    else (x, c) :: Memory.set rest a b

/-- The byte a `ram` or `rom` address holds: the one listed, or the free launch byte (R49). -/
def State.byteAt (s : State) (a : Nat) : Byte := (Memory.get s.mem a).getD (Config.launchByte a)

/-- Store one byte. -/
def State.setByte (s : State) (a : Nat) (b : Byte) : State := { s with mem := Memory.set s.mem a b }

/-- Place bytes at an address and the following ones, modulo 2^32 (D18). -/
def placeBytes : List Byte → Word → State → State
  | [], _, s => s
  | b :: bs, a, s => placeBytes bs (a + 1) (s.setByte a.toNat b)

/-! ### Address ranges (R47, R49, R55) -/

/-- The range of `MEM` an address stands in. -/
def kindAt (p : Params) (a : Nat) : Option RegionKind :=
  (p.regions.find? fun r => decide (r.base ≤ a) && decide (a < r.base + r.len)).map Region.kind

/-- The address stands in `LAUNCH.code` (R55). -/
def inCode (p : Params) (a : Nat) : Bool :=
  p.code.any fun c => decide (c.base ≤ a) && decide (a < c.base + c.len)

/-- The address stands in a `device` range. -/
def isDevice (p : Params) (a : Nat) : Bool := kindAt p a == some .device

/-! ### Bytes of an access (R40, R44) -/

/-- The addresses of an `n`-byte access in ascending order, modulo 2^32 (D18). -/
def byteAddrs (a : Word) : Nat → List Word
  | 0 => []
  | n + 1 => a :: byteAddrs (a + 1) n

/-- Bytes in address order as an unsigned number: the first is the most significant (R40). -/
def beValue (bs : List Byte) : Word := bs.foldl (fun acc b => (acc <<< 8) ||| b.setWidth 32) 0

/-- The low `n` bytes of a value in address order (R40). -/
def beBytes (v : Word) : Nat → List Byte
  | 0 => []
  | n + 1 => (v >>> (8 * n)).setWidth 8 :: beBytes v n

/-- The address is a multiple of the access size. -/
def aligned (a : Word) (n : Nat) : Bool := a.toNat % n == 0

/-! ### Single accesses (R46, R47) -/

/-- Why a fetch or a read of these addresses is not made: the first byte outside every range (R49, R201). -/
def readFault (p : Params) (k : Access) (as : List Word) : Option Cause :=
  (as.find? fun x => (kindAt p x.toNat).isNone).map fun x => .accessError x k false

/-- Why a store to one byte is not made: outside every range or in `rom` (R47, R49), else in the program text (R55;
assumption 16). -/
def byteWriteStop (p : Params) (x : Word) : Option Stop :=
  match kindAt p x.toNat with
  | none => some (.cause (.accessError x .write false))
  | some .rom => some (.cause (.accessError x .write true))
  | some _ => if inCode p x.toNat then some (.refusal .storeToCode) else none

/-- Why a store to these addresses is not made: the lowest byte that stops it. The spec does not order StoreToCode
against AccessError where one byte of an aligned store stands in `LAUNCH.code` and another in rom or outside `MEM`
(R206 step 6 orders the bytes of a split access); DESIGN CHOICE, safe, assumption 36. -/
def writeStop (p : Params) (as : List Word) : Option Stop := as.findSome? (byteWriteStop p)

/-- Read one byte: a fresh free value from a device, the byte held elsewhere (R47). -/
def readByte (x : Word) (s : State) : Byte × State :=
  if isDevice s.params x.toNat then (Config.deviceByte s.draws, s.bump) else (s.byteAt x.toNat, s)

/-- Read bytes in ascending order. -/
def readBytes : List Word → State → List Byte × State
  | [], s => ([], s)
  | x :: xs, s => ((readByte x s).1 :: (readBytes xs (readByte x s).2).1, (readBytes xs (readByte x s).2).2)

/-- Store bytes; a byte sent to a device is not held (R47: the access is recorded and has no other effect). -/
def writeBytes : List (Word × Byte) → State → State
  | [], s => s
  | (x, b) :: rest, s => writeBytes rest (if isDevice s.params x.toNat then s else s.setByte x.toNat b)

/-- Record an access, if a byte of it stands in a device range (R47; assumption 18). -/
def State.record (s : State) (k : Access) (a : Word) (n : Nat) (v : Word) : State :=
  if (byteAddrs a n).any fun x => isDevice s.params x.toNat then
    { s with deviceLog := s.deviceLog ++ [⟨k, a, n, v⟩] }
  else s

/-- The value and state of one read access that is made. -/
def readValue (k : Access) (a : Word) (n : Nat) (s : State) : Word × State :=
  let r := readBytes (byteAddrs a n) s
  (beValue r.1, r.2.record k a n (beValue r.1))

/-- One fetch or read access: all its bytes at once (R46). -/
def readUnit (k : Access) (a : Word) (n : Nat) (s : State) : Res Word :=
  match readFault s.params k (byteAddrs a n) with
  | some c => .raise c s
  | none => .ok (readValue k a n s).1 (readValue k a n s).2

/-- One write access: all its bytes at once (R46). -/
def writeUnit (a : Word) (n : Nat) (v : Word) (s : State) : Res Unit :=
  match writeStop s.params (byteAddrs a n) with
  | some st => st.toRes s
  | none =>
    .ok () ((writeBytes ((byteAddrs a n).zip (beBytes v n)) s).record .write a n (v &&& (1#32 <<< (8 * n)) - 1#32))

/-! ### Data accesses (R44) -/

/-- A misaligned read: one byte access after another, in ascending order (R44). -/
def readSplit : Nat → Word → Word → State → Res Word
  | 0, _, acc, s => .ok acc s
  | n + 1, a, acc, s => (readUnit .read a 1 s).bind fun b s' => readSplit n (a + 1) ((acc <<< 8) ||| b) s'

/-- A misaligned write: one byte access after another, in ascending order (R44). -/
def writeSplit : List Byte → Word → State → Res Unit
  | [], _, s => .ok () s
  | b :: bs, a, s => (writeUnit a 1 (b.setWidth 32) s).bind fun _ s' => writeSplit bs (a + 1) s'

/-- `MemRead(a, n)` (R9, R40, R44). Where a misaligned access is an error, that error comes before the memory map's, an
order the spec does not give: DESIGN CHOICE, safe, assumption 38. -/
def memRead (a : Word) (n : Nat) (s : State) : Res Word :=
  if aligned a n then readUnit .read a n s
  else
    match s.params.misaligned with
    | .split => readSplit n a 0 s
    | .fault => .raise (.addressError a (.data .read)) s

/-- `MemWrite(a, n, v)` (R9, R40, R44). Where a misaligned access is an error, AddressError (R44) comes before AccessError
(R47, R49) and before the refusal StoreToCode (R55, R244); the spec orders neither (R206): DESIGN CHOICE, safe,
assumption 38. -/
def memWrite (a : Word) (n : Nat) (v : Word) (s : State) : Res Unit :=
  if aligned a n then writeUnit a n v s
  else
    match s.params.misaligned with
    | .split => writeSplit (beBytes v n) a s
    | .fault => .raise (.addressError a (.data .write)) s

/-! ### Taking an exception (R200, R214 to R217) -/

/-- The vector number of a cause (R201, R215). -/
def Cause.vector : Cause → Byte
  | .accessError _ _ _ => 2
  | .addressError _ _ => 3
  | .privilegeViolation => 8
  | .formatError => 14

/-- The fault status field of a cause (R216); an index word's address error is not in its list (assumptions 10, 11). -/
def Cause.faultStatus : Cause → BitVec 4
  | .accessError _ .fetch _ => 0b0100
  | .accessError _ .read _ => 0b1100
  | .accessError _ .write rom => if rom then 0b1001 else 0b1000
  | .addressError _ .oddPc => 0b0100
  | .addressError _ .index => Config.indexFaultStatus
  | .addressError _ (.data .fetch) => 0b0100
  | .addressError _ (.data .read) => 0b1100
  | .addressError _ (.data .write) => 0b1000
  | .privilegeViolation => 0
  | .formatError => 0

/-- An error in whose entry a further error is a fault-on-fault (R217). -/
def Cause.isAccessOrAddress : Cause → Bool
  | .accessError _ _ _ | .addressError _ _ => true
  | _ => false

/-- The first longword of an exception frame: format, fs[3:2], vector, fs[1:0], status register (R214). -/
def frameWord (sp0 : Word) (fs : BitVec 4) (v : Byte) (sr0 : Half) : Word :=
  (4#4 + (sp0.extractLsb' 0 2).setWidth 4) ++ fs.extractLsb' 2 2 ++ v ++ fs.extractLsb' 0 2 ++ sr0

/-- The address of an exception frame (R214). -/
def frameAddr (sp0 : Word) : Word := (sp0 - 8) &&& 0xFFFFFFFC

/-- The status register's high byte on entry: supervisor, trace off; for an interrupt of level L, M cleared and I = L
(R214). -/
def entrySr (h : SrHigh) (irq : Option (BitVec 3)) : SrHigh :=
  match irq with
  | none => { h with s := true, t := false }
  | some l => { h with s := true, t := false, m := false, i := l }

/-- Exception entry, R214's pseudocode: the frame of two longwords, A7, and the pc from the vector table. -/
def enter (v : Byte) (fs : BitVec 4) (pcx : Word) (irq : Option (BitVec 3)) (s : State) : Res Unit :=
  let sp0 := s.getA .sp
  let sp1 := frameAddr sp0
  (memWrite sp1 4 (frameWord sp0 fs v s.srWord) (s.setSr (entrySr s.sr irq))).bind fun _ s1 =>
  (memWrite (sp1 + 4) 4 pcx s1).bind fun _ s2 =>
  (memRead (s2.vbrBase + 4 * v.setWidth 32) 4 (s2.setA .sp sp1)).bind fun t s3 =>
  .ok () (s3.setPc t)

/-- The halt of a fault-on-fault (R217). -/
def State.haltOnFault (s : State) : State := { s with status := .faultOnFault }

/-- Exception entry with R217's fault-on-fault: an error raised while entering an access error, an address error or
reset (`critical`) halts the processor; an error raised while entering any other exception is itself entered. -/
def enterOrHalt (critical : Bool) (v : Byte) (fs : BitVec 4) (pcx : Word) (irq : Option (BitVec 3)) (s : State) :
    Host.Outcome State Fault Refusal :=
  match enter v fs pcx irq s with
  | .ok _ s' => .next s'
  | .refuse r => .refused r
  | .raise c s' =>
    if critical then .next s'.haltOnFault
    else
      match enter c.vector c.faultStatus pcx none s' with
      | .ok _ s'' => .next s''
      | .refuse r => .refused r
      | .raise _ s'' => .next s''.haltOnFault

/-- TAKING AN EXCEPTION, the one operation every `raise` ends in. Under `TRAP_MODEL` = terminal the run ends with the
record (cause, info, pc), which the faulted state carries (R200, R207); under vectored it is the entry of R214, `pcx`
being the faulting instruction's operation word. `s.pc` is that address: no instruction writes pc before it raises. -/
def takeException (c : Cause) (s : State) : Host.Outcome State Fault Refusal :=
  match s.params.trapModel with
  | .terminal => .fault (.exception ⟨c, s.pc⟩ { s with faultRecord := some ⟨c, s.pc⟩ })
  | .vectored => enterOrHalt c.isAccessOrAddress c.vector c.faultStatus s.pc none s

/-- The end of an instruction: the next state, the exception taken, or the refusal (R11). -/
def deliver (r : Res Unit) : Host.Outcome State Fault Refusal :=
  match r with
  | .ok _ s => .next s
  | .raise c s => takeException c s
  | .refuse e => .refused e

/-- End an instruction of `words` words that writes no pc: `pc <- pc + 2*len` (R9, R24). -/
def finish (words : Nat) (r : Res Unit) : Host.Outcome State Fault Refusal :=
  deliver (r.bind fun _ s => .ok () (s.setPc (s.pc + BitVec.ofNat 32 (2 * words))))

/-! ### Operations no instruction of the table reaches (assumptions 26 to 28) -/

/-- Return from exception, the effect R217 gives RTE: privileged; the frame at A7, its format 4 to 7, then SR, pc and
A7. -/
def returnFromException (s : State) : Res Unit :=
  if s.sr.s = false then .raise .privilegeViolation s
  else
    let sp := s.getA .sp
    (memRead sp 4 s).bind fun f s1 =>
    (memRead (sp + 4) 4 s1).bind fun p s2 =>
    if f.getLsbD 31 = false ∧ f.getLsbD 30 = true then
      .ok () (((s2.setSrWord (f.extractLsb' 0 16)).setPc p).setA .sp (sp + 8 + (f.extractLsb' 28 2).setWidth 32))
    else .raise .formatError s2

/-- A request of level L is taken when L > I, and level 7 always (R205). -/
def interruptTaken (level : BitVec 3) (s : State) : Bool := decide (s.sr.i < level) || level == 7

/-- Take an interrupt of a level, with the vector number the controller supplies: R205, R214. The saved pc is the next
instruction's. -/
def takeInterrupt (level : BitVec 3) (v : Byte) (s : State) : Host.Outcome State Fault Refusal :=
  if s.status = .running ∧ interruptTaken level s = true then enterOrHalt false v 0 s.pc (some level) s else .next s

/-- The chip's reset sequence (R241): SR = 0x27xx with the flags undefined, VBR = 0, A7 and pc from the longwords at 0
and 4; D0 and D1 are words some parts load, the other registers and memory are kept; an error while it reads is a
fault-on-fault (R217), in whose state A7 and pc are as before the reset: R241 does not say whether A7 is loaded before
the longword at 4 is read (DESIGN CHOICE, safe, assumption 37). -/
def chipReset (s : State) : State :=
  let n := s.draws
  let s0 : State :=
    { s with
      ccr := ⟨Config.unspecifiedFlag n, Config.unspecifiedFlag (n + 1), Config.unspecifiedFlag (n + 2),
        Config.unspecifiedFlag (n + 3), Config.unspecifiedFlag (n + 4)⟩
      sr := ⟨false, true, false, 7⟩
      vbr := 0
      status := .running
      faultRecord := none
      draws := n + 7 }
  let s1 := (s0.setD ⟨0⟩ (Config.unspecifiedWord (n + 5))).setD ⟨1⟩ (Config.unspecifiedWord (n + 6))
  match (memRead 0 4 s1).bind fun sp s2 => (memRead 4 4 s2).bind fun p s3 => .ok () ((s3.setA .sp sp).setPc p) with
  | .ok _ s' => s'
  | .raise _ s' => s'.haltOnFault
  | .refuse _ => s1.haltOnFault

end Sys2Proof.Machine
end

