-- ==== Sys2Proof/Machine/Operands.lean ====
section
/-! DEFINITION. Operands: the twelve addressing modes, resolving an effective address, reading and writing an operand
(40_addressing_modes.md R100 to R120, 10_state.md R28). -/

namespace Sys2Proof.Machine

/-- An operand (R100). -/
inductive Operand where
  | dreg (n : DReg)
  | areg (n : AReg)
  | mem (a : Word)
  | imm (v : Word)
deriving DecidableEq, Repr

/-! ### Sizes (R8, R28) -/

/-- The low `bits(sz)` bits of a longword, as an unsigned number. -/
def trunc (sz : Size) (v : Word) : Word :=
  match sz with
  | .b => (v.setWidth 8).setWidth 32
  | .w => (v.setWidth 16).setWidth 32
  | .l => v

/-- `old` with its low `bits(sz)` bits replaced (R28). -/
def merge (sz : Size) (old v : Word) : Word :=
  match sz with
  | .b => old.extractLsb' 8 24 ++ v.setWidth 8
  | .w => old.extractLsb' 16 16 ++ v.setWidth 16
  | .l => v

/-- `sext_32` of a value of size `sz` (R9, R152). -/
def sext (sz : Size) (v : Word) : Word :=
  match sz with
  | .b => (v.setWidth 8).signExtend 32
  | .w => (v.setWidth 16).signExtend 32
  | .l => v

/-! ### The index (R114) -/

/-- What stops an index word standing at `x`, in R114's order: bit 8, W/L, Scale. -/
def indexStop (p : Params) (e : IndexWord) (x : Word) : Option Stop :=
  if e.reserved then some (.refusal (.encoding .reservedExtensionWord))
  else if e.long = false then some (.cause (.addressError x .index))
  else if e.scale = 3 ∧ p.hasFpu = false then some (.cause (.addressError x .index))
  else none

/-- `Index(e)`: all 32 bits of Xi, times 1, 2, 4 or 8, modulo 2^32 (R114). -/
def indexValue (e : IndexWord) (s : State) : Word := s.getR e.xi <<< e.scale.toNat

/-! ### Resolving an effective address (R101) -/

/-- What stops the resolution of an effective address whose extension words stand at `x`. -/
def eaStop (p : Params) (ea : Ea) (x : Word) : Option Stop :=
  match ea with
  | .index e _ | .pcIndex e => indexStop p e x
  | _ => none

/-- The effective address of a memory operand (R104 to R110, R112, R113); `x` is the address of the operand's first
extension word, which is also the value "(PC)" (R25). -/
def effAddr (ea : Ea) (sz : Size) (x : Word) (s : State) : Word :=
  match ea with
  | .ind n => s.getA n
  | .postinc n => s.getA n
  | .predec n => s.getA n - BitVec.ofNat 32 sz.bytes
  | .disp d n => s.getA n + d.signExtend 32
  | .index e n => s.getA n + indexValue e s + e.disp.signExtend 32
  | .absW a => a.signExtend 32
  | .absL a => a
  | .pcDisp d => x + d.signExtend 32
  | .pcIndex e => x + indexValue e s + e.disp.signExtend 32
  | .dreg _ | .areg _ | .imm _ => 0

/-- The operand an effective address names (R100, R102 to R113). -/
def operandOf (ea : Ea) (sz : Size) (x : Word) (s : State) : Operand :=
  match ea with
  | .dreg n => .dreg n
  | .areg n => .areg n
  | .imm v => .imm (trunc sz v)
  | _ => .mem (effAddr ea sz x s)

/-- The side effect of (An)+ and -(An) on the address register (R105, R106). -/
def stepEa (ea : Ea) (sz : Size) (s : State) : State :=
  match ea with
  | .postinc n => s.setA n (s.getA n + BitVec.ofNat 32 sz.bytes)
  | .predec n => s.setA n (s.getA n - BitVec.ofNat 32 sz.bytes)
  | _ => s

/-- The address register an effective address steps. -/
def steppedReg : Ea → Option AReg
  | .postinc n | .predec n => some n
  | _ => none

/-- `Resolve` (R101): the checks of the extension word, then the operand and the side effect. -/
def resolve (ea : Ea) (sz : Size) (x : Word) (s : State) : Res Operand :=
  match eaStop s.params ea x with
  | some st => st.toRes s
  | none => .ok (operandOf ea sz x s) (stepEa ea sz s)

/-- If an exception is raised after an address register was stepped, the register holds an unspecified value (R130,
U9; assumption 8). -/
def forgetStepped {α : Type} (n : Option AReg) (r : Res α) : Res α :=
  match n, r with
  | some n, .raise c s => .raise c (s.setA n (Config.unspecifiedWord s.draws)).bump
  | _, r => r

/-- Resolve an effective address, once (R118), and go on with its operand. -/
def withOperand {α : Type} (ea : Ea) (sz : Size) (x : Word) (s : State) (k : Operand → State → Res α) : Res α :=
  (resolve ea sz x s).bind fun op s' => forgetStepped (steppedReg ea) (k op s')

/-! ### Reading and writing an operand (R117) -/

/-- `ReadOp` (R117). -/
def readOp (op : Operand) (sz : Size) (s : State) : Res Word :=
  match op with
  | .dreg n => .ok (trunc sz (s.getD n)) s
  | .areg n => .ok (trunc sz (s.getA n)) s
  | .mem a => memRead a sz.bytes s
  | .imm v => .ok v s

/-- `WriteOp` (R117). A constant is never a destination: a meaning given one refuses it as not specified (R80). -/
def writeOp (op : Operand) (sz : Size) (v : Word) (s : State) : Res Unit :=
  match op with
  | .dreg n => .ok () (s.setD n (merge sz (s.getD n) v))
  | .areg n => .ok () (s.setA n v)
  | .mem a => memWrite a sz.bytes v s
  | .imm _ => .refuse (.encoding .notSpecified)

/-- `EffAddr` (R117): the address of a memory operand; another operand is not specified (R80). -/
def operandAddr (op : Operand) (s : State) : Res Word :=
  match op with
  | .mem a => .ok a s
  | _ => .refuse (.encoding .notSpecified)

/-- The address of an instruction's first extension word: `pc + 2` (R25). -/
def State.ext (s : State) : Word := s.pc + 2

end Sys2Proof.Machine
end

