-- ==== Sys2Proof/Machine/Flags.lean ====
section
/-! DEFINITION. Arithmetic and the flags: AddC and SubB (00_scope.md R10), the flag rules of R27 and of the instruction
files, the shift of R172, the conditions of R181. -/

namespace Sys2Proof.Machine

/-- A result with its carry or borrow and its overflow (R10). -/
structure Alu where
  res : Word
  carry : Bool
  overflow : Bool
deriving DecidableEq, Repr

/-- `AddC(s, d, x)`: the unbounded sum narrowed to 32 bits (R10). -/
def addC (s d : Word) (x : Bool) : Alu :=
  let u := s.toNat + d.toNat + x.toNat
  let r := BitVec.ofNat 32 u
  ⟨r, decide (2 ^ 32 ≤ u), s.msb == d.msb && r.msb != d.msb⟩

/-- `SubB(s, d, x)` computes d - s - x (R10). -/
def subB (s d : Word) (x : Bool) : Alu :=
  let r := d - s - BitVec.ofNat 32 x.toNat
  ⟨r, decide (d.toNat < s.toNat + x.toNat), s.msb != d.msb && r.msb != d.msb⟩

/-- The flags of ADD, ADDI and SUB: X and C from the carry or borrow, N and Z from the result, V from the overflow
(R132, R134, R135). -/
def ccrArith (r : Alu) : Ccr := ⟨r.carry, r.res.msb, r.res == 0, r.overflow, r.carry⟩

/-- The flags of ADDX: as ADD, but a zero result leaves Z (R131). -/
def ccrAddx (old : Ccr) (r : Alu) : Ccr :=
  ⟨r.carry, r.res.msb, if r.res = 0 then old.z else false, r.overflow, r.carry⟩

/-- The flags of CMPA: as SUB, but X is unchanged (R136). -/
def ccrCompare (old : Ccr) (r : Alu) : Ccr := ⟨old.x, r.res.msb, r.res == 0, r.overflow, r.carry⟩

/-- The sign bit of a value of size `sz`. -/
def signBit (sz : Size) (v : Word) : Bool := v.getLsbD (sz.bits - 1)

/-- The flags of MOVE, MOVEQ, AND and CLR: N and Z from the value at its size, V = C = 0, X unchanged (R150, R151,
R153, R157, R171). -/
def ccrLogic (old : Ccr) (sz : Size) (v : Word) : Ccr := ⟨old.x, signBit sz v, v == 0, false, false⟩

/-- ASR's result for a count below 64: the sign bit fills the vacated bits (R172). -/
def asrResult (v : Word) (n : Nat) : Word :=
  if n < 32 then v.sshiftRight n else if v.msb then 0xFFFFFFFF else 0

/-- The last bit ASR shifts out, for a count that is not 0 (R172). -/
def asrLast (v : Word) (n : Nat) : Bool := if n < 32 then v.getLsbD (n - 1) else v.msb

/-- The flags of ASR: X and C the last bit out, or C = 0 and X unchanged for a count of 0; N, Z from the result; V = 0
(R172). -/
def ccrShift (old : Ccr) (v : Word) (n : Nat) : Ccr :=
  let r := asrResult v n
  if n = 0 then ⟨old.x, r.msb, r == 0, false, false⟩
  else ⟨asrLast v n, r.msb, r == 0, false, asrLast v n⟩

/-- The flags of BSET: Z is the complement of the bit tested, the others are unchanged (R173). -/
def ccrBitTest (old : Ccr) (bit : Bool) : Ccr := { old with z := !bit }

/-! ### Conditions (R181) -/

/-- The fourteen conditions of Bcc. -/
inductive Cond where
  | hi | ls | cc | cs | ne | eq | vc | vs | pl | mi | ge | lt | gt | le
deriving DecidableEq, Repr

/-- The condition table of R181. -/
def Cond.holds (f : Ccr) : Cond → Bool
  | .hi => !f.c && !f.z
  | .ls => f.c || f.z
  | .cc => !f.c
  | .cs => f.c
  | .ne => !f.z
  | .eq => f.z
  | .vc => !f.v
  | .vs => f.v
  | .pl => !f.n
  | .mi => f.n
  | .ge => f.n == f.v
  | .lt => f.n != f.v
  | .gt => !f.z && f.n == f.v
  | .le => f.z || f.n != f.v

end Sys2Proof.Machine
end

