-- ==== Sys2Proof/Machine/Arith.lean ====
section
/-! DEFINITION. Integer arithmetic: ADDX, ADD, ADDA, ADDI, SUB, CMPA (41_arithmetic.md R130 to R136). -/

namespace Sys2Proof.Machine

/-- The form `<ea>y op Dx → Dx` of ADD, SUB and AND: resolve and read the source, then Dx and the flags (R132). -/
def aluToD (f : Word → Word → Word) (flags : Ccr → Word → Word → Ccr) (ea : Ea) (dx : DReg) (s : State) : Res Unit :=
  withOperand ea .l s.ext s fun op s1 =>
  (readOp op .l s1).bind fun v s2 =>
  .ok () ((s2.setD dx (f v (s2.getD dx))).setCcr (flags s2.ccr v (s2.getD dx)))

/-- The form `Dy op <ea>x → <ea>x` of ADD, SUB and AND: the destination is resolved once, read, and written at the same
address; the flags follow the write (R118, R132). -/
def aluToEa (f : Word → Word → Word) (flags : Ccr → Word → Word → Ccr) (dy : DReg) (ea : Ea) (s : State) : Res Unit :=
  withOperand ea .l s.ext s fun op s1 =>
  (readOp op .l s1).bind fun v s2 =>
  (writeOp op .l (f (s2.getD dy) v) s2).bind fun _ s3 =>
  .ok () (s3.setCcr (flags s2.ccr (s2.getD dy) v))

/-- Source plus destination. -/
def addRes (s d : Word) : Word := (addC s d false).res

/-- Destination minus source. -/
def subRes (s d : Word) : Word := (subB s d false).res

/-- Flags of ADD (R132). -/
def addFlags (_ : Ccr) (s d : Word) : Ccr := ccrArith (addC s d false)

/-- Flags of SUB (R135). -/
def subFlags (_ : Ccr) (s d : Word) : Ccr := ccrArith (subB s d false)

/-- ADDX.L Dy,Dx (R131). -/
def execAddx (dy dx : DReg) (s : State) : Host.Outcome State Fault Refusal :=
  let r := addC (s.getD dy) (s.getD dx) s.ccr.x
  finish 1 (.ok () ((s.setD dx r.res).setCcr (ccrAddx s.ccr r)))

/-- ADD.L ea,Dx (R132). -/
def execAddToD (ea : Ea) (dx : DReg) (s : State) : Host.Outcome State Fault Refusal :=
  finish (Instr.addToD ea dx).words (aluToD addRes addFlags ea dx s)

/-- ADD.L Dy,ea (R132). -/
def execAddToEa (dy : DReg) (ea : Ea) (s : State) : Host.Outcome State Fault Refusal :=
  finish (Instr.addToEa dy ea).words (aluToEa addRes addFlags dy ea s)

/-- ADDA.L ea,Ax: Ax is read after the source is resolved; no flag changes (R133). -/
def execAdda (ea : Ea) (ax : AReg) (s : State) : Host.Outcome State Fault Refusal :=
  finish (Instr.adda ea ax).words <|
    withOperand ea .l s.ext s fun op s1 =>
    (readOp op .l s1).bind fun v s2 => .ok () (s2.setA ax (s2.getA ax + v))

/-- ADDI.L #data,Dx (R134). -/
def execAddi (data : Word) (dx : DReg) (s : State) : Host.Outcome State Fault Refusal :=
  let r := addC data (s.getD dx) false
  finish 3 (.ok () ((s.setD dx r.res).setCcr (ccrArith r)))

/-- SUB.L ea,Dx (R135). -/
def execSubToD (ea : Ea) (dx : DReg) (s : State) : Host.Outcome State Fault Refusal :=
  finish (Instr.subToD ea dx).words (aluToD subRes subFlags ea dx s)

/-- SUB.L Dy,ea (R135). -/
def execSubToEa (dy : DReg) (ea : Ea) (s : State) : Host.Outcome State Fault Refusal :=
  finish (Instr.subToEa dy ea).words (aluToEa subRes subFlags dy ea s)

/-- CMPA.L ea,Ax: the flags of Ax - source; Ax is not written (R136). -/
def execCmpa (ea : Ea) (ax : AReg) (s : State) : Host.Outcome State Fault Refusal :=
  finish (Instr.cmpa ea ax).words <|
    withOperand ea .l s.ext s fun op s1 =>
    (readOp op .l s1).bind fun v s2 => .ok () (s2.setCcr (ccrCompare s2.ccr (subB v (s2.getA ax) false)))

end Sys2Proof.Machine
end

