-- ==== Sys2Proof/Machine/Control.lean ====
section
/-! DEFINITION. Control transfer and HALT: Bcc, BRA, BSR, RTS, HALT (44_control.md R180 to R186). -/

namespace Sys2Proof.Machine

/-- The sign-extended displacement of a branch (R181). -/
def branchValue : BranchDisp → Word
  | .short d => d.signExtend 32
  | .word d => d.signExtend 32

/-- The target of a branch: the base is the address after the operation word (R181). -/
def branchTarget (disp : BranchDisp) (s : State) : Word := s.pc + 2 + branchValue disp

/-- The address of the instruction after a branch (R181). -/
def branchNext (disp : BranchDisp) (s : State) : Word := s.pc + BitVec.ofNat 32 (2 * (1 + disp.words))

/-- Branch where the condition holds; the target is not checked here (R180, R181). -/
def branchIf (taken : Bool) (disp : BranchDisp) (s : State) : Host.Outcome State Fault Refusal :=
  deliver (.ok () (s.setPc (if taken then branchTarget disp s else branchNext disp s)))

/-- BRA (R182). -/
def execBra (disp : BranchDisp) (s : State) : Host.Outcome State Fault Refusal :=
  branchIf true disp s

/-- BSR: SP - 4, the return address on the stack, then the target; where the push raises an exception pc is not
changed (R184). -/
def execBsr (disp : BranchDisp) (s : State) : Host.Outcome State Fault Refusal :=
  deliver <|
    (memWrite (s.getA .sp - 4) 4 (branchNext disp s) (s.setA .sp (s.getA .sp - 4))).bind fun _ s1 =>
    .ok () (s1.setPc (branchTarget disp s))

/-- BHI, condition 0010 (R181). -/
def execBhi (disp : BranchDisp) (s : State) : Host.Outcome State Fault Refusal :=
  branchIf (Cond.hi.holds s.ccr) disp s

/-- BLS, condition 0011 (R181). -/
def execBls (disp : BranchDisp) (s : State) : Host.Outcome State Fault Refusal :=
  branchIf (Cond.ls.holds s.ccr) disp s

/-- BCC, condition 0100 (R181). -/
def execBcc (disp : BranchDisp) (s : State) : Host.Outcome State Fault Refusal :=
  branchIf (Cond.cc.holds s.ccr) disp s

/-- BCS, condition 0101 (R181). -/
def execBcs (disp : BranchDisp) (s : State) : Host.Outcome State Fault Refusal :=
  branchIf (Cond.cs.holds s.ccr) disp s

/-- BNE, condition 0110 (R181). -/
def execBne (disp : BranchDisp) (s : State) : Host.Outcome State Fault Refusal :=
  branchIf (Cond.ne.holds s.ccr) disp s

/-- BEQ, condition 0111 (R181). -/
def execBeq (disp : BranchDisp) (s : State) : Host.Outcome State Fault Refusal :=
  branchIf (Cond.eq.holds s.ccr) disp s

/-- BVC, condition 1000 (R181). -/
def execBvc (disp : BranchDisp) (s : State) : Host.Outcome State Fault Refusal :=
  branchIf (Cond.vc.holds s.ccr) disp s

/-- BVS, condition 1001 (R181). -/
def execBvs (disp : BranchDisp) (s : State) : Host.Outcome State Fault Refusal :=
  branchIf (Cond.vs.holds s.ccr) disp s

/-- BPL, condition 1010 (R181). -/
def execBpl (disp : BranchDisp) (s : State) : Host.Outcome State Fault Refusal :=
  branchIf (Cond.pl.holds s.ccr) disp s

/-- BMI, condition 1011 (R181). -/
def execBmi (disp : BranchDisp) (s : State) : Host.Outcome State Fault Refusal :=
  branchIf (Cond.mi.holds s.ccr) disp s

/-- BGE, condition 1100 (R181). -/
def execBge (disp : BranchDisp) (s : State) : Host.Outcome State Fault Refusal :=
  branchIf (Cond.ge.holds s.ccr) disp s

/-- BLT, condition 1101 (R181). -/
def execBlt (disp : BranchDisp) (s : State) : Host.Outcome State Fault Refusal :=
  branchIf (Cond.lt.holds s.ccr) disp s

/-- BGT, condition 1110 (R181). -/
def execBgt (disp : BranchDisp) (s : State) : Host.Outcome State Fault Refusal :=
  branchIf (Cond.gt.holds s.ccr) disp s

/-- BLE, condition 1111 (R181). -/
def execBle (disp : BranchDisp) (s : State) : Host.Outcome State Fault Refusal :=
  branchIf (Cond.le.holds s.ccr) disp s

/-- RTS: the longword on top of the stack becomes pc (R185). -/
def execRts (s : State) : Host.Outcome State Fault Refusal :=
  deliver <|
    (memRead (s.getA .sp) 4 s).bind fun t s1 => .ok () ((s1.setA .sp (s1.getA .sp + 4)).setPc t)

/-- HALT: in supervisor mode, or where the debug control bit allows it, the machine is halted with pc at the HALT word
and nothing else changed; in user mode it is a privilege violation (R186; assumptions 14, 15). -/
def execHalt (s : State) : Host.Outcome State Fault Refusal :=
  deliver <|
    if s.sr.s || s.params.userHalt then .ok () { s with status := .halted }
    else .raise .privilegeViolation s

end Sys2Proof.Machine
end

