-- ==== Sys2Proof/Machine/Logic.lean ====
section
/-! DEFINITION. Logic, shift and bit instructions: AND, ASR, BSET (43_logic_shift_bit.md R170 to R173). -/

namespace Sys2Proof.Machine

/-- Source and destination, bit by bit. -/
def andRes (s d : Word) : Word := s &&& d

/-- Flags of AND (R171). -/
def andFlags (old : Ccr) (s d : Word) : Ccr := ccrLogic old .l (s &&& d)

/-- AND.L ea,Dx (R171). -/
def execAndToD (ea : Ea) (dx : DReg) (s : State) : Host.Outcome State Fault Refusal :=
  finish (Instr.andToD ea dx).words (aluToD andRes andFlags ea dx s)

/-- AND.L Dy,ea (R171). -/
def execAndToEa (dy : DReg) (ea : Ea) (s : State) : Host.Outcome State Fault Refusal :=
  finish (Instr.andToEa dy ea).words (aluToEa andRes andFlags dy ea s)

/-- The constant count of ASR: 1 to 7, and 0 stands for 8 (R172). -/
def asrCount (count : BitVec 3) : Nat := if count = 0 then 8 else count.toNat

/-- Shift Dx right by a count below 64 (R172). -/
def asrBody (n : Nat) (dx : DReg) (s : State) : Res Unit :=
  .ok () ((s.setD dx (asrResult (s.getD dx) n)).setCcr (ccrShift s.ccr (s.getD dx) n))

/-- ASR.L #count,Dx (R172). -/
def execAsrImm (count : BitVec 3) (dx : DReg) (s : State) : Host.Outcome State Fault Refusal :=
  finish 1 (asrBody (asrCount count) dx s)

/-- ASR.L Dy,Dx: the count is Dy modulo 64, read before the result is written (R172). -/
def execAsrReg (dy dx : DReg) (s : State) : Host.Outcome State Fault Refusal :=
  finish 1 (asrBody ((s.getD dy).toNat % 64) dx s)

/-- Test a bit and set it: a longword's bit `b mod 32` in a data register, a byte's bit `b mod 8` in memory; the
extension words of the destination stand at `x` (R173). The flag follows the write (R208, assumption 22). -/
def bsetBody (b : Nat) (ea : Ea) (x : Word) (s : State) : Res Unit :=
  match ea with
  | .dreg n =>
    .ok () ((s.setD n (s.getD n ||| (1#32 <<< (b % 32)))).setCcr (ccrBitTest s.ccr ((s.getD n).getLsbD (b % 32))))
  | _ =>
    withOperand ea .b x s fun op s1 =>
    (readOp op .b s1).bind fun v s2 =>
    (writeOp op .b (v ||| (1#32 <<< (b % 8))) s2).bind fun _ s3 =>
    .ok () (s3.setCcr (ccrBitTest s3.ccr (v.getLsbD (b % 8))))

/-- BSET #num,ea (R173). -/
def execBsetImm (num : Half) (ea : Ea) (s : State) : Host.Outcome State Fault Refusal :=
  finish (Instr.bsetImm num ea).words (bsetBody (num.setWidth 8).toNat ea (s.ext + 2) s)

/-- BSET Dy,ea (R173). -/
def execBsetReg (dy : DReg) (ea : Ea) (s : State) : Host.Outcome State Fault Refusal :=
  finish (Instr.bsetReg dy ea).words (bsetBody (s.getD dy).toNat ea s.ext s)

end Sys2Proof.Machine
end

