-- ==== Sys2Proof/Machine/Move.lean ====
section
/-! DEFINITION. Data movement: MOVE, MOVEA, MOVEQ, MOVEM, LEA, CLR (42_move.md R150 to R157). -/

namespace Sys2Proof.Machine

/-- MOVE An,(An)+ and MOVE An,-(An) with one register (R120). -/
def baseIsAlsoData (src dst : Ea) : Bool :=
  match src, dst with
  | .areg n, .postinc m => n == m
  | .areg n, .predec m => n == m
  | _, _ => false

/-- MOVE's first half: the source is resolved, with its side effect, and read (R119). -/
def moveSource {α : Type} (sz : Size) (src : Ea) (s : State) (k : Word → State → Res α) : Res α :=
  withOperand src sz s.ext s fun op s1 => (readOp op sz s1).bind k

/-- MOVE: the source first, then the destination is resolved, with its side effect, and written; the flags follow the
write (R119, R151). `getDst` gives the destination once the source is read: in `exec` it is the instruction's own
operand, in a step it fetches the destination's extension words, in R206's order (`fetchDst`). -/
def moveBody (sz : Size) (src dst : Ea) (getDst : State → Res Ea) (s : State) : Res Unit :=
  if baseIsAlsoData src dst then .refuse .baseIsAlsoData
  else
    moveSource sz src s fun v s1 =>
    (getDst s1).bind fun ea s2 =>
    withOperand ea sz (s2.ext + BitVec.ofNat 32 (2 * src.words sz)) s2 fun op s3 =>
    (writeOp op sz v s3).bind fun _ s4 => .ok () (s4.setCcr (ccrLogic s4.ccr sz v))

/-- MOVEA.sz ea,Ax: a word source is sign-extended; no flag changes (R152). -/
def execMovea (sz : Size) (ea : Ea) (ax : AReg) (s : State) : Host.Outcome State Fault Refusal :=
  finish (Instr.movea sz ea ax).words <|
    moveSource sz ea s fun v s1 => .ok () (s1.setA ax (sext sz v))

/-- MOVE.B src,dst (R151). -/
def execMoveB (src dst : Ea) (s : State) : Host.Outcome State Fault Refusal :=
  finish (Instr.moveB src dst).words (moveBody .b src dst (.ok dst) s)

/-- MOVE.L src,dst (R151). -/
def execMoveL (src dst : Ea) (s : State) : Host.Outcome State Fault Refusal :=
  finish (Instr.moveL src dst).words (moveBody .l src dst (.ok dst) s)

/-- MOVE.W src,dst (R151). -/
def execMoveW (src dst : Ea) (s : State) : Host.Outcome State Fault Refusal :=
  finish (Instr.moveW src dst).words (moveBody .w src dst (.ok dst) s)

/-- MOVEQ #data,Dx (R153). -/
def execMoveq (data : Byte) (dx : DReg) (s : State) : Host.Outcome State Fault Refusal :=
  finish 1 (.ok () ((s.setD dx (data.signExtend 32)).setCcr (ccrLogic s.ccr .l (data.signExtend 32))))

/-- The register of each bit of MOVEM's mask: bit i is Di, bit 8+i is Ai (R155). -/
def maskReg (i : Fin 16) : AnyReg :=
  if h : i.val < 8 then .d ⟨⟨i.val, h⟩⟩ else .a ⟨⟨i.val - 8, by omega⟩⟩

/-- The registers a mask lists, in transfer order D0 to D7, A0 to A7 (R155). -/
def maskRegs (mask : Half) : List AnyReg :=
  ((List.finRange 16).filter fun i => mask.getLsbD i.val).map maskReg

/-- Store longwords at ascending addresses; a fault leaves the earlier ones done (R155). -/
def storeAll : List Word → Word → State → Res Unit
  | [], _, s => .ok () s
  | v :: vs, a, s => (memWrite a 4 v s).bind fun _ s' => storeAll vs (a + 4) s'

/-- Load registers from ascending addresses (R155). -/
def loadAll : List AnyReg → Word → State → Res Unit
  | [], _, s => .ok () s
  | r :: rs, a, s => (memRead a 4 s).bind fun v s' => loadAll rs (a + 4) (s'.setR r v)

/-- MOVEM.L #list,ea: the registers' values before the instruction are stored (R155). -/
def execMovemStore (mask : Half) (ea : Ea) (s : State) : Host.Outcome State Fault Refusal :=
  finish (Instr.movemStore mask ea).words <|
    withOperand ea .l (s.ext + 2) s fun op s1 =>
    (operandAddr op s1).bind fun a s2 => storeAll ((maskRegs mask).map s.getR) a s2

/-- MOVEM.L ea,#list (R155). -/
def execMovemLoad (mask : Half) (ea : Ea) (s : State) : Host.Outcome State Fault Refusal :=
  finish (Instr.movemLoad mask ea).words <|
    withOperand ea .l (s.ext + 2) s fun op s1 =>
    (operandAddr op s1).bind fun a s2 => loadAll (maskRegs mask) a s2

/-- LEA ea,Ax: no access is made at the effective address (R156). -/
def execLea (ea : Ea) (ax : AReg) (s : State) : Host.Outcome State Fault Refusal :=
  finish (Instr.lea ea ax).words <|
    withOperand ea .l s.ext s fun op s1 =>
    (operandAddr op s1).bind fun a s2 => .ok () (s2.setA ax a)

/-- CLR: the destination is written and not read (R157). -/
def clrBody (sz : Size) (ea : Ea) (s : State) : Res Unit :=
  withOperand ea sz s.ext s fun op s1 =>
  (writeOp op sz 0 s1).bind fun _ s2 => .ok () (s2.setCcr (ccrLogic s2.ccr sz 0))

/-- CLR.B ea (R157). -/
def execClrB (ea : Ea) (s : State) : Host.Outcome State Fault Refusal :=
  finish (Instr.clrB ea).words (clrBody .b ea s)

/-- CLR.W ea (R157). -/
def execClrW (ea : Ea) (s : State) : Host.Outcome State Fault Refusal :=
  finish (Instr.clrW ea).words (clrBody .w ea s)

/-- CLR.L ea (R157). -/
def execClrL (ea : Ea) (s : State) : Host.Outcome State Fault Refusal :=
  finish (Instr.clrL ea).words (clrBody .l ea s)

end Sys2Proof.Machine
end

