-- ==== Sys2Proof/Machine/Dispatch.lean ====
section
/-! DEFINITION. Dispatch: one arm for each constructor of `Instr`, in the order of spec/opcode_table.json. -/

namespace Sys2Proof.Machine

def exec (i : Instr) (s : State) : Host.Outcome State Fault Refusal :=
  match i with
  | .addx dy dx => Sys2Proof.Machine.execAddx dy dx s
  | .addToD ea dx => Sys2Proof.Machine.execAddToD ea dx s
  | .addToEa dy ea => Sys2Proof.Machine.execAddToEa dy ea s
  | .adda ea ax => Sys2Proof.Machine.execAdda ea ax s
  | .addi data dx => Sys2Proof.Machine.execAddi data dx s
  | .subToD ea dx => Sys2Proof.Machine.execSubToD ea dx s
  | .subToEa dy ea => Sys2Proof.Machine.execSubToEa dy ea s
  | .cmpa ea ax => Sys2Proof.Machine.execCmpa ea ax s
  | .andToD ea dx => Sys2Proof.Machine.execAndToD ea dx s
  | .andToEa dy ea => Sys2Proof.Machine.execAndToEa dy ea s
  | .movea sz ea ax => Sys2Proof.Machine.execMovea sz ea ax s
  | .moveB src dst => Sys2Proof.Machine.execMoveB src dst s
  | .moveL src dst => Sys2Proof.Machine.execMoveL src dst s
  | .moveW src dst => Sys2Proof.Machine.execMoveW src dst s
  | .moveq data dx => Sys2Proof.Machine.execMoveq data dx s
  | .movemStore mask ea => Sys2Proof.Machine.execMovemStore mask ea s
  | .movemLoad mask ea => Sys2Proof.Machine.execMovemLoad mask ea s
  | .lea ea ax => Sys2Proof.Machine.execLea ea ax s
  | .clrB ea => Sys2Proof.Machine.execClrB ea s
  | .clrW ea => Sys2Proof.Machine.execClrW ea s
  | .clrL ea => Sys2Proof.Machine.execClrL ea s
  | .asrImm count dx => Sys2Proof.Machine.execAsrImm count dx s
  | .asrReg dy dx => Sys2Proof.Machine.execAsrReg dy dx s
  | .bsetImm num ea => Sys2Proof.Machine.execBsetImm num ea s
  | .bsetReg dy ea => Sys2Proof.Machine.execBsetReg dy ea s
  | .bra disp => Sys2Proof.Machine.execBra disp s
  | .bsr disp => Sys2Proof.Machine.execBsr disp s
  | .bhi disp => Sys2Proof.Machine.execBhi disp s
  | .bls disp => Sys2Proof.Machine.execBls disp s
  | .bcc disp => Sys2Proof.Machine.execBcc disp s
  | .bcs disp => Sys2Proof.Machine.execBcs disp s
  | .bne disp => Sys2Proof.Machine.execBne disp s
  | .beq disp => Sys2Proof.Machine.execBeq disp s
  | .bvc disp => Sys2Proof.Machine.execBvc disp s
  | .bvs disp => Sys2Proof.Machine.execBvs disp s
  | .bpl disp => Sys2Proof.Machine.execBpl disp s
  | .bmi disp => Sys2Proof.Machine.execBmi disp s
  | .bge disp => Sys2Proof.Machine.execBge disp s
  | .blt disp => Sys2Proof.Machine.execBlt disp s
  | .bgt disp => Sys2Proof.Machine.execBgt disp s
  | .ble disp => Sys2Proof.Machine.execBle disp s
  | .rts => Sys2Proof.Machine.execRts s
  | .halt => Sys2Proof.Machine.execHalt s

end Sys2Proof.Machine
end

