-- ==== Sys2Proof/Machine/Fetch.lean ====
section
/-! DEFINITION. Fetching, decoding and running the instruction at pc: 20_memory.md R41, R43, 30_encoding.md R68, and
the order of evaluation of 60_exceptions.md R206. -/

namespace Sys2Proof.Machine

/-- Extension words fetched so far, the exception of the first one that could not be fetched, and the state. -/
structure Fetched where
  words : List Half
  missing : Option Cause
  state : State

/-- Fetch `n` extension words from an even address on, up to the first that cannot be fetched (R41, R206). -/
def fetchExts : Nat → Word → State → Fetched
  | 0, _, s => ⟨[], none, s⟩
  | n + 1, a, s =>
    match readFault s.params .fetch (byteAddrs a 2) with
    | some c => ⟨[], some c, s⟩
    | none =>
      let r := readValue .fetch a 2 s
      let rest := fetchExts n (a + 2) r.2
      ⟨r.1.setWidth 16 :: rest.words, rest.missing, rest.state⟩

/-- How many words after the operation word are fetched before an operand is read or written: all of them, but only
the source's of a MOVE, whose destination's words R206 fetches after its source is read (R206 steps 3 to 5). -/
def earlyWords : Instr → Nat
  | .moveB src _ => src.words .b
  | .moveL src _ => src.words .l
  | .moveW src _ => src.words .w
  | i => i.words - 1

/-- Fetch and decode the instruction at pc, in R206's order: an odd pc, the operation word's fetch, its decoding, the
top of the address space (R24, assumption 23), the early extension words. A word that was fetched is refused before a
later one is missed. The words of a MOVE's destination are not yet fetched and stand as zeros in the answer. -/
def fetchInstr (s : State) : Res Instr :=
  if s.pc.getLsbD 0 then .raise (.addressError s.pc .oddPc) s
  else
    match readFault s.params .fetch (byteAddrs s.pc 2) with
    | some c => .raise c s
    | none =>
      let r := readValue .fetch s.pc 2 s
      let w : Half := r.1.setWidth 16
      match decode w [] with
      | .error e => .refuse (.encoding e)
      | .ok t =>
        if 2 ^ 32 < s.pc.toNat + 2 * t.words then .refuse .wrapAround
        else
          let f := fetchExts (earlyWords t) s.ext r.2
          match decode w f.words with
          | .error e => .refuse (.encoding e)
          | .ok i =>
            match f.missing with
            | none => .ok i f.state
            | some c => .raise c f.state

/-- Fetch the extension words of a MOVE's destination, which stand from `x` on, and read the destination from them with
the Mode and Register fields that `dst` has (R62, R67, R206 step 5). -/
def fetchDst (sz : Size) (dst : Ea) (x : Word) (s : State) : Res Ea :=
  let f := fetchExts (dst.words sz) x s
  match f.missing with
  | some c => .raise c f.state
  | none =>
    match decodeEa dst.mode dst.reg sz f.words with
    | .error e => .refuse (.encoding e)
    | .ok ea => .ok ea f.state

/-- Run a MOVE whose destination's words are still to be fetched (R119, R206). -/
def runMove (sz : Size) (src dst : Ea) (s : State) : Host.Outcome State Fault Refusal :=
  finish (1 + src.words sz + dst.words sz) <|
    moveBody sz src dst (fetchDst sz dst (s.ext + BitVec.ofNat 32 (2 * src.words sz))) s

/-- Run the instruction that `fetchInstr` answers: a MOVE fetches its destination's words on the way, any other is
`exec`. -/
def runFetched (i : Instr) (s : State) : Host.Outcome State Fault Refusal :=
  match i with
  | .moveB src dst => runMove .b src dst s
  | .moveL src dst => runMove .l src dst s
  | .moveW src dst => runMove .w src dst s
  | i => exec i s

end Sys2Proof.Machine
end

