-- ==== Sys2Proof/Machine/Step.lean ====
section
/-! DEFINITION. One step of the machine (00_scope.md R11, 60_exceptions.md R226). -/

namespace Sys2Proof.Machine

/-- One step: a halted or faulted machine takes none (R186, R200, R217); otherwise the instruction at pc is fetched and
run, or the exception its fetch raised is taken (R11, R201). -/
def step (s : State) : Host.Outcome State Fault Refusal :=
  match s.status with
  | .halted => .fault .halted
  | .faultOnFault => .fault .faultOnFault
  | .running =>
    match s.faultRecord with
    | some r => .fault (.alreadyFaulted r)
    | none =>
      match fetchInstr s with
      | .ok i s' => runFetched i s'
      | .raise c s' => takeException c s'
      | .refuse r => .refused r

/-- The state with the instruction whose bits are `w` placed at pc, where `step` fetches: its words of
`tableHalves`, six bytes in memory order (assumption 24). -/
def State.withFetchWord (s : State) (nbits w : Nat) : State := placeBytes (tableBytes nbits w) s.pc s

end Sys2Proof.Machine
end

