-- ==== Sys2Proof/Safety.lean ====
section
/-! DEFINITION. The terms claims use: launch premises, final states, the invariant of a run, and what it takes for an
operand to be read or written without an exception. -/

namespace Sys2Proof.Machine

/-! ### The start and the end of a run (R226, R240) -/

/-- The state a caller launches: pc, stack pointer, program image and parameters are given, the rest is as after reset
(R35, R240; assumption 24). -/
def launch (pc sp : Word) (image : Memory) (p : Params) : State :=
  { (State.reset.setA .sp sp).setPc pc with mem := image, params := p }

/-- Ranges are disjoint and within the address space (the constraint on `MEM` in 92_eei_decisions.md). -/
abbrev RegionsOk (p : Params) : Prop :=
  p.regions.Pairwise (fun r q => r.base + r.len ≤ q.base ∨ q.base + q.len ≤ r.base) ∧
    ∀ r ∈ p.regions, r.base + r.len ≤ 2 ^ 32

/-- Every byte that a memory lists stands in a `ram` or `rom` range of `MEM` (the constraint on `LAUNCH.mem`: R240,
92_eei_decisions.md). -/
abbrev MemInRange (p : Params) (m : Memory) : Prop :=
  ∀ c ∈ m, kindAt p c.1 = some .ram ∨ kindAt p c.1 = some .rom

/-- The launch premises of R240 by name: pc_even, sp_aligned, no_fault_recorded, not_halted, code_in_mem; the
constraints on `LAUNCH.mem` and `MEM`; the privilege and status values of R35. -/
structure LaunchPremises (s : State) : Prop where
  pc_even : s.pc.getLsbD 0 = false
  pc_in_code : inCode s.params s.pc.toNat = true
  sp_aligned : aligned (s.getA .sp) 4 = true
  no_fault_recorded : s.faultRecord = none
  not_halted : s.status = .running
  code_in_mem : ∀ c ∈ s.params.code, ∀ k < c.len,
    kindAt s.params (c.base + k) = some .ram ∨ kindAt s.params (c.base + k) = some .rom
  mem_canonical : Memory.wf s.mem
  mem_in_range : MemInRange s.params s.mem
  regions_ok : RegionsOk s.params
  status_register : s.sr = ⟨false, true, false, 7⟩
  vector_base : s.vbr = 0

/-- A final state: HALT was executed (R226). -/
def Final (s : State) : Prop := s.status = .halted

/-- What every step keeps: memory in canonical form and in `ram` or `rom` ranges only (R47, R240), supervisor mode (R186,
R220), trace off (R224), and zeros in the vector base register's low bits (R31). -/
structure Inv (s : State) : Prop where
  mem : Memory.wf s.mem
  range : MemInRange s.params s.mem
  supervisor : s.sr.s = true
  trace : s.sr.t = false
  vbr : s.vbr &&& 0x000FFFFF = 0

/-! ### Operands that are read or written without an exception -/

/-- An `n`-byte read at `a` meets plain memory only and is aligned or may be split (R44, R49). -/
abbrev Readable (s : State) (a : Word) (n : Nat) : Prop :=
  (∀ x ∈ byteAddrs a n, kindAt s.params x.toNat = some .ram ∨ kindAt s.params x.toNat = some .rom) ∧
    (aligned a n = true ∨ s.params.misaligned = .split)

/-- An `n`-byte write at `a` meets ram outside the program text only and is aligned or may be split (R44, R47, R49,
R55). -/
abbrev Writable (s : State) (a : Word) (n : Nat) : Prop :=
  (∀ x ∈ byteAddrs a n, kindAt s.params x.toNat = some .ram ∧ inCode s.params x.toNat = false) ∧
    (aligned a n = true ∨ s.params.misaligned = .split)

/-- The big-endian number in the `n` bytes at `a` (R40). -/
def valueAt (s : State) (a : Word) (n : Nat) : Word := beValue ((byteAddrs a n).map fun x => s.byteAt x.toNat)

/-- An effective address names a place in memory. -/
def eaInMemory : Ea → Bool
  | .dreg _ | .areg _ | .imm _ => false
  | _ => true

/-- A source operand is read without an exception or refusal: its index word is usable (R114) and its bytes are
readable. -/
abbrev EaReadable (ea : Ea) (sz : Size) (x : Word) (s : State) : Prop :=
  eaStop s.params ea x = none ∧ (eaInMemory ea = true → Readable s (effAddr ea sz x s) sz.bytes)

/-- A destination operand is written without an exception or refusal. -/
abbrev EaWritable (ea : Ea) (sz : Size) (x : Word) (s : State) : Prop :=
  eaStop s.params ea x = none ∧ (eaInMemory ea = true → Writable s (effAddr ea sz x s) sz.bytes)

/-- The value of a source operand (R102 to R113, R117). -/
def eaValue (ea : Ea) (sz : Size) (x : Word) (s : State) : Word :=
  match ea with
  | .dreg n => trunc sz (s.getD n)
  | .areg n => trunc sz (s.getA n)
  | .imm v => trunc sz v
  | _ => valueAt s (effAddr ea sz x s) sz.bytes

/-- The state after a value is written to a destination operand and nothing else is done: the low `bits(sz)` bits of a
data register, or `bytes(sz)` bytes at the effective address, with (An)+ and -(An) stepped (R28, R105, R106, R117). -/
def eaWrite (ea : Ea) (sz : Size) (x : Word) (v : Word) (s : State) : State :=
  match ea with
  | .dreg n => s.setD n (merge sz (s.getD n) v)
  | .areg n => s.setA n v
  | .imm _ => s
  | _ => placeBytes (beBytes v sz.bytes) (effAddr ea sz x s) (stepEa ea sz s)

/-- The `n` bytes at `a` stand in ram or rom. -/
abbrev PlainBytes (s : State) (a : Word) (n : Nat) : Prop :=
  ∀ x ∈ byteAddrs a n, kindAt s.params x.toNat = some .ram ∨ kindAt s.params x.toNat = some .rom

/-- A read of `n` bytes at `a` raises `c`: one of its bytes is the first outside every range of `MEM`, the ones before it
being ram or rom (R49, R201), or it is misaligned where that is an error, wherever it points (R44; assumption 38). -/
abbrev ReadFaults (s : State) (a : Word) (n : Nat) (c : Cause) : Prop :=
  ((aligned a n = true ∨ s.params.misaligned = .split) ∧
      ∃ k < n, PlainBytes s a k ∧ kindAt s.params (a + BitVec.ofNat 32 k).toNat = none ∧
        c = .accessError (a + BitVec.ofNat 32 k) .read false) ∨
    (s.params.misaligned = .fault ∧ aligned a n = false ∧ c = .addressError a (.data .read))

/-- A write of `n` bytes at `a` raises `c` and has written nothing: one of its bytes is the first outside every range of
`MEM` or in `rom`, the ones before it being writable (R47, R49, R201), and it is its very first byte or the write is
aligned (assumption 17); or the write is misaligned where that is an error (R44). `LAUNCH.code` is asked of no byte from
that one on, nor of a misaligned write: that AccessError comes before StoreToCode is assumptions 16 and 36, that
AddressError comes before either is assumption 38. -/
abbrev WriteFaults (s : State) (a : Word) (n : Nat) (c : Cause) : Prop :=
  ((aligned a n = true ∨ s.params.misaligned = .split) ∧
      ∃ k < n, (k = 0 ∨ aligned a n = true) ∧
        (∀ x ∈ byteAddrs a k, kindAt s.params x.toNat = some .ram ∧ inCode s.params x.toNat = false) ∧
        (kindAt s.params (a + BitVec.ofNat 32 k).toNat = none ∧ c = .accessError (a + BitVec.ofNat 32 k) .write false ∨
          kindAt s.params (a + BitVec.ofNat 32 k).toNat = some .rom ∧
            c = .accessError (a + BitVec.ofNat 32 k) .write true)) ∨
    (s.params.misaligned = .fault ∧ aligned a n = false ∧ c = .addressError a (.data .write))

/-- The state with the address register that an operand stepped unspecified, as an exception leaves it (R130, U9;
assumption 8). -/
def unspecify (ea : Ea) (s : State) : State :=
  match steppedReg ea with
  | none => s
  | some n => (s.setA n (Config.unspecifiedWord s.draws)).bump

/-- The operation word in the two bytes at pc (R41, R60). -/
def opWordAt (s : State) : Half := s.byteAt s.pc.toNat ++ s.byteAt (s.pc + 1).toNat

/-- The 16-bit words in the `n` bytes after the operation word, an odd last byte left out (R41). -/
def extWordsAt (s : State) (n : Nat) : List Half :=
  halvesOfBytes ((byteAddrs (s.pc + 2) n).map fun x => s.byteAt x.toNat)

/-- Address `y` is none of the `n` bytes at `a`. -/
abbrev Outside (y : Nat) (a : Word) (n : Nat) : Prop := ∀ x ∈ byteAddrs a n, y ≠ x.toNat

end Sys2Proof.Machine
end

