-- ==== Sys2Proof/Certificates/Slice0/Obligations.lean ====
section
/-! DEFINITION. The statements for the provers, one `def Obligations.<Name> : Prop` each, from the numbered rules of
spec/. "Plain" below means that the bytes an access meets are readable (or writable) memory: `Readable`, `Writable`,
`EaReadable` and `EaWritable` of Sys2Proof/Safety.lean, conditions on the state and the operands alone. -/

open Sys2Proof Sys2Proof.Machine

/-! ### Encoding (30_encoding.md) -/

/-- The words the spec prints for its examples decode to the instructions it names (R65, R66, R131 to R186). -/
def Obligations.SampleWordsDecode : Prop :=
  decodeWords [0x103C, 0x0011] = .ok (.moveB (.imm 0x11) (.dreg ⟨0⟩), []) ∧
  decodeWords [0x323C, 0x2211] = .ok (.moveW (.imm 0x2211) (.dreg ⟨1⟩), []) ∧
  decodeWords [0x247C, 0x4433, 0x2211] = .ok (.movea .l (.imm 0x44332211) ⟨2⟩, []) ∧
  decodeWords [0x3038, 0x7FFF] = .ok (.moveW (.absW 0x7FFF) (.dreg ⟨0⟩), []) ∧
  decodeWords [0x3039, 0x0000, 0x8000] = .ok (.moveW (.absL 0x8000) (.dreg ⟨0⟩), []) ∧
  decodeWords [0x20B9, 0xDEAD, 0xBEEF] = .ok (.moveL (.absL 0xDEADBEEF) (.ind ⟨0⟩), []) ∧
  decodeWords [0x13C0, 0x4015, 0x0000] = .ok (.moveB (.dreg ⟨0⟩) (.absL 0x40150000), []) ∧
  decodeWords [0xD181] = .ok (.addx ⟨1⟩ ⟨0⟩, []) ∧
  decodeWords [0xD280] = .ok (.addToD (.dreg ⟨0⟩) ⟨1⟩, []) ∧
  decodeWords [0xDFFC, 0xABCD, 0x1234] = .ok (.adda (.imm 0xABCD1234) ⟨7⟩, []) ∧
  decodeWords [0x0687, 0xABCD, 0x1234] = .ok (.addi 0xABCD1234 ⟨7⟩, []) ∧
  decodeWords [0x9093] = .ok (.subToD (.ind ⟨3⟩) ⟨0⟩, []) ∧
  decodeWords [0xB1FC, 0x0000, 0x1004] = .ok (.cmpa (.imm 0x1004) ⟨0⟩, []) ∧
  decodeWords [0xCEB8, 0x00EF] = .ok (.andToD (.absW 0x00EF) ⟨7⟩, []) ∧
  decodeWords [0x7E81] = .ok (.moveq 0x81 ⟨7⟩, []) ∧
  decodeWords [0x48D7, 0x0006] = .ok (.movemStore 0x0006 (.ind ⟨7⟩), []) ∧
  decodeWords [0x4CD7, 0x0006] = .ok (.movemLoad 0x0006 (.ind ⟨7⟩), []) ∧
  decodeWords [0x4FEF, 0x0008] = .ok (.lea (.disp 8 ⟨7⟩) ⟨7⟩, []) ∧
  decodeWords [0x41FA, 0x0006] = .ok (.lea (.pcDisp 6) ⟨0⟩, []) ∧
  decodeWords [0x4246] = .ok (.clrW (.dreg ⟨6⟩), []) ∧
  decodeWords [0xE081] = .ok (.asrImm 0 ⟨1⟩, []) ∧
  decodeWords [0x08D7, 0x0005] = .ok (.bsetImm 5 (.ind ⟨7⟩), []) ∧
  decodeWords [0x66F6] = .ok (.bne (.short 0xF6), []) ∧
  decodeWords [0x6100, 0x0004] = .ok (.bsr (.word 4), []) ∧
  decodeWords [0x4E75] = .ok (.rts, []) ∧
  decodeWords [0x4AC8] = .ok (.halt, [])

/-- The decoder gives back every well-formed instruction from the words the encoder writes, whatever words follow, and
leaves those words (R60 to R73). -/
def Obligations.DecodeOfEncode : Prop :=
  ∀ (i : Instr) (rest : List Half), i.wf = true → decodeWords (encode i ++ rest) = .ok (i, rest)

/-- Words have one meaning: whatever the decoder reads, its encoding is exactly the words it was read from (R60 to
R73). -/
def Obligations.EncodeOfDecode : Prop :=
  ∀ (ws rest : List Half) (i : Instr), decodeWords ws = .ok (i, rest) → ws = encode i ++ rest

/-- Whatever the decoder answers has modes R76 and R151 admit and is at most three words long; it never answers
LongerThanThreeWords or ReservedAddressingMode (R68, R116, R154). -/
def Obligations.DecodedModesAreAdmitted : Prop :=
  ∀ (w : Half) (xs : List Half),
    (∀ i, decode w xs = .ok i → i.modesOk = true ∧ i.words ≤ 3) ∧
    decode w xs ≠ .error .longerThanThreeWords ∧ decode w xs ≠ .error .reservedAddressingMode

/-- The operation word alone fixes the length: where some words after it make it an instruction, any other words do so
with the same length, or are refused for an operand word's reserved bits (R68). -/
def Obligations.OperationWordFixesLength : Prop :=
  ∀ (w : Half) (xs ys : List Half) (i : Instr), decode w xs = .ok i →
    (∃ j, decode w ys = .ok j ∧ j.words = i.words) ∨ decode w ys = .error .byteImmediateHighBits ∨
      decode w ys = .error .reservedExtensionWord

/-- What is refused: top bits 0101, 1000, 1010 and 1111, a branch with displacement byte 0xFF, MOVEQ's format with bit 8
set (NotSpecified: R74, R80, R181, R153); a byte immediate's high byte (R65) and a bit-number word's (R173). -/
def Obligations.RefusedEncodings : Prop :=
  (∀ (w : Half) (xs : List Half),
    w.extractLsb' 12 4 = 5 ∨ w.extractLsb' 12 4 = 8 ∨ w.extractLsb' 12 4 = 10 ∨ w.extractLsb' 12 4 = 15 ∨
      (w.extractLsb' 12 4 = 6 ∧ w.extractLsb' 0 8 = 0xFF) ∨ (w.extractLsb' 12 4 = 7 ∧ w.getLsbD 8 = true) →
    decode w xs = .error .notSpecified) ∧
  (∀ (v : Word) (dst : Ea), 256 ≤ v.toNat → v.toNat < 65536 → (Instr.moveB (.imm v) dst).modesOk = true →
    decodeWords (encode (.moveB (.imm v) dst)) = .error .byteImmediateHighBits) ∧
  (∀ (num : Half) (ea : Ea), 256 ≤ num.toNat → ea.isBsetStatic = true →
    decodeWords (encode (.bsetImm num ea)) = .error .reservedExtensionWord)

/-! ### Stepping (00_scope.md R11, 20_memory.md, 60_exceptions.md R206) -/

/-- A step runs the instruction that the bytes at pc decode to (R11, R41, R60); pc is even, the machine is running
(R34), and the bytes stand in ram or rom without wrapping round the address space (R24, R49). -/
def Obligations.StepRunsDecodedInstruction : Prop :=
  ∀ (s : State) (bs : List Byte) (i : Instr),
    s.status = .running → s.faultRecord = none → s.pc.getLsbD 0 = false → s.pc.toNat + bs.length ≤ 2 ^ 32 →
    (∀ x ∈ byteAddrs s.pc bs.length, kindAt s.params x.toNat = some .ram ∨ kindAt s.params x.toNat = some .rom) →
    (byteAddrs s.pc bs.length).map (fun x => s.byteAt x.toNat) = bs → decodeBytes bs = .ok (i, []) →
    step s = exec i s

/-- An instruction fetched at an odd pc raises AddressError with that pc; a branch, BSR or RTS to an odd target does not
fault by itself (R43). A branch's target is pc + 2 plus the sign-extended displacement. -/
def Obligations.OddPcRaisesAddressError : Prop :=
  (∀ s : State, s.status = .running → s.faultRecord = none → s.pc.getLsbD 0 = true →
    step s = takeException (.addressError s.pc .oddPc) s) ∧
  (∀ (i : Instr) (disp : BranchDisp) (s : State),
    let move : Word := match disp with | .short d => d.signExtend 32 | .word d => d.signExtend 32
    let len : Word := match disp with | .short _ => 2 | .word _ => 4
    i ∈ [.bra disp, .bhi disp, .bls disp, .bcc disp, .bcs disp, .bne disp, .beq disp, .bvc disp, .bvs disp, .bpl disp,
      .bmi disp, .bge disp, .blt disp, .bgt disp, .ble disp] →
    ∃ t, exec i s = .next t ∧
      (t.pc = s.pc + 2 + move ∨ t.pc = s.pc + len)) ∧
  (∀ (disp : BranchDisp) (s : State), Writable s (s.getA .sp - 4) 4 →
    let move : Word := match disp with | .short d => d.signExtend 32 | .word d => d.signExtend 32
    ∃ t, exec (.bsr disp) s = .next t ∧ t.pc = s.pc + 2 + move) ∧
  (∀ s : State, Readable s (s.getA .sp) 4 → ∃ t, exec .rts s = .next t ∧ t.pc = valueAt s (s.getA .sp) 4)

/-- A fetch outside every range of MEM raises AccessError with the first byte that is outside (R49, R201, R206): of the
operation word; of an operand or source extension word, where the words before it stand in plain memory and are not
refused (R206 steps 3 and 4); and of a word of a MOVE's destination, once its source is read (R206 step 5), the address
register that the source stepped being then unspecified (R130; that it is a free value is assumption 8). -/
def Obligations.FetchOutsideMemRaisesAccessError : Prop :=
  ∀ s : State, s.status = .running → s.faultRecord = none → s.pc.getLsbD 0 = false →
    (kindAt s.params s.pc.toNat = none → step s = takeException (.accessError s.pc .fetch false) s) ∧
    (kindAt s.params s.pc.toNat ≠ none → kindAt s.params (s.pc + 1).toNat = none →
      step s = takeException (.accessError (s.pc + 1) .fetch false) s) ∧
    (∀ (i : Instr) (m : Nat), PlainBytes s s.pc (2 + m) → decode (opWordAt s) (extWordsAt s m) = .ok i →
      s.pc.toNat + 2 * i.words ≤ 2 ^ 32 → kindAt s.params (s.pc + 2 + BitVec.ofNat 32 m).toNat = none →
      ((∀ src dst, i ≠ .moveB src dst ∧ i ≠ .moveW src dst ∧ i ≠ .moveL src dst) → m < 2 * (i.words - 1) →
        step s = takeException (.accessError (s.pc + 2 + BitVec.ofNat 32 m) .fetch false) s) ∧
      (∀ (sz : Size) (src dst : Ea),
        sz = .b ∧ i = .moveB src dst ∨ sz = .w ∧ i = .moveW src dst ∨ sz = .l ∧ i = .moveL src dst →
        (m < 2 * src.words sz →
          step s = takeException (.accessError (s.pc + 2 + BitVec.ofNat 32 m) .fetch false) s) ∧
        (2 * src.words sz ≤ m → m < 2 * (src.words sz + dst.words sz) → EaReadable src sz (s.pc + 2) s →
          step s =
            takeException (.accessError (s.pc + 2 + BitVec.ofNat 32 m) .fetch false) (unspecify src s))))

/-- A halted machine, a machine halted by a fault-on-fault and a machine with a fault record take no further step (R186,
R200, R217). -/
def Obligations.StoppedMachineTakesNoStep : Prop :=
  ∀ s : State,
    (s.status = .halted → step s = .fault .halted) ∧
    (s.status = .faultOnFault → step s = .fault .faultOnFault) ∧
    (∀ r, s.status = .running → s.faultRecord = some r → step s = .fault (.alreadyFaulted r))

/-- An operation word that is refused is refused before any extension word is fetched, and an instruction whose words
straddle the top of the address space is refused (R24, R80, R206; that the second check comes before the fetch of the
extension words is the model's choice, assumption 23). -/
def Obligations.RefusedFetches : Prop :=
  ∀ s : State, s.status = .running → s.faultRecord = none → s.pc.getLsbD 0 = false →
    (∀ x ∈ byteAddrs s.pc 2, kindAt s.params x.toNat = some .ram ∨ kindAt s.params x.toNat = some .rom) →
    (∀ e, decode (s.byteAt s.pc.toNat ++ s.byteAt (s.pc + 1).toNat) [] = .error e →
      step s = .refused (.encoding e)) ∧
    (∀ i, decode (s.byteAt s.pc.toNat ++ s.byteAt (s.pc + 1).toNat) [] = .ok i →
      2 ^ 32 < s.pc.toNat + 2 * i.words → step s = .refused .wrapAround)

/-! ### Reset, launch and what every step keeps -/

/-- After reset: supervisor mode, trace off, M clear, interrupt mask 7 (high byte 0x27), VBR 0, not halted, no fault
recorded, and the values R6 takes for HAS_FPU, MISALIGNED_DATA and TRAP_MODEL (R6, R30, R31, R35). -/
def Obligations.ResetValues : Prop :=
  State.reset.sr = ⟨false, true, false, 7⟩ ∧ State.reset.srWord.extractLsb' 8 8 = 0x27 ∧ State.reset.vbr = 0 ∧
    State.reset.status = .running ∧ State.reset.faultRecord = none ∧ State.reset.deviceLog = [] ∧
    State.reset.params.hasFpu = false ∧ State.reset.params.misaligned = .split ∧
    State.reset.params.trapModel = .terminal

/-- The invariant holds after reset (R30, R31, R33, R35) and in every launch state that meets the launch premises
(R240). -/
def Obligations.ResetMeetsInv : Prop := Inv State.reset ∧ ∀ s : State, LaunchPremises s → Inv s

/-- Every step keeps the invariant, whatever the parameters: memory in canonical form and in ram or rom ranges only
(R47, R240), supervisor mode (R186, R220), trace off (R224) and zeros in the vector base register's low bits (R31). -/
def Obligations.StepKeepsInv : Prop := ∀ s t : State, Inv s → step s = .next t → Inv t

/-- No step changes a parameter, a byte of rom, of a device or of the program text (R47, R55), or the vector base
register; the record of device accesses only grows (R47), and so does the model's count of free values. The same holds
of the faulted state of an exception. -/
def Obligations.StepKeepsProgramText : Prop :=
  ∀ s t : State, (step s = .next t ∨ ∃ r, step s = .fault (.exception r t)) →
    t.params = s.params ∧ t.vbr = s.vbr ∧ s.deviceLog <+: t.deviceLog ∧ s.draws ≤ t.draws ∧
    ∀ y, kindAt s.params y ≠ some .ram ∨ inCode s.params y = true → t.byteAt y = s.byteAt y

/-- The status register's high byte changes only by taking an exception, which sets S and clears T, whether an
instruction or its fetch raises it; the machine halts only by HALT, whose word is 0x4AC8, and by a fault-on-fault only
where exceptions are entered (R30, R186, R214, R217, R226). -/
def Obligations.ModeChangesOnlyByException : Prop :=
  ∀ s t : State, s.status = .running →
    (∀ i, exec i s = .next t →
      (t.sr = s.sr ∨ s.params.trapModel = .vectored ∧ t.sr = { s.sr with s := true, t := false }) ∧
      (t.status = .halted → i = .halt) ∧ (t.status = .faultOnFault → s.params.trapModel = .vectored)) ∧
    (step s = .next t →
      (t.sr = s.sr ∨ s.params.trapModel = .vectored ∧ t.sr = { s.sr with s := true, t := false }) ∧
      (t.status = .halted → PlainBytes s s.pc 2 → opWordAt s = 0x4AC8) ∧
      (t.status = .faultOnFault → s.params.trapModel = .vectored))

/-- A fault is precise in pc and never writes a flag: the record holds the faulting instruction's address, the faulted
state carries the record, and its pc, flags and status register are as before (R200, R208). -/
def Obligations.FaultsArePrecise : Prop :=
  ∀ (s t : State) (r : FaultRecord),
    (step s = .fault (.exception r t) ∨ ∃ i, exec i s = .fault (.exception r t)) →
    r.pc = s.pc ∧ t.faultRecord = some r ∧ t.pc = s.pc ∧ t.ccr = s.ccr ∧ t.sr = s.sr ∧ t.status = s.status ∧
      s.params.trapModel = .terminal

/-- In supervisor mode no step raises anything but AddressError and AccessError: no arithmetic exception exists (R130,
R201, R203). -/
def Obligations.OnlyAddressAndAccessErrors : Prop :=
  ∀ (s t : State) (r : FaultRecord), s.sr.s = true → step s = .fault (.exception r t) →
    (∃ info on, r.cause = .addressError info on) ∨ ∃ info k rom, r.cause = .accessError info k rom

/-! ### Memory (20_memory.md) -/

/-- A mixed-width access sees the bytes of a big-endian longword, and MOVE.L (Am),Dn of the bytes AB CD 12 34 gives
0xABCD1234 (R42). -/
def Obligations.MixedWidthAccess : Prop :=
  (∀ (s : State) (a : Word), Writable s a 4 →
    ∃ t, memWrite a 4 0xAABBCCDD s = .ok () t ∧ memRead a 1 t = .ok 0xAA t ∧ memRead (a + 3) 1 t = .ok 0xDD t ∧
      memRead a 2 t = .ok 0xAABB t ∧ memRead (a + 2) 2 t = .ok 0xCCDD t) ∧
  (∀ (s : State) (m : AReg) (n : DReg), Readable s (s.getA m) 4 → s.byteAt (s.getA m).toNat = 0xAB →
    s.byteAt (s.getA m + 1).toNat = 0xCD → s.byteAt (s.getA m + 2).toNat = 0x12 →
    s.byteAt (s.getA m + 3).toNat = 0x34 →
    ∃ t, exec (.moveL (.ind m) (.dreg n)) s = .next t ∧ t.getD n = 0xABCD1234)

/-- Data memory is big-endian: what MemRead gives of the bytes M[a], M[a+1], …; MemWrite is the inverse and touches no
other byte (R40). -/
def Obligations.DataIsBigEndian : Prop :=
  (∀ (s : State) (a : Word), Readable s a 1 → memRead a 1 s = .ok ((s.byteAt a.toNat).setWidth 32) s) ∧
  (∀ (s : State) (a : Word), Readable s a 2 →
    memRead a 2 s = .ok ((s.byteAt a.toNat ++ s.byteAt (a + 1).toNat).setWidth 32) s) ∧
  (∀ (s : State) (a : Word), Readable s a 4 →
    memRead a 4 s = .ok (s.byteAt a.toNat ++ s.byteAt (a + 1).toNat ++ s.byteAt (a + 2).toNat ++
      s.byteAt (a + 3).toNat) s) ∧
  (∀ (s : State) (a v : Word) (sz : Size), Writable s a sz.bytes →
    ∃ t, memWrite a sz.bytes v s = .ok () t ∧ memRead a sz.bytes t = .ok (trunc sz v) t ∧
      t = { s with mem := t.mem } ∧ ∀ y, Outside y a sz.bytes → t.byteAt y = s.byteAt y)

/-- A misaligned access under MISALIGNED_DATA = fault raises AddressError, wherever it points (that this comes before
AccessError and, for a store, before StoreToCode is the model's choice, assumption 38); under split it is a sequence of
byte accesses in ascending order, so that the bytes before the first one outside MEM are written (R44, R206, R208; that
AccessError is reported for a byte outside MEM that is also in LAUNCH.code is assumption 16). -/
def Obligations.MisalignedAccess : Prop :=
  (∀ (s : State) (a v : Word) (n : Nat), s.params.misaligned = .fault → aligned a n = false →
    memRead a n s = .raise (.addressError a (.data .read)) s ∧
    memWrite a n v s = .raise (.addressError a (.data .write)) s) ∧
  (∀ (s : State) (a v : Word) (n k : Nat), s.params.misaligned = .split → aligned a n = false → n ≤ 4 → k < n →
    (∀ x ∈ byteAddrs a k, kindAt s.params x.toNat = some .ram ∧ inCode s.params x.toNat = false) →
    kindAt s.params (a + BitVec.ofNat 32 k).toNat = none →
    memRead a n s = .raise (.accessError (a + BitVec.ofNat 32 k) .read false) s ∧
    memWrite a n v s =
      .raise (.accessError (a + BitVec.ofNat 32 k) .write false) (placeBytes ((beBytes v n).take k) a s))

/-- A device access: a read gives a fresh free value and is recorded, a write is recorded and holds nothing (R47; one
record for each access, and a counter of free values, are the model's choices, assumptions 6 and 18). -/
def Obligations.DeviceAccessesAreRecorded : Prop :=
  ∀ (s : State) (a v : Word) (sz : Size), aligned a sz.bytes = true →
    (∀ x ∈ byteAddrs a sz.bytes, kindAt s.params x.toNat = some .device ∧ inCode s.params x.toNat = false) →
    memRead a sz.bytes s =
      .ok (beValue ((List.range sz.bytes).map fun k => Config.deviceByte (s.draws + k)))
        { s with
          draws := s.draws + sz.bytes
          deviceLog := s.deviceLog ++ [⟨.read, a, sz.bytes,
            beValue ((List.range sz.bytes).map fun k => Config.deviceByte (s.draws + k))⟩] } ∧
    memWrite a sz.bytes v s = .ok () { s with deviceLog := s.deviceLog ++ [⟨.write, a, sz.bytes, trunc sz v⟩] }

/-- An aligned access outside every range, or a store to rom, raises AccessError with the first offending byte and
changes nothing (R47, R49, R201). The model's choices in it: an aligned store is made whole or not at all (assumption
17); AccessError is reported and not StoreToCode where that byte is also in LAUNCH.code (assumption 16), or a later one
is (assumption 36). -/
def Obligations.AccessErrors : Prop :=
  ∀ (s : State) (a v : Word) (n k : Nat), aligned a n = true → k < n →
    ((∀ x ∈ byteAddrs a k, kindAt s.params x.toNat ≠ none) → kindAt s.params (a + BitVec.ofNat 32 k).toNat = none →
      memRead a n s = .raise (.accessError (a + BitVec.ofNat 32 k) .read false) s) ∧
    ((∀ x ∈ byteAddrs a k, kindAt s.params x.toNat = some .ram ∧ inCode s.params x.toNat = false) →
      (kindAt s.params (a + BitVec.ofNat 32 k).toNat = none →
        memWrite a n v s = .raise (.accessError (a + BitVec.ofNat 32 k) .write false) s) ∧
      (kindAt s.params (a + BitVec.ofNat 32 k).toNat = some .rom →
        memWrite a n v s = .raise (.accessError (a + BitVec.ofNat 32 k) .write true) s))

/-- A store that touches the program text is refused (R55, R244). -/
def Obligations.StoreToCodeIsRefused : Prop :=
  ∀ (s : State) (a v : Word) (n : Nat), aligned a n = true ∨ s.params.misaligned = .split →
    (∀ x ∈ byteAddrs a n, kindAt s.params x.toNat = some .ram) →
    (∃ x ∈ byteAddrs a n, inCode s.params x.toNat = true) → memWrite a n v s = .refuse .storeToCode

/-! ### Addressing modes (40_addressing_modes.md) -/

/-- The twelve addressing modes: the operand each names, and the side effect of (An)+ and -(An) (R101 to R113); the index
is all 32 bits of Xi times 1, 2, 4 or 8, and the checks of the index word come in R114's order. -/
def Obligations.AddressingModes : Prop :=
  ∀ (s : State) (sz : Size) (x : Word) (dn : DReg) (n : AReg) (d a : Half) (v : Word) (e : IndexWord),
    resolve (.dreg dn) sz x s = .ok (.dreg dn) s ∧
    resolve (.areg n) sz x s = .ok (.areg n) s ∧
    resolve (.ind n) sz x s = .ok (.mem (s.getA n)) s ∧
    resolve (.postinc n) sz x s = .ok (.mem (s.getA n)) (s.setA n (s.getA n + BitVec.ofNat 32 sz.bytes)) ∧
    resolve (.predec n) sz x s =
      .ok (.mem (s.getA n - BitVec.ofNat 32 sz.bytes)) (s.setA n (s.getA n - BitVec.ofNat 32 sz.bytes)) ∧
    resolve (.disp d n) sz x s = .ok (.mem (s.getA n + d.signExtend 32)) s ∧
    resolve (.absW a) sz x s = .ok (.mem (a.signExtend 32)) s ∧
    resolve (.absL v) sz x s = .ok (.mem v) s ∧
    resolve (.pcDisp d) sz x s = .ok (.mem (x + d.signExtend 32)) s ∧
    resolve (.imm v) sz x s = .ok (.imm (trunc sz v)) s ∧
    (∀ ea, ea = .index e n ∨ ea = .pcIndex e →
      (e.reserved = true → resolve ea sz x s = .refuse (.encoding .reservedExtensionWord)) ∧
      (e.reserved = false → e.long = false → resolve ea sz x s = .raise (.addressError x .index) s) ∧
      (e.reserved = false → e.long = true → e.scale = 3 → s.params.hasFpu = false →
        resolve ea sz x s = .raise (.addressError x .index) s)) ∧
    (e.reserved = false → e.long = true → e.scale ≠ 3 ∨ s.params.hasFpu = true →
      resolve (.index e n) sz x s =
        .ok (.mem (s.getA n + s.getR e.xi * BitVec.ofNat 32 (2 ^ e.scale.toNat) + e.disp.signExtend 32)) s ∧
      resolve (.pcIndex e) sz x s =
        .ok (.mem (x + s.getR e.xi * BitVec.ofNat 32 (2 ^ e.scale.toNat) + e.disp.signExtend 32)) s)

/-- Absolute short addressing reaches exactly the first and the last 32 KiB of the address space (R48, R109). -/
def Obligations.AbsoluteShortReach : Prop :=
  ∀ (s : State) (sz : Size) (x y : Word),
    (∃ a : Half, resolve (.absW a) sz x s = .ok (.mem y) s) ↔ y.toNat ≤ 0x7FFF ∨ 0xFFFF8000 ≤ y.toNat

/-! ### Arithmetic (41_arithmetic.md) -/

/-- What AddC and SubB mean as numbers: the result modulo 2^32, the carry and borrow of the unsigned numbers, and the
overflow exactly where the signed result does not fit (R10). -/
def Obligations.CarryAndOverflowMeaning : Prop :=
  ∀ (s d : Word) (x : Bool),
    (addC s d x).res.toNat + (if (addC s d x).carry then 2 ^ 32 else 0) = s.toNat + d.toNat + x.toNat ∧
    ((addC s d x).overflow = false ↔ (addC s d x).res.toInt = s.toInt + d.toInt + x.toNat) ∧
    (subB s d x).res.toNat + s.toNat + x.toNat = d.toNat + (if (subB s d x).carry then 2 ^ 32 else 0) ∧
    ((subB s d x).overflow = false ↔ (subB s d x).res.toInt = d.toInt - s.toInt - x.toNat)

/-- ADDX.L Dy,Dx: Dx and the flags, Z only cleared; nothing else changes but pc (R131). -/
def Obligations.AddxResult : Prop :=
  ∀ (dy dx : DReg) (s : State),
    let r := addC (s.getD dy) (s.getD dx) s.ccr.x
    exec (.addx dy dx) s =
      .next (((s.setD dx r.res).setCcr
        ⟨r.carry, r.res.msb, s.ccr.z && r.res == 0, r.overflow, r.carry⟩).setPc (s.pc + 2))

/-- ADD.L in both directions, of registers, constants and plain memory: the sum, the five flags, the side effect of the
addressing mode, pc, and nothing else (R118, R132). -/
def Obligations.AddResult : Prop :=
  (∀ (ea : Ea) (dx : DReg) (s : State), EaReadable ea .l (s.pc + 2) s →
    let r := addC (eaValue ea .l (s.pc + 2) s) (s.getD dx) false
    exec (.addToD ea dx) s =
      .next ((((stepEa ea .l s).setD dx r.res).setCcr ⟨r.carry, r.res.msb, r.res == 0, r.overflow, r.carry⟩).setPc
        (s.pc + BitVec.ofNat 32 (2 * (1 + ea.words .l))))) ∧
  (∀ (dy : DReg) (ea : Ea) (s : State), ea.isMemoryAlterable = true → EaWritable ea .l (s.pc + 2) s →
    let r := addC (s.getD dy) (eaValue ea .l (s.pc + 2) s) false
    exec (.addToEa dy ea) s =
      .next (((eaWrite ea .l (s.pc + 2) r.res s).setCcr ⟨r.carry, r.res.msb, r.res == 0, r.overflow, r.carry⟩).setPc
        (s.pc + BitVec.ofNat 32 (2 * (1 + ea.words .l)))))

/-- ADDA.L: the sum uses Ax after the source's side effect, and no flag changes (R133). -/
def Obligations.AddaResult : Prop :=
  ∀ (ea : Ea) (ax : AReg) (s : State), EaReadable ea .l (s.pc + 2) s →
    exec (.adda ea ax) s =
      .next (((stepEa ea .l s).setA ax ((stepEa ea .l s).getA ax + eaValue ea .l (s.pc + 2) s)).setPc
        (s.pc + BitVec.ofNat 32 (2 * (1 + ea.words .l))))

/-- ADDI.L #data,Dx: the sum and the flags of ADD; three words (R134). -/
def Obligations.AddiResult : Prop :=
  ∀ (data : Word) (dx : DReg) (s : State),
    let r := addC data (s.getD dx) false
    exec (.addi data dx) s =
      .next (((s.setD dx r.res).setCcr ⟨r.carry, r.res.msb, r.res == 0, r.overflow, r.carry⟩).setPc (s.pc + 6))

/-- SUB.L in both directions: destination minus source, X and C the borrow, V the signed overflow (R118, R135). -/
def Obligations.SubResult : Prop :=
  (∀ (ea : Ea) (dx : DReg) (s : State), EaReadable ea .l (s.pc + 2) s →
    let r := subB (eaValue ea .l (s.pc + 2) s) (s.getD dx) false
    exec (.subToD ea dx) s =
      .next ((((stepEa ea .l s).setD dx r.res).setCcr ⟨r.carry, r.res.msb, r.res == 0, r.overflow, r.carry⟩).setPc
        (s.pc + BitVec.ofNat 32 (2 * (1 + ea.words .l))))) ∧
  (∀ (dy : DReg) (ea : Ea) (s : State), ea.isMemoryAlterable = true → EaWritable ea .l (s.pc + 2) s →
    let r := subB (s.getD dy) (eaValue ea .l (s.pc + 2) s) false
    exec (.subToEa dy ea) s =
      .next (((eaWrite ea .l (s.pc + 2) r.res s).setCcr ⟨r.carry, r.res.msb, r.res == 0, r.overflow, r.carry⟩).setPc
        (s.pc + BitVec.ofNat 32 (2 * (1 + ea.words .l)))))

/-- CMPA.L: the flags of Ax minus the source, X unchanged, Ax not written: C orders the two as unsigned numbers and
N ≠ V as signed ones (R136). -/
def Obligations.CmpaResult : Prop :=
  ∀ (ea : Ea) (ax : AReg) (s : State), EaReadable ea .l (s.pc + 2) s →
    ∃ n v : Bool,
      exec (.cmpa ea ax) s =
        .next (((stepEa ea .l s).setCcr
          ⟨s.ccr.x, n, (stepEa ea .l s).getA ax == eaValue ea .l (s.pc + 2) s, v,
            decide (((stepEa ea .l s).getA ax).toNat < (eaValue ea .l (s.pc + 2) s).toNat)⟩).setPc
          (s.pc + BitVec.ofNat 32 (2 * (1 + ea.words .l)))) ∧
      n = ((stepEa ea .l s).getA ax - eaValue ea .l (s.pc + 2) s).msb ∧
      ((n != v) = decide (((stepEa ea .l s).getA ax).toInt < (eaValue ea .l (s.pc + 2) s).toInt))

/-- A 64-bit sum by ADD.L of the low and ADDX.L of the high longwords: the sum modulo 2^64, C and X the carry out of
it, N its sign and Z exactly where the whole sum is zero (R131, R132). -/
def Obligations.MultiplePrecisionSum : Prop :=
  ∀ (s : State) (lo hi lo' hi' : DReg), lo ≠ hi → lo ≠ lo' → lo ≠ hi' → hi ≠ lo' → hi ≠ hi' → lo' ≠ hi' →
    ∃ t u, exec (.addToD (.dreg lo) lo') s = .next t ∧ exec (.addx hi hi') t = .next u ∧
      u.getD hi' ++ u.getD lo' = (s.getD hi ++ s.getD lo) + (s.getD hi' ++ s.getD lo') ∧
      u.ccr.c = decide (2 ^ 64 ≤ (s.getD hi ++ s.getD lo).toNat + (s.getD hi' ++ s.getD lo').toNat) ∧
      u.ccr.x = u.ccr.c ∧ u.ccr.n = ((s.getD hi ++ s.getD lo) + (s.getD hi' ++ s.getD lo')).msb ∧
      u.ccr.z = ((s.getD hi ++ s.getD lo) + (s.getD hi' ++ s.getD lo') == 0#64) ∧
      u.getD lo = s.getD lo ∧ u.getD hi = s.getD hi

/-! ### Data movement (42_move.md) -/

/-- MOVE in its three sizes, for every pair R151 admits: the source first, then the destination, N and Z from the value
at its size, V = C = 0, X unchanged (R119, R151); in a data register the bits below the size are the value's and the
others as before (R28); a data register gives its low bits; MOVE An,(An)+ and MOVE An,-(An) with one register are
refused (R120). -/
def Obligations.MoveResult : Prop :=
  (∀ (src dst : Ea) (s : State), (Instr.moveB src dst).modesOk = true → EaReadable src .b (s.pc + 2) s →
    let x := s.pc + 2 + BitVec.ofNat 32 (2 * src.words .b)
    let v := eaValue src .b (s.pc + 2) s
    EaWritable dst .b x (stepEa src .b s) →
    exec (.moveB src dst) s =
      .next (((eaWrite dst .b x v (stepEa src .b s)).setCcr ⟨s.ccr.x, v.getLsbD 7, v == 0, false, false⟩).setPc
        (s.pc + BitVec.ofNat 32 (2 * (1 + src.words .b + dst.words .b))))) ∧
  (∀ (src dst : Ea) (s : State), (Instr.moveW src dst).modesOk = true →
    (∀ n, src = .areg n → dst ≠ .postinc n ∧ dst ≠ .predec n) →
    EaReadable src .w (s.pc + 2) s →
    let x := s.pc + 2 + BitVec.ofNat 32 (2 * src.words .w)
    let v := eaValue src .w (s.pc + 2) s
    EaWritable dst .w x (stepEa src .w s) →
    exec (.moveW src dst) s =
      .next (((eaWrite dst .w x v (stepEa src .w s)).setCcr ⟨s.ccr.x, v.getLsbD 15, v == 0, false, false⟩).setPc
        (s.pc + BitVec.ofNat 32 (2 * (1 + src.words .w + dst.words .w))))) ∧
  (∀ (src dst : Ea) (s : State), (Instr.moveL src dst).modesOk = true →
    (∀ n, src = .areg n → dst ≠ .postinc n ∧ dst ≠ .predec n) →
    EaReadable src .l (s.pc + 2) s →
    let x := s.pc + 2 + BitVec.ofNat 32 (2 * src.words .l)
    let v := eaValue src .l (s.pc + 2) s
    EaWritable dst .l x (stepEa src .l s) →
    exec (.moveL src dst) s =
      .next (((eaWrite dst .l x v (stepEa src .l s)).setCcr ⟨s.ccr.x, v.msb, v == 0, false, false⟩).setPc
        (s.pc + BitVec.ofNat 32 (2 * (1 + src.words .l + dst.words .l))))) ∧
  (∀ (i : Instr) (sz : Size) (src : Ea) (n : DReg) (s : State),
    sz = .b ∧ i = .moveB src (.dreg n) ∨ sz = .w ∧ i = .moveW src (.dreg n) ∨ sz = .l ∧ i = .moveL src (.dreg n) →
    i.modesOk = true → EaReadable src sz (s.pc + 2) s →
    ∃ t, exec i s = .next t ∧
      ∀ k < 32, (t.getD n).getLsbD k =
        if k < sz.bits then (eaValue src sz (s.pc + 2) s).getLsbD k else (s.getD n).getLsbD k) ∧
  (∀ (m n : DReg) (s : State),
    (∃ t, exec (.moveB (.dreg m) (.dreg n)) s = .next t ∧ (t.getD n).setWidth 8 = (s.getD m).setWidth 8 ∧
      t.ccr = ⟨s.ccr.x, (s.getD m).getLsbD 7, (s.getD m).setWidth 8 == 0#8, false, false⟩) ∧
    (∃ t, exec (.moveW (.dreg m) (.dreg n)) s = .next t ∧ (t.getD n).setWidth 16 = (s.getD m).setWidth 16 ∧
      t.ccr = ⟨s.ccr.x, (s.getD m).getLsbD 15, (s.getD m).setWidth 16 == 0#16, false, false⟩)) ∧
  (∀ (n : AReg) (s : State),
    exec (.moveW (.areg n) (.postinc n)) s = .refused .baseIsAlsoData ∧
    exec (.moveW (.areg n) (.predec n)) s = .refused .baseIsAlsoData ∧
    exec (.moveL (.areg n) (.postinc n)) s = .refused .baseIsAlsoData ∧
    exec (.moveL (.areg n) (.predec n)) s = .refused .baseIsAlsoData)

/-- MOVE.L (An)+,(An)+ reads at a, writes at a+4 and leaves a+8; MOVE.L (An)+,-(An) reads at a, writes at a and leaves a
(R119). -/
def Obligations.MoveThroughOneRegister : Prop :=
  ∀ (n : AReg) (s : State),
    (Readable s (s.getA n) 4 → Writable s (s.getA n + 4) 4 →
      ∃ t, exec (.moveL (.postinc n) (.postinc n)) s = .next t ∧ t.getA n = s.getA n + 8 ∧
        valueAt t (s.getA n + 4) 4 = valueAt s (s.getA n) 4 ∧
        ∀ y, Outside y (s.getA n + 4) 4 → t.byteAt y = s.byteAt y) ∧
    (Writable s (s.getA n) 4 →
      ∃ t, exec (.moveL (.postinc n) (.predec n)) s = .next t ∧ t.getA n = s.getA n ∧
        ∀ y, t.byteAt y = s.byteAt y)

/-- MOVEA: a word source is sign-extended, no flag changes (R152). MOVEQ: all 32 bits of Dx are the sign-extended byte, N
and Z from it, V = C = 0, X unchanged (R153). -/
def Obligations.MoveaAndMoveqResult : Prop :=
  (∀ (ea : Ea) (ax : AReg) (s : State), EaReadable ea .w (s.pc + 2) s →
    exec (.movea .w ea ax) s =
      .next (((stepEa ea .w s).setA ax (((eaValue ea .w (s.pc + 2) s).setWidth 16).signExtend 32)).setPc
        (s.pc + BitVec.ofNat 32 (2 * (1 + ea.words .w))))) ∧
  (∀ (ea : Ea) (ax : AReg) (s : State), EaReadable ea .l (s.pc + 2) s →
    exec (.movea .l ea ax) s =
      .next (((stepEa ea .l s).setA ax (eaValue ea .l (s.pc + 2) s)).setPc
        (s.pc + BitVec.ofNat 32 (2 * (1 + ea.words .l))))) ∧
  (∀ (data : Byte) (dx : DReg) (s : State),
    exec (.moveq data dx) s =
      .next (((s.setD dx (data.signExtend 32)).setCcr ⟨s.ccr.x, data.msb, data == 0, false, false⟩).setPc (s.pc + 2)))

/-- MOVEM registers to memory: bit i of the mask is Di, bit 8+i is Ai; the listed registers, as they were, stand at
ascending addresses from the effective address on, each once and at 4 times the number of listed bits below its own;
nothing else changes but pc (R155). -/
def Obligations.MovemStoreResult : Prop :=
  (∀ (mask : Half) (ea : Ea) (s : State), ea.isMovem = true →
    let a := effAddr ea .l (s.pc + 2 + 2) s
    (∀ k < (maskRegs mask).length, Writable s (a + BitVec.ofNat 32 (4 * k)) 4) →
    exec (.movemStore mask ea) s =
      .next ((placeBytes ((maskRegs mask).flatMap fun r => beBytes (s.getR r) 4) a s).setPc
        (s.pc + BitVec.ofNat 32 (2 * (2 + ea.words .l))))) ∧
  (∀ (mask : Half) (r : AnyReg), r ∈ maskRegs mask ↔
    (∃ n : DReg, r = .d n ∧ mask.getLsbD n.num = true) ∨ ∃ n : AReg, r = .a n ∧ mask.getLsbD (8 + n.num) = true) ∧
  (∀ mask : Half,
    let below := fun k : Nat => ((List.range k).filter fun j => mask.getLsbD j).length
    (maskRegs mask).length = below 16 ∧
    (∀ n : DReg, mask.getLsbD n.num = true → (maskRegs mask)[below n.num]? = some (.d n)) ∧
    ∀ n : AReg, mask.getLsbD (8 + n.num) = true → (maskRegs mask)[below (8 + n.num)]? = some (.a n))

/-- MOVEM memory to registers: the k-th listed register receives the longword at the effective address plus 4k, the base
register too if it is listed; memory and flags are unchanged (R155). -/
def Obligations.MovemLoadResult : Prop :=
  ∀ (mask : Half) (ea : Ea) (s : State), ea.isMovem = true →
    let a := effAddr ea .l (s.pc + 2 + 2) s
    (∀ k < (maskRegs mask).length, Readable s (a + BitVec.ofNat 32 (4 * k)) 4) →
    exec (.movemLoad mask ea) s =
      .next (((maskRegs mask).zipIdx.foldl
        (fun t c => t.setR c.1 (valueAt s (a + BitVec.ofNat 32 (4 * c.2)) 4)) s).setPc
          (s.pc + BitVec.ofNat 32 (2 * (2 + ea.words .l))))

/-- LEA: Ax is the effective address; no access is made there, so no condition on memory is needed (R156); in the two
PC-relative modes (PC) is pc + 2 (R25, R112, R113). -/
def Obligations.LeaResult : Prop :=
  (∀ (ea : Ea) (ax : AReg) (s : State), ea.isControl = true → eaStop s.params ea (s.pc + 2) = none →
    exec (.lea ea ax) s =
      .next ((s.setA ax (effAddr ea .l (s.pc + 2) s)).setPc (s.pc + BitVec.ofNat 32 (2 * (1 + ea.words .l))))) ∧
  (∀ (d : Half) (ax : AReg) (s : State),
    exec (.lea (.pcDisp d) ax) s = .next ((s.setA ax (s.pc + 2 + d.signExtend 32)).setPc (s.pc + 4))) ∧
  (∀ (e : IndexWord) (ax : AReg) (s : State), e.reserved = false → e.long = true →
    e.scale ≠ 3 ∨ s.params.hasFpu = true →
    exec (.lea (.pcIndex e) ax) s =
      .next ((s.setA ax
        (s.pc + 2 + s.getR e.xi * BitVec.ofNat 32 (2 ^ e.scale.toNat) + e.disp.signExtend 32)).setPc (s.pc + 4)))

/-- CLR in its three sizes: zero is written at that size, N = 0, Z = 1, V = 0, C = 0, X unchanged; in a data register
CLR.B keeps bits 31 to 8 and CLR.W bits 31 to 16 (R28, R157). -/
def Obligations.ClrResult : Prop :=
  (∀ (n : DReg) (s : State),
    exec (.clrB (.dreg n)) s =
      .next (((s.setD n (s.getD n &&& 0xFFFFFF00)).setCcr ⟨s.ccr.x, false, true, false, false⟩).setPc (s.pc + 2)) ∧
    exec (.clrW (.dreg n)) s =
      .next (((s.setD n (s.getD n &&& 0xFFFF0000)).setCcr ⟨s.ccr.x, false, true, false, false⟩).setPc (s.pc + 2)) ∧
    exec (.clrL (.dreg n)) s =
      .next (((s.setD n 0).setCcr ⟨s.ccr.x, false, true, false, false⟩).setPc (s.pc + 2))) ∧
  ∀ (ea : Ea) (s : State), ea.isDataAlterable = true →
    (EaWritable ea .b (s.pc + 2) s →
      exec (.clrB ea) s =
        .next (((eaWrite ea .b (s.pc + 2) 0 s).setCcr ⟨s.ccr.x, false, true, false, false⟩).setPc
          (s.pc + BitVec.ofNat 32 (2 * (1 + ea.words .b))))) ∧
    (EaWritable ea .w (s.pc + 2) s →
      exec (.clrW ea) s =
        .next (((eaWrite ea .w (s.pc + 2) 0 s).setCcr ⟨s.ccr.x, false, true, false, false⟩).setPc
          (s.pc + BitVec.ofNat 32 (2 * (1 + ea.words .w))))) ∧
    (EaWritable ea .l (s.pc + 2) s →
      exec (.clrL ea) s =
        .next (((eaWrite ea .l (s.pc + 2) 0 s).setCcr ⟨s.ccr.x, false, true, false, false⟩).setPc
          (s.pc + BitVec.ofNat 32 (2 * (1 + ea.words .l)))))

/-! ### Logic, shift and bit instructions (43_logic_shift_bit.md) -/

/-- AND.L in both directions: the result bit by bit, N and Z from it, V = C = 0, X unchanged (R118, R171). -/
def Obligations.AndResult : Prop :=
  (∀ (ea : Ea) (dx : DReg) (s : State), ea.isData = true → EaReadable ea .l (s.pc + 2) s →
    let r := eaValue ea .l (s.pc + 2) s &&& s.getD dx
    exec (.andToD ea dx) s =
      .next ((((stepEa ea .l s).setD dx r).setCcr ⟨s.ccr.x, r.msb, r == 0, false, false⟩).setPc
        (s.pc + BitVec.ofNat 32 (2 * (1 + ea.words .l))))) ∧
  (∀ (dy : DReg) (ea : Ea) (s : State), ea.isMemoryAlterable = true → EaWritable ea .l (s.pc + 2) s →
    let r := s.getD dy &&& eaValue ea .l (s.pc + 2) s
    exec (.andToEa dy ea) s =
      .next (((eaWrite ea .l (s.pc + 2) r s).setCcr ⟨s.ccr.x, r.msb, r == 0, false, false⟩).setPc
        (s.pc + BitVec.ofNat 32 (2 * (1 + ea.words .l)))))

/-- ASR.L: an arithmetic shift by 1 to 8 (a count field of 0 stands for 8), or by Dy modulo 64; X and C are the last bit
shifted out, or C = 0 and X unchanged for a count of 0; V = 0 (R172). -/
def Obligations.AsrResult : Prop :=
  (∀ (count : BitVec 3) (dx : DReg) (s : State),
    let n := if count = 0 then 8 else count.toNat
    let r := (s.getD dx).sshiftRight n
    exec (.asrImm count dx) s =
      .next (((s.setD dx r).setCcr
        ⟨(s.getD dx).getLsbD (n - 1), r.msb, r == 0, false, (s.getD dx).getLsbD (n - 1)⟩).setPc (s.pc + 2))) ∧
  (∀ (dy dx : DReg) (s : State),
    let n := (s.getD dy).toNat % 64
    let r := (s.getD dx).sshiftRight n
    let last := (s.getD dx).getLsbD (min (n - 1) 31)
    exec (.asrReg dy dx) s =
      .next (((s.setD dx r).setCcr
        ⟨if n = 0 then s.ccr.x else last, r.msb, r == 0, false, if n = 0 then false else last⟩).setPc (s.pc + 2)))

/-- BSET: bit `b mod 32` of a data register or bit `b mod 8` of a byte in memory is set, and Z is 1 exactly where it was
0; no other flag changes; `b` is the bit-number word's low byte or Dy (R118, R173). -/
def Obligations.BsetResult : Prop :=
  (∀ (n : DReg) (b : Nat) (i : Instr) (s : State),
    (∃ num, i = .bsetImm num (.dreg n) ∧ b = num.toNat % 256) ∨ (∃ dy, i = .bsetReg dy (.dreg n) ∧ b = (s.getD dy).toNat) →
    exec i s =
      .next (((s.setD n (s.getD n ||| BitVec.twoPow 32 (b % 32))).setCcr
        { s.ccr with z := !(s.getD n).getLsbD (b % 32) }).setPc (s.pc + BitVec.ofNat 32 (2 * i.words)))) ∧
  (∀ (ea : Ea) (b : Nat) (x : Word) (i : Instr) (s : State), ea.isMemoryAlterable = true →
    (∃ num, i = .bsetImm num ea ∧ b = num.toNat % 256 ∧ x = s.pc + 2 + 2) ∨
      (∃ dy, i = .bsetReg dy ea ∧ b = (s.getD dy).toNat ∧ x = (s.pc + 2)) →
    EaWritable ea .b x s →
    exec i s =
      .next (((eaWrite ea .b x (eaValue ea .b x s ||| BitVec.twoPow 32 (b % 8)) s).setCcr
        { s.ccr with z := !(eaValue ea .b x s).getLsbD (b % 8) }).setPc (s.pc + BitVec.ofNat 32 (2 * i.words))))

/-! ### Control transfer (44_control.md) -/

/-- BRA and the fourteen conditional branches: pc, by the condition table, and nothing else; a branch that is taken goes
to pc + 2 plus the displacement byte or word, sign-extended (R181, R182). -/
def Obligations.BranchResult : Prop :=
  ∀ (disp : BranchDisp) (s : State),
    let move : Word := match disp with | .short d => d.signExtend 32 | .word d => d.signExtend 32
    let len : Word := match disp with | .short _ => 2 | .word _ => 4
    let go := fun c : Bool => Host.Outcome.next (φ := Fault) (ρ := Refusal)
      (s.setPc (if c then s.pc + 2 + move else s.pc + len))
    exec (.bra disp) s = go true ∧
    exec (.bhi disp) s = go (!s.ccr.c && !s.ccr.z) ∧
    exec (.bls disp) s = go (s.ccr.c || s.ccr.z) ∧
    exec (.bcc disp) s = go (!s.ccr.c) ∧
    exec (.bcs disp) s = go s.ccr.c ∧
    exec (.bne disp) s = go (!s.ccr.z) ∧
    exec (.beq disp) s = go s.ccr.z ∧
    exec (.bvc disp) s = go (!s.ccr.v) ∧
    exec (.bvs disp) s = go s.ccr.v ∧
    exec (.bpl disp) s = go (!s.ccr.n) ∧
    exec (.bmi disp) s = go s.ccr.n ∧
    exec (.bge disp) s = go (s.ccr.n == s.ccr.v) ∧
    exec (.blt disp) s = go (s.ccr.n != s.ccr.v) ∧
    exec (.bgt disp) s = go (!s.ccr.z && s.ccr.n == s.ccr.v) ∧
    exec (.ble disp) s = go (s.ccr.z || s.ccr.n != s.ccr.v)

/-- BSR pushes the address of the next instruction and branches; RTS pops a longword into pc (R184, R185). -/
def Obligations.CallAndReturnResult : Prop :=
  (∀ (disp : BranchDisp) (s : State), Writable s (s.getA .sp - 4) 4 →
    let move : Word := match disp with | .short d => d.signExtend 32 | .word d => d.signExtend 32
    let len : Word := match disp with | .short _ => 2 | .word _ => 4
    exec (.bsr disp) s =
      .next ((placeBytes (beBytes (s.pc + len) 4) (s.getA .sp - 4)
        (s.setA .sp (s.getA .sp - 4))).setPc (s.pc + 2 + move))) ∧
  (∀ s : State, Readable s (s.getA .sp) 4 →
    exec .rts s = .next ((s.setA .sp (s.getA .sp + 4)).setPc (valueAt s (s.getA .sp) 4)))

/-- RTS at the end of a subprogram returns to the instruction after the BSR that called it, with A7 as before the call,
if the subprogram leaves A7 and the four bytes of the return address as BSR left them (R184, R185, R245). -/
def Obligations.ReturnFollowsCall : Prop :=
  ∀ (disp : BranchDisp) (s : State), Writable s (s.getA .sp - 4) 4 →
    let move : Word := match disp with | .short d => d.signExtend 32 | .word d => d.signExtend 32
    let len : Word := match disp with | .short _ => 2 | .word _ => 4
    ∃ t, exec (.bsr disp) s = .next t ∧ t.pc = s.pc + 2 + move ∧
      ∀ u : State, u.params = t.params → u.getA .sp = t.getA .sp →
        (∀ x ∈ byteAddrs (t.getA .sp) 4, u.byteAt x.toNat = t.byteAt x.toNat) →
        ∃ v, exec .rts u = .next v ∧ v.pc = s.pc + len ∧
          v.getA .sp = s.getA .sp

/-- HALT in supervisor mode halts with pc at the HALT word and nothing else changed; in user mode it raises the privilege
violation unless the debug control bit allows it (R186, R220; that the halt is a next state with a halted flag is the
model's form of the outcome Halted, assumption 14). -/
def Obligations.HaltResult : Prop :=
  ∀ s : State,
    (s.sr.s = true ∨ s.params.userHalt = true → exec .halt s = .next { s with status := .halted }) ∧
    (s.sr.s = false → s.params.userHalt = false → exec .halt s = takeException .privilegeViolation s)

/-! ### Exceptions (60_exceptions.md) -/

/-- Under TRAP_MODEL = terminal an exception ends the run with the record (cause and info, pc); the faulted state carries
the record, keeps everything else, is not final and takes no further step (R200). -/
def Obligations.TerminalExceptionRecords : Prop :=
  ∀ (c : Cause) (s : State), s.params.trapModel = .terminal → s.status = .running →
    ∃ f, takeException c s = .fault (.exception ⟨c, s.pc⟩ f) ∧ f = { s with faultRecord := some ⟨c, s.pc⟩ } ∧
      ¬Final f ∧ step f = .fault (.alreadyFaulted ⟨c, s.pc⟩)

/-- Exception entry under TRAP_MODEL = vectored, where the frame and the vector stand in plain memory: the frame's two
longwords, S set and T clear, A7 at the frame, pc from the vector table; nothing else changes (R214). -/
def Obligations.VectoredExceptionEntry : Prop :=
  ∀ (c : Cause) (s : State), s.params.trapModel = .vectored →
    let sp0 := s.getA .sp
    let sp1 := (sp0 - 8) &&& ~~~3#32
    let fs := c.faultStatus
    let frame := ((4#32 + (sp0 &&& 3#32)) <<< 28) ||| ((fs.extractLsb' 2 2).setWidth 32 <<< 26) |||
      (c.vector.setWidth 32 <<< 18) ||| ((fs.extractLsb' 0 2).setWidth 32 <<< 16) ||| s.srWord.setWidth 32
    let stacked := placeBytes (beBytes frame 4 ++ beBytes s.pc 4) sp1 s
    let entry := (s.vbr &&& 0xFFF00000) + 4 * c.vector.setWidth 32
    Writable s sp1 4 → Writable s (sp1 + 4) 4 → Readable s entry 4 →
    takeException c s =
      .next (((stacked.setSr { s.sr with s := true, t := false }).setA .sp sp1).setPc (valueAt stacked entry 4))

/-- The vectors and fault status fields of the causes (R201, R215, R216; the field of an odd pc and of a misaligned
access is deduced, assumption 11, and that of an index word is free, assumption 10). -/
def Obligations.VectorsAndFaultStatus : Prop :=
  ∀ (a : Word) (k : Access) (rom : Bool) (on : AddressFault),
    (Cause.accessError a k rom).vector = 2 ∧ (Cause.addressError a on).vector = 3 ∧
    Cause.privilegeViolation.vector = 8 ∧ Cause.formatError.vector = 14 ∧
    (Cause.accessError a .fetch rom).faultStatus = 0b0100 ∧ (Cause.accessError a .write false).faultStatus = 0b1000 ∧
    (Cause.accessError a .write true).faultStatus = 0b1001 ∧ (Cause.accessError a .read rom).faultStatus = 0b1100 ∧
    (Cause.addressError a .oddPc).faultStatus = 0b0100 ∧
    (Cause.addressError a (.data .write)).faultStatus = 0b1000 ∧
    (Cause.addressError a (.data .read)).faultStatus = 0b1100 ∧
    Cause.privilegeViolation.faultStatus = 0 ∧ Cause.formatError.faultStatus = 0

/-- An access or address error in whose entry a further access error is raised is a fault-on-fault: the processor halts,
and takes no further step (R47, R49, R201, R214, R217). The error may be met at the frame's first longword, at its
second, or at the vector table's entry; a byte outside MEM, or in rom for the frame. Bytes outside the frame are as
before, and all are where the first longword is not written (where its bad byte is not its first, that nothing of the
longword is written is the model's choice, assumption 17). -/
def Obligations.FaultOnFaultHalts : Prop :=
  ∀ (c : Cause) (s : State), s.params.trapModel = .vectored → c.isAccessOrAddress = true →
    let sp1 := (s.getA .sp - 8) &&& ~~~3#32
    let entry := (s.vbr &&& 0xFFF00000) + 4 * c.vector.setWidth 32
    let bad := fun a : Word => (∀ x ∈ byteAddrs a 4, inCode s.params x.toNat = false) ∧
      ∃ x ∈ byteAddrs a 4, kindAt s.params x.toNat = none ∨ kindAt s.params x.toNat = some .rom
    (bad sp1 → ∃ t, takeException c s = .next t ∧ t.status = .faultOnFault ∧ step t = .fault .faultOnFault ∧
      t.mem = s.mem) ∧
    (Writable s sp1 4 →
      bad (sp1 + 4) ∨ Writable s (sp1 + 4) 4 ∧ (∃ x ∈ byteAddrs entry 4, kindAt s.params x.toNat = none) →
      ∃ t, takeException c s = .next t ∧ t.status = .faultOnFault ∧ step t = .fault .faultOnFault ∧
        ∀ y, Outside y sp1 8 → t.byteAt y = s.byteAt y)

/-- The return of R217 undoes exception entry: from the state the entry gives, it restores the status register, pc and
A7, and keeps D0 to D7 (R214, R217; that no instruction of the table reaches the return is assumption 27). -/
def Obligations.ReturnUndoesEntry : Prop :=
  ∀ (c : Cause) (s t : State), s.params.trapModel = .vectored →
    Writable s ((s.getA .sp - 8) &&& ~~~3#32) 4 → Writable s (((s.getA .sp - 8) &&& ~~~3#32) + 4) 4 →
    Readable s ((s.vbr &&& 0xFFF00000) + 4 * c.vector.setWidth 32) 4 → takeException c s = .next t →
    ∃ u, returnFromException t = .ok () u ∧ u.srWord = s.srWord ∧ u.pc = s.pc ∧ u.getA .sp = s.getA .sp ∧
      u.d = s.d ∧ u.ccr = s.ccr

/-- Where an operand's access faults the instruction takes the exception (R130, R208): the read of a source or of a
destination that is read first, the write of a destination, MOVEM's k-th transfer, BSR's push, RTS's read. The bad byte
is any of a read's or an aligned write's, and the first of a split write (for a later one, whose earlier bytes are then
written, see MisalignedAccess). The model's choices in it: an aligned write that meets a bad byte writes nothing
(assumption 17); AccessError comes before StoreToCode for one byte (assumption 16) and where a later byte of an aligned
write is in LAUNCH.code (assumption 36), and AddressError comes before both (assumption 38). An address
register that (An)+ or -(An) stepped is unspecified in the state it is taken in (that it is a free value there under
vectored too is the model's choice, assumption 8); a MOVE whose destination faults has made its source's step (R119);
MOVEM's earlier transfers stay done (R155); RTS leaves A7 as it was, BSR has moved it (R184, R185). An index word's
check is taken before its own operand's register is stepped (R114). A MOVE's source is read before its destination's
words are fetched, wherever they stand (R206). -/
def Obligations.OperandFaultsAreTaken : Prop :=
  (∀ (i : Instr) (sz : Size) (ea : Ea) (x : Word) (dst : Ea) (dx : DReg) (ax : AReg) (num : Half) (c : Cause)
      (s : State),
    sz = .l ∧ x = s.pc + 2 ∧ i ∈ [.addToD ea dx, .addToEa dx ea, .subToD ea dx, .subToEa dx ea, .andToD ea dx,
        .andToEa dx ea, .adda ea ax, .cmpa ea ax, .movea .l ea ax, .moveL ea dst] ∨
      sz = .w ∧ x = s.pc + 2 ∧ i ∈ [.movea .w ea ax, .moveW ea dst] ∨
      sz = .b ∧ x = s.pc + 2 ∧ i ∈ [.moveB ea dst, .bsetReg dx ea] ∨ sz = .b ∧ x = s.pc + 2 + 2 ∧ i = .bsetImm num ea →
    eaInMemory ea = true →
    (eaStop s.params ea x = some (.cause c) → exec i s = takeException c s) ∧
    (eaStop s.params ea x = none → ReadFaults s (effAddr ea sz x s) sz.bytes c →
      exec i s = takeException c (unspecify ea s))) ∧
  (∀ (ea : Ea) (c : Cause) (ax : AReg) (s : State), eaStop s.params ea (s.pc + 2) = some (.cause c) →
    exec (.lea ea ax) s = takeException c s ∧ exec (.clrB ea) s = takeException c s ∧
    exec (.clrW ea) s = takeException c s ∧ exec (.clrL ea) s = takeException c s) ∧
  (∀ (i : Instr) (sz : Size) (ea : Ea) (x : Word) (dy : DReg) (num : Half) (c : Cause) (s : State),
    sz = .b ∧ x = s.pc + 2 ∧ i = .clrB ea ∨ sz = .w ∧ x = s.pc + 2 ∧ i = .clrW ea ∨
      sz = .l ∧ x = s.pc + 2 ∧ i = .clrL ea ∨
      EaReadable ea sz x s ∧ (sz = .l ∧ x = s.pc + 2 ∧ i ∈ [.addToEa dy ea, .subToEa dy ea, .andToEa dy ea] ∨
        sz = .b ∧ x = s.pc + 2 ∧ i = .bsetReg dy ea ∨ sz = .b ∧ x = s.pc + 2 + 2 ∧ i = .bsetImm num ea) →
    eaInMemory ea = true → eaStop s.params ea x = none → WriteFaults s (effAddr ea sz x s) sz.bytes c →
    exec i s = takeException c (unspecify ea s)) ∧
  (∀ (i : Instr) (sz : Size) (src dst : Ea) (c : Cause) (s : State),
    sz = .b ∧ i = .moveB src dst ∨ sz = .w ∧ i = .moveW src dst ∨ sz = .l ∧ i = .moveL src dst →
    (∀ n, src = .areg n → dst ≠ .postinc n ∧ dst ≠ .predec n) → eaInMemory dst = true →
    EaReadable src sz (s.pc + 2) s →
    let s1 := stepEa src sz s
    let x := s.pc + 2 + BitVec.ofNat 32 (2 * src.words sz)
    (eaStop s.params dst x = some (.cause c) → exec i s = takeException c (unspecify src s1)) ∧
    (eaStop s.params dst x = none → WriteFaults s1 (effAddr dst sz x s1) sz.bytes c →
      exec i s = takeException c (unspecify src (unspecify dst s1)))) ∧
  (∀ (mask : Half) (ea : Ea) (k : Nat) (c : Cause) (s : State), ea.isMovem = true → k < (maskRegs mask).length →
    let a := effAddr ea .l (s.pc + 2 + 2) s
    ((∀ j < k, Writable s (a + BitVec.ofNat 32 (4 * j)) 4) → WriteFaults s (a + BitVec.ofNat 32 (4 * k)) 4 c →
      exec (.movemStore mask ea) s =
        takeException c (placeBytes (((maskRegs mask).take k).flatMap fun r => beBytes (s.getR r) 4) a s)) ∧
    ((∀ j < k, Readable s (a + BitVec.ofNat 32 (4 * j)) 4) → ReadFaults s (a + BitVec.ofNat 32 (4 * k)) 4 c →
      exec (.movemLoad mask ea) s =
        takeException c (((maskRegs mask).take k).zipIdx.foldl
          (fun t r => t.setR r.1 (valueAt s (a + BitVec.ofNat 32 (4 * r.2)) 4)) s))) ∧
  (∀ (disp : BranchDisp) (c : Cause) (s : State),
    (WriteFaults s (s.getA .sp - 4) 4 c →
      exec (.bsr disp) s = takeException c (s.setA .sp (s.getA .sp - 4))) ∧
    (ReadFaults s (s.getA .sp) 4 c → exec .rts s = takeException c s)) ∧
  (∀ (i : Instr) (sz : Size) (src dst : Ea) (c : Cause) (s : State), s.status = .running → s.faultRecord = none →
    s.pc.getLsbD 0 = false → PlainBytes s s.pc (2 + 2 * src.words sz) →
    decode (opWordAt s) (extWordsAt s (2 * src.words sz)) = .ok i → s.pc.toNat + 2 * i.words ≤ 2 ^ 32 →
    sz = .b ∧ i = .moveB src dst ∨ sz = .w ∧ i = .moveW src dst ∨ sz = .l ∧ i = .moveL src dst →
    eaInMemory src = true → eaStop s.params src (s.pc + 2) = none →
    ReadFaults s (effAddr src sz (s.pc + 2) s) sz.bytes c → step s = takeException c (unspecify src s))

/-! ### Frames: what an instruction leaves as it was, also where its operand is in a device. `TRAP_MODEL` = terminal
(R6) leaves out the exception entry, whose next state is the statement above. -/

/-- ADD, SUB and AND to a data register: the other data registers, every address register that the source does not
step, the status register's high byte and every byte of memory are unchanged; AND leaves X (R27, R132, R135, R171). -/
def Obligations.FrameOfRegisterResults : Prop :=
  ∀ (i : Instr) (ea : Ea) (dx : DReg) (s t : State),
    i = .addToD ea dx ∨ i = .subToD ea dx ∨ i = .andToD ea dx → s.params.trapModel = .terminal → exec i s = .next t →
    (∀ m, m ≠ dx → t.getD m = s.getD m) ∧ (∀ m, steppedReg ea ≠ some m → t.getA m = s.getA m) ∧
    (i = .andToD ea dx → t.ccr.x = s.ccr.x) ∧ t.sr = s.sr ∧ t.vbr = s.vbr ∧ t.status = s.status ∧
    t.faultRecord = s.faultRecord ∧ ∀ y, t.byteAt y = s.byteAt y

/-- ADDA, MOVEA, LEA and CMPA: every data register, every address register but Ax (CMPA: all of them) and the one the
source steps, the status register's high byte and every byte of memory are unchanged; ADDA, MOVEA and LEA change no
flag, CMPA leaves X (R27, R133, R136, R152, R156). -/
def Obligations.FrameOfAddressResults : Prop :=
  ∀ (i : Instr) (ea : Ea) (ax : AReg) (s t : State),
    i = .adda ea ax ∨ i = .lea ea ax ∨ i = .cmpa ea ax ∨ (∃ sz, i = .movea sz ea ax) →
    s.params.trapModel = .terminal → exec i s = .next t →
    t.d = s.d ∧ (∀ m, (m ≠ ax ∨ i = .cmpa ea ax) → steppedReg ea ≠ some m → t.getA m = s.getA m) ∧
    (i ≠ .cmpa ea ax → t.ccr = s.ccr) ∧ t.ccr.x = s.ccr.x ∧ t.sr = s.sr ∧ t.vbr = s.vbr ∧ t.status = s.status ∧
    t.faultRecord = s.faultRecord ∧ ∀ y, t.byteAt y = s.byteAt y

/-- ADD, SUB and AND to memory: every data register, every address register that the destination does not step, the
status register's high byte, and every byte outside the longword at the destination's effective address are unchanged;
AND leaves X (R27, R118, R132, R135, R171). -/
def Obligations.FrameOfArithmeticStores : Prop :=
  ∀ (i : Instr) (ea : Ea) (dy : DReg) (s t : State),
    i = .addToEa dy ea ∨ i = .subToEa dy ea ∨ i = .andToEa dy ea → ea.isMemoryAlterable = true →
    s.params.trapModel = .terminal → exec i s = .next t →
    t.d = s.d ∧ (∀ m, steppedReg ea ≠ some m → t.getA m = s.getA m) ∧
    (i = .andToEa dy ea → t.ccr.x = s.ccr.x) ∧ t.sr = s.sr ∧ t.vbr = s.vbr ∧ t.status = s.status ∧
    t.faultRecord = s.faultRecord ∧ ∀ y, Outside y (effAddr ea .l (s.pc + 2) s) 4 → t.byteAt y = s.byteAt y

/-- CLR in its three sizes and BSET: every data register but a destination Dx (for CLR, its bits above the size are
unchanged too), every address register that the destination does not step, X (for BSET every flag but Z), the status
register's high byte, and every byte outside the destination's bytes are unchanged (R27, R28, R157, R173). -/
def Obligations.FrameOfClrAndBset : Prop :=
  ∀ (i : Instr) (sz : Size) (ea : Ea) (x : Word) (s t : State),
    sz = .b ∧ i = .clrB ea ∧ x = s.pc + 2 ∨ sz = .w ∧ i = .clrW ea ∧ x = s.pc + 2 ∨
      sz = .l ∧ i = .clrL ea ∧ x = s.pc + 2 ∨ (∃ num, sz = .b ∧ i = .bsetImm num ea ∧ x = s.pc + 2 + 2) ∨
      (∃ dy, sz = .b ∧ i = .bsetReg dy ea ∧ x = s.pc + 2) →
    i.modesOk = true → s.params.trapModel = .terminal → exec i s = .next t →
    (∀ m, ea ≠ .dreg m → t.getD m = s.getD m) ∧
    (∀ m k, ea = .dreg m → i = .clrB ea ∨ i = .clrW ea → sz.bits ≤ k →
      (t.getD m).getLsbD k = (s.getD m).getLsbD k) ∧
    (∀ m, steppedReg ea ≠ some m → t.getA m = s.getA m) ∧ t.ccr.x = s.ccr.x ∧
    ((∃ num, i = .bsetImm num ea) ∨ (∃ dy, i = .bsetReg dy ea) →
      t.ccr.n = s.ccr.n ∧ t.ccr.v = s.ccr.v ∧ t.ccr.c = s.ccr.c) ∧
    t.sr = s.sr ∧ t.vbr = s.vbr ∧ t.status = s.status ∧ t.faultRecord = s.faultRecord ∧
    ∀ y, (eaInMemory ea = true → Outside y (effAddr ea sz x s) sz.bytes) → t.byteAt y = s.byteAt y

/-- MOVE in its three sizes: every data register but a destination Dx (whose bits above the size are unchanged), every
address register that neither operand steps, X, the status register's high byte, and every byte outside the
destination's bytes, at the address computed after the source is read, are unchanged (R27, R28, R119, R151). -/
def Obligations.FrameOfMove : Prop :=
  ∀ (i : Instr) (sz : Size) (src dst : Ea) (s t : State),
    sz = .b ∧ i = .moveB src dst ∨ sz = .w ∧ i = .moveW src dst ∨ sz = .l ∧ i = .moveL src dst →
    i.modesOk = true → s.params.trapModel = .terminal → exec i s = .next t →
    (∀ m, dst ≠ .dreg m → t.getD m = s.getD m) ∧
    (∀ m k, dst = .dreg m → sz.bits ≤ k → (t.getD m).getLsbD k = (s.getD m).getLsbD k) ∧
    (∀ m, steppedReg src ≠ some m → steppedReg dst ≠ some m → t.getA m = s.getA m) ∧
    t.ccr.x = s.ccr.x ∧ t.ccr.v = false ∧ t.ccr.c = false ∧ t.sr = s.sr ∧ t.vbr = s.vbr ∧ t.status = s.status ∧
    t.faultRecord = s.faultRecord ∧
    ∀ y, (eaInMemory dst = true →
      Outside y (effAddr dst sz (s.pc + 2 + BitVec.ofNat 32 (2 * src.words sz)) (stepEa src sz s)) sz.bytes) →
      t.byteAt y = s.byteAt y

/-- MOVEM, BSR and RTS: no flag changes; MOVEM to memory changes no register and no byte outside the longwords stored,
MOVEM to registers changes listed registers only and no byte; BSR and RTS change A7 only, BSR no byte but the pushed
longword's and RTS none (R27, R155, R184, R185). -/
def Obligations.FrameOfMovemAndCalls : Prop :=
  ∀ (mask : Half) (ea : Ea) (disp : BranchDisp) (s t : State), s.params.trapModel = .terminal →
    (ea.isMovem = true → exec (.movemStore mask ea) s = .next t →
      t.d = s.d ∧ t.a = s.a ∧ t.ccr = s.ccr ∧ t.sr = s.sr ∧
      ∀ y, Outside y (effAddr ea .l (s.pc + 2 + 2) s) (4 * (maskRegs mask).length) → t.byteAt y = s.byteAt y) ∧
    (ea.isMovem = true → exec (.movemLoad mask ea) s = .next t →
      (∀ r, r ∉ maskRegs mask → t.getR r = s.getR r) ∧ t.ccr = s.ccr ∧ t.sr = s.sr ∧
      ∀ y, t.byteAt y = s.byteAt y) ∧
    (exec (.bsr disp) s = .next t →
      t.d = s.d ∧ t.a = (s.setA .sp (s.getA .sp - 4)).a ∧ t.ccr = s.ccr ∧ t.sr = s.sr ∧
      ∀ y, Outside y (s.getA .sp - 4) 4 → t.byteAt y = s.byteAt y) ∧
    (exec .rts s = .next t →
      t.d = s.d ∧ t.a = (s.setA .sp (s.getA .sp + 4)).a ∧ t.ccr = s.ccr ∧ t.sr = s.sr ∧
      ∀ y, t.byteAt y = s.byteAt y)
end

