-- ==== Sys2Proof/Laws/State.lean ====
section
/-! SUPPORT. What each update of the state leaves as it was, one lemma for each field and update, and the registers'
read-after-write laws. -/

namespace Sys2Proof.Machine

@[simp] theorem State.setD_a (s : State) (n : DReg) (v : Word) : (s.setD n v).a = s.a := rfl
@[simp] theorem State.setD_pc (s : State) (n : DReg) (v : Word) : (s.setD n v).pc = s.pc := rfl
@[simp] theorem State.setD_ccr (s : State) (n : DReg) (v : Word) : (s.setD n v).ccr = s.ccr := rfl
@[simp] theorem State.setD_sr (s : State) (n : DReg) (v : Word) : (s.setD n v).sr = s.sr := rfl
@[simp] theorem State.setD_vbr (s : State) (n : DReg) (v : Word) : (s.setD n v).vbr = s.vbr := rfl
@[simp] theorem State.setD_mem (s : State) (n : DReg) (v : Word) : (s.setD n v).mem = s.mem := rfl
@[simp] theorem State.setD_status (s : State) (n : DReg) (v : Word) : (s.setD n v).status = s.status := rfl
@[simp] theorem State.setD_faultRecord (s : State) (n : DReg) (v : Word) : (s.setD n v).faultRecord = s.faultRecord := rfl
@[simp] theorem State.setD_deviceLog (s : State) (n : DReg) (v : Word) : (s.setD n v).deviceLog = s.deviceLog := rfl
@[simp] theorem State.setD_draws (s : State) (n : DReg) (v : Word) : (s.setD n v).draws = s.draws := rfl
@[simp] theorem State.setD_params (s : State) (n : DReg) (v : Word) : (s.setD n v).params = s.params := rfl

@[simp] theorem State.setD_getA (s : State) (n : DReg) (v : Word) (m : AReg) : (s.setD n v).getA m = s.getA m := rfl
@[simp] theorem State.setD_byteAt (s : State) (n : DReg) (v : Word) (y : Nat) : (s.setD n v).byteAt y = s.byteAt y := rfl

@[simp] theorem State.setA_d (s : State) (n : AReg) (v : Word) : (s.setA n v).d = s.d := rfl
@[simp] theorem State.setA_pc (s : State) (n : AReg) (v : Word) : (s.setA n v).pc = s.pc := rfl
@[simp] theorem State.setA_ccr (s : State) (n : AReg) (v : Word) : (s.setA n v).ccr = s.ccr := rfl
@[simp] theorem State.setA_sr (s : State) (n : AReg) (v : Word) : (s.setA n v).sr = s.sr := rfl
@[simp] theorem State.setA_vbr (s : State) (n : AReg) (v : Word) : (s.setA n v).vbr = s.vbr := rfl
@[simp] theorem State.setA_mem (s : State) (n : AReg) (v : Word) : (s.setA n v).mem = s.mem := rfl
@[simp] theorem State.setA_status (s : State) (n : AReg) (v : Word) : (s.setA n v).status = s.status := rfl
@[simp] theorem State.setA_faultRecord (s : State) (n : AReg) (v : Word) : (s.setA n v).faultRecord = s.faultRecord := rfl
@[simp] theorem State.setA_deviceLog (s : State) (n : AReg) (v : Word) : (s.setA n v).deviceLog = s.deviceLog := rfl
@[simp] theorem State.setA_draws (s : State) (n : AReg) (v : Word) : (s.setA n v).draws = s.draws := rfl
@[simp] theorem State.setA_params (s : State) (n : AReg) (v : Word) : (s.setA n v).params = s.params := rfl

@[simp] theorem State.setA_getD (s : State) (n : AReg) (v : Word) (m : DReg) : (s.setA n v).getD m = s.getD m := rfl
@[simp] theorem State.setA_byteAt (s : State) (n : AReg) (v : Word) (y : Nat) : (s.setA n v).byteAt y = s.byteAt y := rfl

@[simp] theorem State.setCcr_d (s : State) (f : Ccr) : (s.setCcr f).d = s.d := rfl
@[simp] theorem State.setCcr_a (s : State) (f : Ccr) : (s.setCcr f).a = s.a := rfl
@[simp] theorem State.setCcr_pc (s : State) (f : Ccr) : (s.setCcr f).pc = s.pc := rfl
@[simp] theorem State.setCcr_ccr (s : State) (f : Ccr) : (s.setCcr f).ccr = f := rfl
@[simp] theorem State.setCcr_sr (s : State) (f : Ccr) : (s.setCcr f).sr = s.sr := rfl
@[simp] theorem State.setCcr_vbr (s : State) (f : Ccr) : (s.setCcr f).vbr = s.vbr := rfl
@[simp] theorem State.setCcr_mem (s : State) (f : Ccr) : (s.setCcr f).mem = s.mem := rfl
@[simp] theorem State.setCcr_status (s : State) (f : Ccr) : (s.setCcr f).status = s.status := rfl
@[simp] theorem State.setCcr_faultRecord (s : State) (f : Ccr) : (s.setCcr f).faultRecord = s.faultRecord := rfl
@[simp] theorem State.setCcr_deviceLog (s : State) (f : Ccr) : (s.setCcr f).deviceLog = s.deviceLog := rfl
@[simp] theorem State.setCcr_draws (s : State) (f : Ccr) : (s.setCcr f).draws = s.draws := rfl
@[simp] theorem State.setCcr_params (s : State) (f : Ccr) : (s.setCcr f).params = s.params := rfl

@[simp] theorem State.setCcr_getD (s : State) (f : Ccr) (m : DReg) : (s.setCcr f).getD m = s.getD m := rfl
@[simp] theorem State.setCcr_getA (s : State) (f : Ccr) (m : AReg) : (s.setCcr f).getA m = s.getA m := rfl
@[simp] theorem State.setCcr_byteAt (s : State) (f : Ccr) (y : Nat) : (s.setCcr f).byteAt y = s.byteAt y := rfl

@[simp] theorem State.setPc_d (s : State) (v : Word) : (s.setPc v).d = s.d := rfl
@[simp] theorem State.setPc_a (s : State) (v : Word) : (s.setPc v).a = s.a := rfl
@[simp] theorem State.setPc_pc (s : State) (v : Word) : (s.setPc v).pc = v := rfl
@[simp] theorem State.setPc_ccr (s : State) (v : Word) : (s.setPc v).ccr = s.ccr := rfl
@[simp] theorem State.setPc_sr (s : State) (v : Word) : (s.setPc v).sr = s.sr := rfl
@[simp] theorem State.setPc_vbr (s : State) (v : Word) : (s.setPc v).vbr = s.vbr := rfl
@[simp] theorem State.setPc_mem (s : State) (v : Word) : (s.setPc v).mem = s.mem := rfl
@[simp] theorem State.setPc_status (s : State) (v : Word) : (s.setPc v).status = s.status := rfl
@[simp] theorem State.setPc_faultRecord (s : State) (v : Word) : (s.setPc v).faultRecord = s.faultRecord := rfl
@[simp] theorem State.setPc_deviceLog (s : State) (v : Word) : (s.setPc v).deviceLog = s.deviceLog := rfl
@[simp] theorem State.setPc_draws (s : State) (v : Word) : (s.setPc v).draws = s.draws := rfl
@[simp] theorem State.setPc_params (s : State) (v : Word) : (s.setPc v).params = s.params := rfl

@[simp] theorem State.setPc_getD (s : State) (v : Word) (m : DReg) : (s.setPc v).getD m = s.getD m := rfl
@[simp] theorem State.setPc_getA (s : State) (v : Word) (m : AReg) : (s.setPc v).getA m = s.getA m := rfl
@[simp] theorem State.setPc_byteAt (s : State) (v : Word) (y : Nat) : (s.setPc v).byteAt y = s.byteAt y := rfl

@[simp] theorem State.setSr_d (s : State) (h : SrHigh) : (s.setSr h).d = s.d := rfl
@[simp] theorem State.setSr_a (s : State) (h : SrHigh) : (s.setSr h).a = s.a := rfl
@[simp] theorem State.setSr_pc (s : State) (h : SrHigh) : (s.setSr h).pc = s.pc := rfl
@[simp] theorem State.setSr_ccr (s : State) (h : SrHigh) : (s.setSr h).ccr = s.ccr := rfl
@[simp] theorem State.setSr_sr (s : State) (h : SrHigh) : (s.setSr h).sr = h := rfl
@[simp] theorem State.setSr_vbr (s : State) (h : SrHigh) : (s.setSr h).vbr = s.vbr := rfl
@[simp] theorem State.setSr_mem (s : State) (h : SrHigh) : (s.setSr h).mem = s.mem := rfl
@[simp] theorem State.setSr_status (s : State) (h : SrHigh) : (s.setSr h).status = s.status := rfl
@[simp] theorem State.setSr_faultRecord (s : State) (h : SrHigh) : (s.setSr h).faultRecord = s.faultRecord := rfl
@[simp] theorem State.setSr_deviceLog (s : State) (h : SrHigh) : (s.setSr h).deviceLog = s.deviceLog := rfl
@[simp] theorem State.setSr_draws (s : State) (h : SrHigh) : (s.setSr h).draws = s.draws := rfl
@[simp] theorem State.setSr_params (s : State) (h : SrHigh) : (s.setSr h).params = s.params := rfl

@[simp] theorem State.setSr_getD (s : State) (h : SrHigh) (m : DReg) : (s.setSr h).getD m = s.getD m := rfl
@[simp] theorem State.setSr_getA (s : State) (h : SrHigh) (m : AReg) : (s.setSr h).getA m = s.getA m := rfl
@[simp] theorem State.setSr_byteAt (s : State) (h : SrHigh) (y : Nat) : (s.setSr h).byteAt y = s.byteAt y := rfl

@[simp] theorem State.bump_d (s : State) : (s.bump).d = s.d := rfl
@[simp] theorem State.bump_a (s : State) : (s.bump).a = s.a := rfl
@[simp] theorem State.bump_pc (s : State) : (s.bump).pc = s.pc := rfl
@[simp] theorem State.bump_ccr (s : State) : (s.bump).ccr = s.ccr := rfl
@[simp] theorem State.bump_sr (s : State) : (s.bump).sr = s.sr := rfl
@[simp] theorem State.bump_vbr (s : State) : (s.bump).vbr = s.vbr := rfl
@[simp] theorem State.bump_mem (s : State) : (s.bump).mem = s.mem := rfl
@[simp] theorem State.bump_status (s : State) : (s.bump).status = s.status := rfl
@[simp] theorem State.bump_faultRecord (s : State) : (s.bump).faultRecord = s.faultRecord := rfl
@[simp] theorem State.bump_deviceLog (s : State) : (s.bump).deviceLog = s.deviceLog := rfl
@[simp] theorem State.bump_draws (s : State) : (s.bump).draws = s.draws + 1 := rfl
@[simp] theorem State.bump_params (s : State) : (s.bump).params = s.params := rfl

@[simp] theorem State.bump_getD (s : State) (m : DReg) : (s.bump).getD m = s.getD m := rfl
@[simp] theorem State.bump_getA (s : State) (m : AReg) : (s.bump).getA m = s.getA m := rfl
@[simp] theorem State.bump_byteAt (s : State) (y : Nat) : (s.bump).byteAt y = s.byteAt y := rfl

@[simp] theorem State.setVbr_d (s : State) (v : Word) : (s.setVbr v).d = s.d := rfl
@[simp] theorem State.setVbr_a (s : State) (v : Word) : (s.setVbr v).a = s.a := rfl
@[simp] theorem State.setVbr_pc (s : State) (v : Word) : (s.setVbr v).pc = s.pc := rfl
@[simp] theorem State.setVbr_ccr (s : State) (v : Word) : (s.setVbr v).ccr = s.ccr := rfl
@[simp] theorem State.setVbr_sr (s : State) (v : Word) : (s.setVbr v).sr = s.sr := rfl
@[simp] theorem State.setVbr_vbr (s : State) (v : Word) : (s.setVbr v).vbr = v &&& 0xFFF00000 := rfl
@[simp] theorem State.setVbr_mem (s : State) (v : Word) : (s.setVbr v).mem = s.mem := rfl
@[simp] theorem State.setVbr_status (s : State) (v : Word) : (s.setVbr v).status = s.status := rfl
@[simp] theorem State.setVbr_faultRecord (s : State) (v : Word) : (s.setVbr v).faultRecord = s.faultRecord := rfl
@[simp] theorem State.setVbr_deviceLog (s : State) (v : Word) : (s.setVbr v).deviceLog = s.deviceLog := rfl
@[simp] theorem State.setVbr_draws (s : State) (v : Word) : (s.setVbr v).draws = s.draws := rfl
@[simp] theorem State.setVbr_params (s : State) (v : Word) : (s.setVbr v).params = s.params := rfl

@[simp] theorem State.setVbr_getD (s : State) (v : Word) (m : DReg) : (s.setVbr v).getD m = s.getD m := rfl
@[simp] theorem State.setVbr_getA (s : State) (v : Word) (m : AReg) : (s.setVbr v).getA m = s.getA m := rfl
@[simp] theorem State.setVbr_byteAt (s : State) (v : Word) (y : Nat) : (s.setVbr v).byteAt y = s.byteAt y := rfl

@[simp] theorem State.setByte_d (s : State) (x : Nat) (b : Byte) : (s.setByte x b).d = s.d := rfl
@[simp] theorem State.setByte_a (s : State) (x : Nat) (b : Byte) : (s.setByte x b).a = s.a := rfl
@[simp] theorem State.setByte_pc (s : State) (x : Nat) (b : Byte) : (s.setByte x b).pc = s.pc := rfl
@[simp] theorem State.setByte_ccr (s : State) (x : Nat) (b : Byte) : (s.setByte x b).ccr = s.ccr := rfl
@[simp] theorem State.setByte_sr (s : State) (x : Nat) (b : Byte) : (s.setByte x b).sr = s.sr := rfl
@[simp] theorem State.setByte_vbr (s : State) (x : Nat) (b : Byte) : (s.setByte x b).vbr = s.vbr := rfl
@[simp] theorem State.setByte_mem (s : State) (x : Nat) (b : Byte) : (s.setByte x b).mem = Memory.set s.mem x b := rfl
@[simp] theorem State.setByte_status (s : State) (x : Nat) (b : Byte) : (s.setByte x b).status = s.status := rfl
@[simp] theorem State.setByte_faultRecord (s : State) (x : Nat) (b : Byte) : (s.setByte x b).faultRecord = s.faultRecord := rfl
@[simp] theorem State.setByte_deviceLog (s : State) (x : Nat) (b : Byte) : (s.setByte x b).deviceLog = s.deviceLog := rfl
@[simp] theorem State.setByte_draws (s : State) (x : Nat) (b : Byte) : (s.setByte x b).draws = s.draws := rfl
@[simp] theorem State.setByte_params (s : State) (x : Nat) (b : Byte) : (s.setByte x b).params = s.params := rfl

@[simp] theorem State.setByte_getD (s : State) (x : Nat) (b : Byte) (m : DReg) : (s.setByte x b).getD m = s.getD m := rfl
@[simp] theorem State.setByte_getA (s : State) (x : Nat) (b : Byte) (m : AReg) : (s.setByte x b).getA m = s.getA m := rfl

@[simp] theorem State.haltOnFault_d (s : State) : (s.haltOnFault).d = s.d := rfl
@[simp] theorem State.haltOnFault_a (s : State) : (s.haltOnFault).a = s.a := rfl
@[simp] theorem State.haltOnFault_pc (s : State) : (s.haltOnFault).pc = s.pc := rfl
@[simp] theorem State.haltOnFault_ccr (s : State) : (s.haltOnFault).ccr = s.ccr := rfl
@[simp] theorem State.haltOnFault_sr (s : State) : (s.haltOnFault).sr = s.sr := rfl
@[simp] theorem State.haltOnFault_vbr (s : State) : (s.haltOnFault).vbr = s.vbr := rfl
@[simp] theorem State.haltOnFault_mem (s : State) : (s.haltOnFault).mem = s.mem := rfl
@[simp] theorem State.haltOnFault_status (s : State) : (s.haltOnFault).status = .faultOnFault := rfl
@[simp] theorem State.haltOnFault_faultRecord (s : State) : (s.haltOnFault).faultRecord = s.faultRecord := rfl
@[simp] theorem State.haltOnFault_deviceLog (s : State) : (s.haltOnFault).deviceLog = s.deviceLog := rfl
@[simp] theorem State.haltOnFault_draws (s : State) : (s.haltOnFault).draws = s.draws := rfl
@[simp] theorem State.haltOnFault_params (s : State) : (s.haltOnFault).params = s.params := rfl

@[simp] theorem State.haltOnFault_getD (s : State) (m : DReg) : (s.haltOnFault).getD m = s.getD m := rfl
@[simp] theorem State.haltOnFault_getA (s : State) (m : AReg) : (s.haltOnFault).getA m = s.getA m := rfl
@[simp] theorem State.haltOnFault_byteAt (s : State) (y : Nat) : (s.haltOnFault).byteAt y = s.byteAt y := rfl

theorem State.setD_getD (s : State) (n m : DReg) (v : Word) :
    (s.setD n v).getD m = if m = n then v else s.getD m := by
  obtain ⟨n, hn⟩ := n
  obtain ⟨m, hm⟩ := m
  simp only [State.setD, State.getD, DReg.mk.injEq, Fin.mk.injEq, Fin.getElem_fin]
  rw [Vector.getElem_set]
  simp only [eq_comm]

theorem State.setA_getA (s : State) (n m : AReg) (v : Word) :
    (s.setA n v).getA m = if m = n then v else s.getA m := by
  obtain ⟨n, hn⟩ := n
  obtain ⟨m, hm⟩ := m
  simp only [State.setA, State.getA, AReg.mk.injEq, Fin.mk.injEq, Fin.getElem_fin]
  rw [Vector.getElem_set]
  simp only [eq_comm]

@[simp] theorem State.setD_getD_same (s : State) (n : DReg) (v : Word) : (s.setD n v).getD n = v := by
  rw [State.setD_getD, if_pos rfl]

@[simp] theorem State.setA_getA_same (s : State) (n : AReg) (v : Word) : (s.setA n v).getA n = v := by
  rw [State.setA_getA, if_pos rfl]

theorem State.setD_getD_ne (s : State) (n m : DReg) (v : Word) (h : m ≠ n) : (s.setD n v).getD m = s.getD m := by
  rw [State.setD_getD, if_neg h]

theorem State.setA_getA_ne (s : State) (n m : AReg) (v : Word) (h : m ≠ n) : (s.setA n v).getA m = s.getA m := by
  rw [State.setA_getA, if_neg h]

/-- Bits 19..0 of the vector base register read as zero, whatever is written (R31). -/
theorem State.setVbr_vbrBase (s : State) (v : Word) : (s.setVbr v).vbrBase = v &&& 0xFFF00000 := by
  simp only [State.setVbr, State.vbrBase, BitVec.and_assoc]
  rfl

end Sys2Proof.Machine
end

