-- ==== Sys2Proof/Laws/Memory.lean ====
section
/-! SUPPORT. The laws of the memory list: a read after a write, and the canonical form. -/

namespace Sys2Proof.Machine

theorem Memory.get_set (m : Memory) (a b : Nat) (v : Byte) :
    Memory.get (Memory.set m a v) b = if b = a then some v else Memory.get m b := by
  induction m with
  | nil => simp [Memory.set, Memory.get, eq_comm]
  | cons c rest ih =>
    obtain ⟨x, w⟩ := c
    simp only [Memory.set]
    split
    · simp [Memory.get, eq_comm]
    · split
      · subst x
        by_cases hb : b = a
        · simp [Memory.get, hb]
        · simp [Memory.get, hb, Ne.symm hb]
      · simp only [Memory.get, ih]
        split <;> split <;> first | rfl | omega

/-- Every address listed after a write was listed before, or is the one written. -/
theorem Memory.mem_set {m : Memory} {a : Nat} {v : Byte} {c : Host.Cell} (h : c ∈ Memory.set m a v) :
    c ∈ m ∨ c = (a, v) := by
  induction m with
  | nil => exact .inr (by simpa [Memory.set] using h)
  | cons d rest ih =>
    obtain ⟨x, w⟩ := d
    simp only [Memory.set] at h
    split at h
    · rcases List.mem_cons.mp h with h | h
      · exact .inr h
      · exact .inl h
    · split at h
      · rcases List.mem_cons.mp h with h | h
        · exact .inr h
        · exact .inl (List.mem_cons_of_mem _ h)
      · rcases List.mem_cons.mp h with h | h
        · exact .inl (h ▸ List.mem_cons_self)
        · rcases ih h with h | h
          · exact .inl (List.mem_cons_of_mem _ h)
          · exact .inr h

/-- A write keeps the canonical form. -/
theorem Memory.set_wf {m : Memory} {a : Nat} {v : Byte} (hm : Memory.wf m) (ha : a < 2 ^ 32) :
    Memory.wf (Memory.set m a v) := by
  obtain ⟨hp, hb⟩ := hm
  refine ⟨?_, fun c hc => ?_⟩
  · induction m with
    | nil => simp [Memory.set]
    | cons d rest ih =>
      obtain ⟨x, w⟩ := d
      have ⟨hx, hr⟩ := List.pairwise_cons.mp hp
      simp only [Memory.set]
      split
      · rename_i hlt
        refine List.pairwise_cons.mpr ⟨fun c hc => ?_, hp⟩
        rcases List.mem_cons.mp hc with rfl | hc
        · exact hlt
        · exact Nat.lt_trans hlt (hx c hc)
      · split
        · rename_i heq
          exact List.pairwise_cons.mpr ⟨fun c hc => heq ▸ hx c hc, hr⟩
        · rename_i hge hne
          refine List.pairwise_cons.mpr ⟨fun c hc => ?_, ih hr fun c hc => hb c (List.mem_cons_of_mem _ hc)⟩
          rcases Memory.mem_set hc with hc | rfl
          · exact hx c hc
          · show x < a
            omega
  · rcases Memory.mem_set hc with hc | rfl
    · exact hb c hc
    · exact ha

/-- The memory after reset has the canonical form. -/
theorem reset_mem_wf : Memory.wf State.reset.mem := by decide

/-- The byte listed at an address below every listed one. -/
theorem Memory.get_eq_none {m : Memory} {a : Nat} (h : ∀ c ∈ m, a < c.1) : Memory.get m a = none := by
  induction m with
  | nil => rfl
  | cons c rest ih =>
    obtain ⟨x, w⟩ := c
    have hx : a < x := h (x, w) List.mem_cons_self
    simp only [Memory.get]
    rw [if_neg (by omega)]
    exact ih fun c hc => h c (List.mem_cons_of_mem _ hc)

/-- In canonical form, memories that list the same bytes are the same data. -/
theorem Memory.ext_of_wf {m n : Memory} (hm : Memory.wf m) (hn : Memory.wf n)
    (h : ∀ a, Memory.get m a = Memory.get n a) : m = n := by
  induction m generalizing n with
  | nil =>
    cases n with
    | nil => rfl
    | cons c rest =>
      have := h c.1
      simp [Memory.get] at this
  | cons c rest ih =>
    obtain ⟨x, v⟩ := c
    obtain ⟨hx, hr⟩ := List.pairwise_cons.mp hm.1
    cases n with
    | nil =>
      have := h x
      simp [Memory.get] at this
    | cons c' rest' =>
      obtain ⟨y, w⟩ := c'
      obtain ⟨hy, hr'⟩ := List.pairwise_cons.mp hn.1
      have hxy : x = y := by
        rcases Nat.lt_trichotomy x y with hlt | heq | hgt
        · have h1 := h x
          simp only [Memory.get, if_true] at h1
          rw [if_neg (by omega), Memory.get_eq_none fun c hc => Nat.lt_trans hlt (hy c hc)] at h1
          cases h1
        · exact heq
        · have h1 := h y
          simp only [Memory.get, if_true] at h1
          rw [if_neg (by omega), Memory.get_eq_none fun c hc => Nat.lt_trans hgt (hx c hc)] at h1
          cases h1
      subst hxy
      have hvw : v = w := by
        have h1 := h x
        simpa [Memory.get] using h1
      subst hvw
      refine congrArg _ (ih ⟨hr, fun c hc => hm.2 c (List.mem_cons_of_mem _ hc)⟩
        ⟨hr', fun c hc => hn.2 c (List.mem_cons_of_mem _ hc)⟩ fun a => ?_)
      by_cases ha : x = a
      · subst ha
        rw [Memory.get_eq_none fun c hc => hx c hc, Memory.get_eq_none fun c hc => hy c hc]
      · have h1 := h a
        simpa only [Memory.get, if_neg ha] using h1

/-- A read after a write: the byte written at its address, every other byte as it was. -/
theorem State.setByte_byteAt (s : State) (a b : Nat) (v : Byte) :
    (s.setByte a v).byteAt b = if b = a then v else s.byteAt b := by
  simp only [State.setByte, State.byteAt, Memory.get_set]
  split <;> rfl

end Sys2Proof.Machine
end

