-- ==== Sys2Proof/Laws/Access.lean ====
section
/-! SUPPORT. What a data access does: over plain memory (`memRead_plain`, `memWrite_plain`), and what every access
leaves as it was (`memRead_frame`, `memWrite_frame`). -/

namespace Sys2Proof.Machine

/-! ### Sequencing -/

@[simp] theorem Res.bind_ok {α β : Type} (v : α) (s : State) (k : α → State → Res β) :
    (Res.ok v s).bind k = k v s := rfl

@[simp] theorem Res.bind_raise {α β : Type} (c : Cause) (s : State) (k : α → State → Res β) :
    (Res.raise c s).bind k = .raise c s := rfl

@[simp] theorem Res.bind_refuse {α β : Type} (r : Refusal) (k : α → State → Res β) :
    (Res.refuse r).bind k = .refuse r := rfl

/-- A sequence completes exactly where both parts do. -/
theorem Res.bind_eq_ok {α β : Type} {x : Res α} {k : α → State → Res β} {v : β} {t : State} (h : x.bind k = .ok v t) :
    ∃ a s, x = .ok a s ∧ k a s = .ok v t := by
  cases x with
  | ok a s => exact ⟨a, s, rfl, h⟩
  | raise c s => cases h
  | refuse r => cases h

/-! ### Byte lists -/

theorem beBytes_length (v : Word) (n : Nat) : (beBytes v n).length = n := by
  induction n with
  | zero => rfl
  | succ n ih => simp [beBytes, ih]

theorem byteAddrs_length (a : Word) (n : Nat) : (byteAddrs a n).length = n := by
  induction n generalizing a with
  | zero => rfl
  | succ n ih => simp [byteAddrs, ih]

/-- The addresses of an access: `a + k` for `k < n`. -/
theorem mem_byteAddrs {x a : Word} {n : Nat} (hn : n ≤ 2 ^ 32) :
    x ∈ byteAddrs a n ↔ (x - a).toNat < n := by
  induction n generalizing a with
  | zero => simp [byteAddrs]
  | succ n ih =>
    simp only [byteAddrs, List.mem_cons, ih (a := a + 1) (by omega)]
    constructor
    · rintro (rfl | h)
      · simp
      · bv_omega
    · intro h
      by_cases hx : x = a
      · exact .inl hx
      · right
        bv_omega

/-! ### Accesses to plain memory -/

theorem readFault_plain {p : Params} {k : Access} {as : List Word}
    (h : ∀ x ∈ as, kindAt p x.toNat = some .ram ∨ kindAt p x.toNat = some .rom) : readFault p k as = none := by
  simp only [readFault, Option.map_eq_none_iff, List.find?_eq_none]
  intro x hx
  rcases h x hx with h | h <;> simp [h]

theorem writeStop_plain {p : Params} {as : List Word}
    (h : ∀ x ∈ as, kindAt p x.toNat = some .ram ∧ inCode p x.toNat = false) : writeStop p as = none := by
  simp only [writeStop, List.findSome?_eq_none_iff]
  intro x hx
  simp [byteWriteStop, h x hx]

theorem readBytes_plain {as : List Word} {s : State}
    (h : ∀ x ∈ as, kindAt s.params x.toNat = some .ram ∨ kindAt s.params x.toNat = some .rom) :
    readBytes as s = (as.map fun x => s.byteAt x.toNat, s) := by
  induction as with
  | nil => rfl
  | cons x xs ih =>
    have hx : isDevice s.params x.toNat = false := by
      rcases h x List.mem_cons_self with h | h <;> simp [isDevice, h]
    simp [readBytes, readByte, hx, ih fun y hy => h y (List.mem_cons_of_mem _ hy)]

theorem record_plain {s : State} {k : Access} {a : Word} {n : Nat} {v : Word}
    (h : ∀ x ∈ byteAddrs a n, isDevice s.params x.toNat = false) : s.record k a n v = s := by
  simp only [State.record]
  rw [if_neg]
  simpa using h

theorem readUnit_plain {k : Access} {a : Word} {n : Nat} {s : State}
    (h : ∀ x ∈ byteAddrs a n, kindAt s.params x.toNat = some .ram ∨ kindAt s.params x.toNat = some .rom) :
    readUnit k a n s = .ok (valueAt s a n) s := by
  simp only [readUnit, readFault_plain h, readValue, readBytes_plain h, valueAt]
  rw [record_plain]
  intro x hx
  rcases h x hx with h | h <;> simp [isDevice, h]

theorem readSplit_plain {n : Nat} {a acc : Word} {s : State}
    (h : ∀ x ∈ byteAddrs a n, kindAt s.params x.toNat = some .ram ∨ kindAt s.params x.toNat = some .rom) :
    readSplit n a acc s =
      .ok (((byteAddrs a n).map fun x => s.byteAt x.toNat).foldl (fun w b => (w <<< 8) ||| b.setWidth 32) acc) s := by
  induction n generalizing a acc with
  | zero => rfl
  | succ n ih =>
    have h1 : ∀ x ∈ byteAddrs a 1, kindAt s.params x.toNat = some .ram ∨ kindAt s.params x.toNat = some .rom := by
      intro x hx
      simp only [byteAddrs, List.mem_singleton] at hx
      exact h x (hx ▸ List.mem_cons_self)
    have hv : valueAt s a 1 = (s.byteAt a.toNat).setWidth 32 := by simp [valueAt, byteAddrs, beValue]
    simp only [readSplit, readUnit_plain h1, Res.bind_ok, hv]
    rw [ih fun x hx => h x (List.mem_cons_of_mem _ hx)]
    rfl

/-- A read of readable memory gives the big-endian number there and changes nothing (R40, R44). -/
theorem memRead_plain {a : Word} {n : Nat} {s : State} (h : Readable s a n) :
    memRead a n s = .ok (valueAt s a n) s := by
  simp only [memRead]
  split
  · exact readUnit_plain h.1
  · rename_i ha
    rw [h.2.resolve_left ha]
    exact readSplit_plain h.1

@[simp] theorem placeBytes_params (bs : List Byte) (a : Word) (s : State) : (placeBytes bs a s).params = s.params := by
  induction bs generalizing a s with
  | nil => rfl
  | cons b bs ih => simp [placeBytes, ih]

/-- Placing bytes changes memory only. -/
theorem placeBytes_eq (bs : List Byte) (a : Word) (s : State) :
    placeBytes bs a s = { s with mem := (placeBytes bs a s).mem } := by
  induction bs generalizing a s with
  | nil => rfl
  | cons b bs ih =>
    rw [placeBytes, ih]
    rfl

theorem placeBytes_byteAt_outside {bs : List Byte} {a : Word} {s : State} {y : Nat} (h : Outside y a bs.length) :
    (placeBytes bs a s).byteAt y = s.byteAt y := by
  induction bs generalizing a s with
  | nil => rfl
  | cons b bs ih =>
    rw [placeBytes, ih fun x hx => h x (List.mem_cons_of_mem _ hx), State.setByte_byteAt,
      if_neg (h a List.mem_cons_self)]

/-- The bytes placed read back (a run of at most 2^32 bytes does not overlap itself). -/
theorem placeBytes_byteAt {bs : List Byte} {a : Word} {s : State} (hn : bs.length ≤ 2 ^ 32) :
    (byteAddrs a bs.length).map (fun x => (placeBytes bs a s).byteAt x.toNat) = bs := by
  induction bs generalizing a s with
  | nil => rfl
  | cons b bs ih =>
    simp only [List.length_cons] at hn
    simp only [List.length_cons, byteAddrs, List.map_cons, placeBytes]
    rw [ih (by omega), placeBytes_byteAt_outside, State.setByte_byteAt, if_pos rfl]
    intro x hx hax
    rw [mem_byteAddrs (by omega)] at hx
    have : x = a := BitVec.eq_of_toNat_eq hax.symm
    subst this
    bv_omega

theorem writeBytes_plain {as : List Word} {bs : List Byte} {s : State}
    (h : ∀ x ∈ as, isDevice s.params x.toNat = false) :
    writeBytes (as.zip bs) s = (as.zip bs).foldl (fun t c => t.setByte c.1.toNat c.2) s := by
  induction as generalizing bs s with
  | nil => rfl
  | cons x xs ih =>
    cases bs with
    | nil => rfl
    | cons b bs =>
      simp only [List.zip_cons_cons, writeBytes, List.foldl_cons, h x List.mem_cons_self]
      exact ih fun y hy => h y (List.mem_cons_of_mem _ hy)

theorem placeBytes_foldl (bs : List Byte) (a : Word) (s : State) :
    placeBytes bs a s = ((byteAddrs a bs.length).zip bs).foldl (fun t c => t.setByte c.1.toNat c.2) s := by
  induction bs generalizing a s with
  | nil => rfl
  | cons b bs ih => simp only [placeBytes, ih, List.length_cons, byteAddrs, List.zip_cons_cons, List.foldl_cons]

theorem not_device_of_ram {p : Params} {as : List Word}
    (h : ∀ x ∈ as, kindAt p x.toNat = some .ram ∧ inCode p x.toNat = false) :
    ∀ x ∈ as, isDevice p x.toNat = false := fun x hx => by simp [isDevice, (h x hx).1]

theorem writeUnit_plain {a : Word} {n : Nat} {v : Word} {s : State}
    (h : ∀ x ∈ byteAddrs a n, kindAt s.params x.toNat = some .ram ∧ inCode s.params x.toNat = false) :
    writeUnit a n v s = .ok () (placeBytes (beBytes v n) a s) := by
  have hd := not_device_of_ram h
  have hp : placeBytes (beBytes v n) a s = writeBytes ((byteAddrs a n).zip (beBytes v n)) s := by
    rw [placeBytes_foldl, beBytes_length, writeBytes_plain hd]
  simp only [writeUnit, writeStop_plain h, ← hp]
  rw [record_plain]
  simpa using hd

theorem writeSplit_plain {bs : List Byte} {a : Word} {s : State}
    (h : ∀ x ∈ byteAddrs a bs.length, kindAt s.params x.toNat = some .ram ∧ inCode s.params x.toNat = false) :
    writeSplit bs a s = .ok () (placeBytes bs a s) := by
  induction bs generalizing a s with
  | nil => rfl
  | cons b bs ih =>
    have h1 : ∀ x ∈ byteAddrs a 1, kindAt s.params x.toNat = some .ram ∧ inCode s.params x.toNat = false := by
      intro x hx
      simp only [byteAddrs, List.mem_singleton] at hx
      exact h x (hx ▸ List.mem_cons_self)
    have hb : beBytes (b.setWidth 32) 1 = [b] := by
      simp [beBytes]
    simp only [writeSplit, writeUnit_plain h1, hb, Res.bind_ok]
    rw [ih]
    · rfl
    · intro x hx
      simpa using h x (List.mem_cons_of_mem _ hx)

/-- A write of writable memory places the value's bytes and changes nothing else (R40, R44). -/
theorem memWrite_plain {a : Word} {n : Nat} {v : Word} {s : State} (h : Writable s a n) :
    memWrite a n v s = .ok () (placeBytes (beBytes v n) a s) := by
  simp only [memWrite]
  split
  · exact writeUnit_plain h.1
  · rename_i ha
    rw [h.2.resolve_left ha]
    exact writeSplit_plain (by rw [beBytes_length]; exact h.1)

/-! ### What every access leaves as it was -/

/-- What a data access may change: memory outside rom and the program text, the record of device accesses (which only
grows), and the count of free values (which only grows). -/
structure AccessFrame (s t : State) : Prop where
  d : t.d = s.d
  a : t.a = s.a
  pc : t.pc = s.pc
  ccr : t.ccr = s.ccr
  sr : t.sr = s.sr
  vbr : t.vbr = s.vbr
  status : t.status = s.status
  faultRecord : t.faultRecord = s.faultRecord
  params : t.params = s.params
  log : s.deviceLog <+: t.deviceLog
  draws : s.draws ≤ t.draws
  wf : Memory.wf s.mem → Memory.wf t.mem
  range : MemInRange s.params s.mem → MemInRange s.params t.mem
  bytes : ∀ y, kindAt s.params y ≠ some .ram ∨ inCode s.params y = true → t.byteAt y = s.byteAt y

theorem AccessFrame.refl (s : State) : AccessFrame s s :=
  ⟨rfl, rfl, rfl, rfl, rfl, rfl, rfl, rfl, rfl, List.prefix_refl _, Nat.le_refl _, id, id, fun _ _ => rfl⟩

theorem AccessFrame.trans {s t u : State} (h : AccessFrame s t) (k : AccessFrame t u) : AccessFrame s u where
  d := k.d.trans h.d
  a := k.a.trans h.a
  pc := k.pc.trans h.pc
  ccr := k.ccr.trans h.ccr
  sr := k.sr.trans h.sr
  vbr := k.vbr.trans h.vbr
  status := k.status.trans h.status
  faultRecord := k.faultRecord.trans h.faultRecord
  params := k.params.trans h.params
  log := h.log.trans k.log
  draws := Nat.le_trans h.draws k.draws
  wf := fun w => k.wf (h.wf w)
  range := fun r => h.params ▸ k.range (h.params.symm ▸ h.range r)
  bytes := fun y hy => (k.bytes y (by rw [h.params]; exact hy)).trans (h.bytes y hy)

/-- The states an outcome carries, whether it completes or raises an exception. -/
def Res.Sat {α : Type} (P : State → Prop) : Res α → Prop
  | .ok _ s => P s
  | .raise _ s => P s
  | .refuse _ => True

theorem Res.Sat.bind {α β : Type} {P : State → Prop} {x : Res α} {k : α → State → Res β} (hx : x.Sat P)
    (hk : ∀ v t, x = .ok v t → P t → (k v t).Sat P) : (x.bind k).Sat P := by
  cases x with
  | ok v s => exact hk v s rfl hx
  | raise c s => exact hx
  | refuse r => trivial

theorem Res.Sat.mono {α : Type} {P Q : State → Prop} {x : Res α} (hx : x.Sat P) (h : ∀ s, P s → Q s) : x.Sat Q := by
  cases x with
  | ok v s => exact h s hx
  | raise c s => exact h s hx
  | refuse r => trivial

theorem record_frame (s : State) (k : Access) (a : Word) (n : Nat) (v : Word) : AccessFrame s (s.record k a n v) := by
  simp only [State.record]
  split
  · exact ⟨rfl, rfl, rfl, rfl, rfl, rfl, rfl, rfl, rfl, List.prefix_append _ _, Nat.le_refl _, id, id, fun _ _ => rfl⟩
  · exact AccessFrame.refl s

theorem readBytes_frame (as : List Word) (s : State) : AccessFrame s (readBytes as s).2 := by
  induction as generalizing s with
  | nil => exact AccessFrame.refl s
  | cons x xs ih =>
    refine AccessFrame.trans ?_ (ih _)
    simp only [readByte]
    split
    · exact ⟨rfl, rfl, rfl, rfl, rfl, rfl, rfl, rfl, rfl, List.prefix_refl _, Nat.le_succ _, id, id, fun _ _ => rfl⟩
    · exact AccessFrame.refl s

theorem readValue_frame (k : Access) (a : Word) (n : Nat) (s : State) : AccessFrame s (readValue k a n s).2 :=
  (readBytes_frame _ s).trans (record_frame _ _ _ _ _)

theorem readUnit_frame (k : Access) (a : Word) (n : Nat) (s : State) : (readUnit k a n s).Sat (AccessFrame s) := by
  simp only [readUnit]
  split
  · exact AccessFrame.refl s
  · exact readValue_frame k a n s

theorem readSplit_frame (n : Nat) (a acc : Word) (s : State) : (readSplit n a acc s).Sat (AccessFrame s) := by
  induction n generalizing a acc s with
  | zero => exact AccessFrame.refl s
  | succ n ih => exact (readUnit_frame _ _ _ _).bind fun v t _ ht => (ih _ _ t).mono fun u hu => ht.trans hu

/-- A read changes the record of device accesses and the count of free values at most. -/
theorem memRead_frame (a : Word) (n : Nat) (s : State) : (memRead a n s).Sat (AccessFrame s) := by
  simp only [memRead]
  split
  · exact readUnit_frame _ _ _ _
  · split
    · exact readSplit_frame _ _ _ _
    · exact AccessFrame.refl s

theorem setByte_frame {s : State} {x : Nat} {b : Byte} (hx : x < 2 ^ 32) (hk : kindAt s.params x = some .ram)
    (hc : inCode s.params x = false) : AccessFrame s (s.setByte x b) where
  d := rfl
  a := rfl
  pc := rfl
  ccr := rfl
  sr := rfl
  vbr := rfl
  status := rfl
  faultRecord := rfl
  params := rfl
  log := List.prefix_refl _
  draws := Nat.le_refl _
  wf := fun w => Memory.set_wf w hx
  range := fun r c hc => by
    rcases Memory.mem_set hc with h | rfl
    · exact r c h
    · exact .inl hk
  bytes := fun y hy => by
    rw [State.setByte_byteAt, if_neg]
    rintro rfl
    rcases hy with hy | hy
    · exact hy hk
    · rw [hc] at hy
      cases hy

theorem writeBytes_frame {cs : List (Word × Byte)} {s : State} (h : ∀ c ∈ cs, byteWriteStop s.params c.1 = none) :
    AccessFrame s (writeBytes cs s) := by
  induction cs generalizing s with
  | nil => exact AccessFrame.refl s
  | cons c cs ih =>
    obtain ⟨x, b⟩ := c
    have hx := h (x, b) List.mem_cons_self
    have ht : AccessFrame s (if isDevice s.params x.toNat then s else s.setByte x.toNat b) := by
      split
      · exact AccessFrame.refl s
      · rename_i hd
        simp only [byteWriteStop] at hx
        split at hx
        · cases hx
        · cases hx
        · rename_i k hk hkind
          split at hx
          · cases hx
          · rename_i hc
            refine setByte_frame x.isLt ?_ (by simpa using hc)
            cases k with
            | ram => exact hkind
            | rom => exact (hk rfl).elim
            | device => exact absurd hkind (by simpa [isDevice] using hd)
    refine ht.trans (ih fun c hc => ?_)
    rw [ht.params]
    exact h c (List.mem_cons_of_mem _ hc)

theorem writeUnit_frame (a : Word) (n : Nat) (v : Word) (s : State) : (writeUnit a n v s).Sat (AccessFrame s) := by
  simp only [writeUnit]
  split
  · rename_i st _
    cases st with
    | cause c => exact AccessFrame.refl s
    | refusal r => trivial
  · rename_i hs
    refine (writeBytes_frame fun c hc => ?_).trans (record_frame _ _ _ _ _)
    simp only [writeStop, List.findSome?_eq_none_iff] at hs
    exact hs c.1 (List.of_mem_zip (a := c.1) (b := c.2) hc).1

theorem writeSplit_frame (bs : List Byte) (a : Word) (s : State) : (writeSplit bs a s).Sat (AccessFrame s) := by
  induction bs generalizing a s with
  | nil => exact AccessFrame.refl s
  | cons b bs ih => exact (writeUnit_frame _ _ _ _).bind fun v t _ ht => (ih _ t).mono fun u hu => ht.trans hu

/-- A write changes memory outside rom and the program text, and the record of device accesses, at most. -/
theorem memWrite_frame (a : Word) (n : Nat) (v : Word) (s : State) : (memWrite a n v s).Sat (AccessFrame s) := by
  simp only [memWrite]
  split
  · exact writeUnit_frame _ _ _ _
  · split
    · exact writeSplit_frame _ _ _
    · exact AccessFrame.refl s

/-! ### What a read leaves, and what a write leaves outside its bytes -/

theorem record_mem (s : State) (k : Access) (a : Word) (n : Nat) (v : Word) : (s.record k a n v).mem = s.mem := by
  simp only [State.record]
  split <;> rfl

theorem record_byteAt (s : State) (k : Access) (a : Word) (n : Nat) (v : Word) (y : Nat) :
    (s.record k a n v).byteAt y = s.byteAt y := by
  simp only [State.byteAt, record_mem]

theorem readBytes_mem (as : List Word) (s : State) : (readBytes as s).2.mem = s.mem := by
  induction as generalizing s with
  | nil => rfl
  | cons x xs ih =>
    refine (ih _).trans ?_
    simp only [readByte]
    split <;> rfl

theorem readUnit_mem (k : Access) (a : Word) (n : Nat) (s : State) :
    (readUnit k a n s).Sat fun t => t.mem = s.mem := by
  simp only [readUnit]
  split
  · exact rfl
  · exact (record_mem _ _ _ _ _).trans (readBytes_mem _ _)

theorem readSplit_mem (n : Nat) (a acc : Word) (s : State) : (readSplit n a acc s).Sat fun t => t.mem = s.mem := by
  induction n generalizing a acc s with
  | zero => exact rfl
  | succ n ih => exact (readUnit_mem _ _ _ _).bind fun v t _ ht => (ih _ _ t).mono fun u hu => hu.trans ht

/-- A read leaves memory as it was. -/
theorem memRead_mem (a : Word) (n : Nat) (s : State) : (memRead a n s).Sat fun t => t.mem = s.mem := by
  simp only [memRead]
  split
  · exact readUnit_mem _ _ _ _
  · split
    · exact readSplit_mem _ _ _ _
    · exact rfl

theorem writeBytes_outside {cs : List (Word × Byte)} {s : State} {y : Nat} (h : ∀ c ∈ cs, y ≠ c.1.toNat) :
    (writeBytes cs s).byteAt y = s.byteAt y := by
  induction cs generalizing s with
  | nil => rfl
  | cons c cs ih =>
    obtain ⟨x, b⟩ := c
    simp only [writeBytes]
    rw [ih fun c hc => h c (List.mem_cons_of_mem _ hc)]
    split
    · rfl
    · rw [State.setByte_byteAt, if_neg (h (x, b) List.mem_cons_self)]

theorem writeUnit_outside {a : Word} {n : Nat} {v : Word} {s : State} {y : Nat} (h : Outside y a n) :
    (writeUnit a n v s).Sat fun t => t.byteAt y = s.byteAt y := by
  simp only [writeUnit]
  split
  · rename_i st _
    cases st with
    | cause c => exact rfl
    | refusal r => trivial
  · refine (record_byteAt _ _ _ _ _ _).trans (writeBytes_outside fun c hc => ?_)
    exact h c.1 (List.of_mem_zip (a := c.1) (b := c.2) hc).1

theorem writeSplit_outside {bs : List Byte} {a : Word} {s : State} {y : Nat} (h : Outside y a bs.length) :
    (writeSplit bs a s).Sat fun t => t.byteAt y = s.byteAt y := by
  induction bs generalizing a s with
  | nil => exact rfl
  | cons b bs ih =>
    have h1 : Outside y a 1 := fun x hx => by
      simp only [byteAddrs, List.mem_singleton] at hx
      exact h x (hx ▸ List.mem_cons_self)
    exact (writeUnit_outside h1).bind fun v t _ ht =>
      (ih fun x hx => h x (List.mem_cons_of_mem _ hx)).mono fun u hu => hu.trans ht

/-- A write leaves every byte outside its own as it was, whether it completes or raises an exception. -/
theorem memWrite_outside {a : Word} {n : Nat} {v : Word} {s : State} {y : Nat} (h : Outside y a n) :
    (memWrite a n v s).Sat fun t => t.byteAt y = s.byteAt y := by
  simp only [memWrite]
  split
  · exact writeUnit_outside h
  · split
    · exact writeSplit_outside (by rw [beBytes_length]; exact h)
    · exact rfl

end Sys2Proof.Machine
end

