-- ==== Sys2Proof/Laws/Operands.lean ====
section
/-! SUPPORT. What operands can do: sizes, the side effect of an addressing mode, reading and writing an operand where
no exception is raised, and what an operand leaves as it was where one is. -/

namespace Sys2Proof.Machine

/-! ### Sizes -/

@[simp] theorem trunc_l (v : Word) : trunc .l v = v := rfl
@[simp] theorem merge_l (old v : Word) : merge .l old v = v := rfl
@[simp] theorem sext_l (v : Word) : sext .l v = v := rfl
@[simp] theorem Size.bytes_b : Size.b.bytes = 1 := rfl
@[simp] theorem Size.bytes_w : Size.w.bytes = 2 := rfl
@[simp] theorem Size.bytes_l : Size.l.bytes = 4 := rfl

/-- The bytes of a value are those of its low `bits(sz)` bits. -/
theorem beBytes_trunc (sz : Size) (v : Word) : beBytes (trunc sz v) sz.bytes = beBytes v sz.bytes := by
  cases sz with
  | b =>
    simp only [trunc, Size.bytes, beBytes, List.cons.injEq, and_true]
    bv_omega
  | w =>
    simp only [trunc, Size.bytes, beBytes, List.cons.injEq, and_true]
    constructor <;> bv_omega
  | l => rfl

/-! ### The side effect of an addressing mode -/

@[simp] theorem stepEa_d (ea : Ea) (sz : Size) (s : State) : (stepEa ea sz s).d = s.d := by cases ea <;> rfl
@[simp] theorem stepEa_pc (ea : Ea) (sz : Size) (s : State) : (stepEa ea sz s).pc = s.pc := by cases ea <;> rfl
@[simp] theorem stepEa_ccr (ea : Ea) (sz : Size) (s : State) : (stepEa ea sz s).ccr = s.ccr := by cases ea <;> rfl
@[simp] theorem stepEa_sr (ea : Ea) (sz : Size) (s : State) : (stepEa ea sz s).sr = s.sr := by cases ea <;> rfl
@[simp] theorem stepEa_vbr (ea : Ea) (sz : Size) (s : State) : (stepEa ea sz s).vbr = s.vbr := by cases ea <;> rfl
@[simp] theorem stepEa_mem (ea : Ea) (sz : Size) (s : State) : (stepEa ea sz s).mem = s.mem := by cases ea <;> rfl
@[simp] theorem stepEa_status (ea : Ea) (sz : Size) (s : State) : (stepEa ea sz s).status = s.status := by
  cases ea <;> rfl
@[simp] theorem stepEa_faultRecord (ea : Ea) (sz : Size) (s : State) :
    (stepEa ea sz s).faultRecord = s.faultRecord := by cases ea <;> rfl
@[simp] theorem stepEa_deviceLog (ea : Ea) (sz : Size) (s : State) : (stepEa ea sz s).deviceLog = s.deviceLog := by
  cases ea <;> rfl
@[simp] theorem stepEa_draws (ea : Ea) (sz : Size) (s : State) : (stepEa ea sz s).draws = s.draws := by
  cases ea <;> rfl
@[simp] theorem stepEa_params (ea : Ea) (sz : Size) (s : State) : (stepEa ea sz s).params = s.params := by
  cases ea <;> rfl
@[simp] theorem stepEa_ext (ea : Ea) (sz : Size) (s : State) : (stepEa ea sz s).ext = s.ext := by cases ea <;> rfl
@[simp] theorem stepEa_getD (ea : Ea) (sz : Size) (s : State) (n : DReg) : (stepEa ea sz s).getD n = s.getD n := by
  cases ea <;> rfl
@[simp] theorem stepEa_byteAt (ea : Ea) (sz : Size) (s : State) (y : Nat) :
    (stepEa ea sz s).byteAt y = s.byteAt y := by cases ea <;> rfl
@[simp] theorem stepEa_valueAt (ea : Ea) (sz : Size) (s : State) (a : Word) (n : Nat) :
    valueAt (stepEa ea sz s) a n = valueAt s a n := by cases ea <;> rfl

/-- A mode that steps no address register has no side effect. -/
theorem stepEa_none {ea : Ea} (h : steppedReg ea = none) (sz : Size) (s : State) : stepEa ea sz s = s := by
  cases ea <;> first | rfl | cases h

/-- Only the stepped register changes. -/
theorem stepEa_getA_ne {ea : Ea} {m : AReg} (h : steppedReg ea ≠ some m) (sz : Size) (s : State) :
    (stepEa ea sz s).getA m = s.getA m := by
  cases ea <;> first
    | rfl
    | exact State.setA_getA_ne _ _ _ _ fun hm => h (congrArg some hm.symm)

/-! ### Operands of plain memory -/

theorem Readable.of_eq {s t : State} {a : Word} {n : Nat} (hp : t.params = s.params) (h : Readable s a n) :
    Readable t a n := by
  simpa only [Readable, hp] using h

theorem Writable.of_eq {s t : State} {a : Word} {n : Nat} (hp : t.params = s.params) (h : Writable s a n) :
    Writable t a n := by
  simpa only [Writable, hp] using h

/-- What may be written may be read. -/
theorem Writable.readable {s : State} {a : Word} {n : Nat} (h : Writable s a n) : Readable s a n :=
  ⟨fun x hx => .inl (h.1 x hx).1, h.2⟩

/-- A resolved source reads as its value, after its side effect (R105, R106, R117). -/
theorem readOp_operandOf {ea : Ea} {sz : Size} {x : Word} {s : State} (h : EaReadable ea sz x s) :
    readOp (operandOf ea sz x s) sz (stepEa ea sz s) = .ok (eaValue ea sz x s) (stepEa ea sz s) := by
  have hm : ∀ a, Readable s a sz.bytes →
      memRead a sz.bytes (stepEa ea sz s) = .ok (valueAt s a sz.bytes) (stepEa ea sz s) := fun a ha => by
    rw [memRead_plain (ha.of_eq (stepEa_params _ _ _)), stepEa_valueAt]
  cases ea <;> first | rfl | exact hm _ (h.2 rfl)

/-- A resolved destination is written, after its side effect (R117). -/
theorem writeOp_operandOf {ea : Ea} {sz : Size} {x v : Word} {s : State} (hd : ea.isDataAlterable = true)
    (h : EaWritable ea sz x s) :
    writeOp (operandOf ea sz x s) sz v (stepEa ea sz s) = .ok () (eaWrite ea sz x v s) := by
  have hm : ∀ a, Writable s a sz.bytes →
      memWrite a sz.bytes v (stepEa ea sz s) = .ok () (placeBytes (beBytes v sz.bytes) a (stepEa ea sz s)) :=
    fun a ha => memWrite_plain (ha.of_eq (stepEa_params _ _ _))
  cases ea <;> first | rfl | exact hm _ (h.2 rfl) | cases hd

/-- Resolving an operand whose index word, if any, is usable. -/
theorem withOperand_resolved {α : Type} {ea : Ea} {sz : Size} {x : Word} {s : State}
    (h : eaStop s.params ea x = none) (k : Operand → State → Res α) :
    withOperand ea sz x s k = forgetStepped (steppedReg ea) (k (operandOf ea sz x s) (stepEa ea sz s)) := by
  simp only [withOperand, resolve, h, Res.bind_ok]

@[simp] theorem forgetStepped_ok {α : Type} (n : Option AReg) (v : α) (s : State) :
    forgetStepped n (.ok v s) = .ok v s := by cases n <;> rfl

@[simp] theorem forgetStepped_refuse {α : Type} (n : Option AReg) (r : Refusal) :
    forgetStepped n (.refuse r : Res α) = .refuse r := by cases n <;> rfl

/-- Nothing is forgotten where an operand completes. -/
theorem forgetStepped_eq_ok {α : Type} {n : Option AReg} {r : Res α} {v : α} {t : State}
    (h : forgetStepped n r = .ok v t) : r = .ok v t := by
  cases n <;> cases r <;> first | exact h | cases h

/-- A source operand of plain memory, or a register or a constant, goes on with its value. -/
theorem withOperand_read {α : Type} {ea : Ea} {sz : Size} {x : Word} {s : State} (h : EaReadable ea sz x s)
    (k : Word → State → Res α) :
    (withOperand ea sz x s fun op s1 => (readOp op sz s1).bind k) =
      forgetStepped (steppedReg ea) (k (eaValue ea sz x s) (stepEa ea sz s)) := by
  rw [withOperand_resolved h.1, readOp_operandOf h, Res.bind_ok]

/-- A destination operand of plain memory, or a data register, is written. -/
theorem withOperand_write {α : Type} {ea : Ea} {sz : Size} {x v : Word} {s : State} (hd : ea.isDataAlterable = true)
    (h : EaWritable ea sz x s) (k : Unit → State → Res α) :
    (withOperand ea sz x s fun op s1 => (writeOp op sz v s1).bind k) =
      forgetStepped (steppedReg ea) (k () (eaWrite ea sz x v s)) := by
  rw [withOperand_resolved h.1, writeOp_operandOf hd h, Res.bind_ok]

/-! ### What a write to a destination changes -/

theorem eaWrite_memory {ea : Ea} (h : eaInMemory ea = true) (sz : Size) (x v : Word) (s : State) :
    eaWrite ea sz x v s = placeBytes (beBytes v sz.bytes) (effAddr ea sz x s) (stepEa ea sz s) := by
  cases ea <;> first | rfl | cases h

@[simp] theorem placeBytes_getD (bs : List Byte) (a : Word) (s : State) (n : DReg) :
    (placeBytes bs a s).getD n = s.getD n := by rw [placeBytes_eq]; rfl
@[simp] theorem placeBytes_getA (bs : List Byte) (a : Word) (s : State) (n : AReg) :
    (placeBytes bs a s).getA n = s.getA n := by rw [placeBytes_eq]; rfl
@[simp] theorem placeBytes_pc (bs : List Byte) (a : Word) (s : State) : (placeBytes bs a s).pc = s.pc := by
  rw [placeBytes_eq]
@[simp] theorem placeBytes_ccr (bs : List Byte) (a : Word) (s : State) : (placeBytes bs a s).ccr = s.ccr := by
  rw [placeBytes_eq]
@[simp] theorem placeBytes_sr (bs : List Byte) (a : Word) (s : State) : (placeBytes bs a s).sr = s.sr := by
  rw [placeBytes_eq]
@[simp] theorem placeBytes_vbr (bs : List Byte) (a : Word) (s : State) : (placeBytes bs a s).vbr = s.vbr := by
  rw [placeBytes_eq]
@[simp] theorem placeBytes_status (bs : List Byte) (a : Word) (s : State) : (placeBytes bs a s).status = s.status := by
  rw [placeBytes_eq]

@[simp] theorem eaWrite_pc (ea : Ea) (sz : Size) (x v : Word) (s : State) : (eaWrite ea sz x v s).pc = s.pc := by
  cases ea <;> simp [eaWrite]
@[simp] theorem eaWrite_ccr (ea : Ea) (sz : Size) (x v : Word) (s : State) : (eaWrite ea sz x v s).ccr = s.ccr := by
  cases ea <;> simp [eaWrite]
@[simp] theorem eaWrite_params (ea : Ea) (sz : Size) (x v : Word) (s : State) :
    (eaWrite ea sz x v s).params = s.params := by
  cases ea <;> simp [eaWrite]

/-! ### Outcomes of two kinds -/

/-- `P` holds of the state an outcome completes with, `Q` of the state it raises an exception in. -/
def Res.Post {α : Type} (P : α → State → Prop) (Q : State → Prop) : Res α → Prop
  | .ok v s => P v s
  | .raise _ s => Q s
  | .refuse _ => True

theorem Res.Sat.post {α : Type} {P : State → Prop} {x : Res α} (h : x.Sat P) : x.Post (fun _ => P) P := by
  cases x <;> exact h

theorem Res.Post.sat {α : Type} {P : State → Prop} {x : Res α} (h : x.Post (fun _ => P) P) : x.Sat P := by
  cases x <;> exact h

theorem Res.Post.mono {α : Type} {P P' : α → State → Prop} {Q Q' : State → Prop} {x : Res α} (h : x.Post P Q)
    (hp : ∀ v s, P v s → P' v s) (hq : ∀ s, Q s → Q' s) : x.Post P' Q' := by
  cases x with
  | ok v s => exact hp v s h
  | raise c s => exact hq s h
  | refuse r => trivial

theorem Res.Post.bind {α β : Type} {P : α → State → Prop} {P' : β → State → Prop} {Q : State → Prop} {x : Res α}
    {k : α → State → Res β} (hx : x.Post P Q) (hk : ∀ v t, P v t → (k v t).Post P' Q) : (x.bind k).Post P' Q := by
  cases x with
  | ok v s => exact hk v s hx
  | raise c s => exact hx
  | refuse r => trivial

/-- A read of an operand makes at most one access. -/
theorem readOp_frame (op : Operand) (sz : Size) (s : State) : (readOp op sz s).Sat (AccessFrame s) := by
  cases op with
  | mem a => exact memRead_frame _ _ _
  | dreg n => exact AccessFrame.refl s
  | areg n => exact AccessFrame.refl s
  | imm v => exact AccessFrame.refl s

end Sys2Proof.Machine
end

