-- ==== Sys2Proof/Laws/Exceptions.lean ====
section
/-! SUPPORT. What taking an exception can do: what it leaves as it was, and the outcomes it has under each
`TRAP_MODEL`. -/

namespace Sys2Proof.Machine

/-- What no instruction and no exception entry changes: parameters, the vector base register, rom and program text; the
record of device accesses and the count of free values only grow, and memory keeps its canonical form. -/
structure MemFrame (s t : State) : Prop where
  params : t.params = s.params
  vbr : t.vbr = s.vbr
  log : s.deviceLog <+: t.deviceLog
  draws : s.draws ≤ t.draws
  wf : Memory.wf s.mem → Memory.wf t.mem
  range : MemInRange s.params s.mem → MemInRange s.params t.mem
  bytes : ∀ y, kindAt s.params y ≠ some .ram ∨ inCode s.params y = true → t.byteAt y = s.byteAt y

theorem MemFrame.refl (s : State) : MemFrame s s :=
  ⟨rfl, rfl, List.prefix_refl _, Nat.le_refl _, id, id, fun _ _ => rfl⟩

theorem MemFrame.trans {s t u : State} (h : MemFrame s t) (k : MemFrame t u) : MemFrame s u where
  params := k.params.trans h.params
  vbr := k.vbr.trans h.vbr
  log := h.log.trans k.log
  draws := Nat.le_trans h.draws k.draws
  wf := fun w => k.wf (h.wf w)
  range := fun r => h.params ▸ k.range (h.params.symm ▸ h.range r)
  bytes := fun y hy => (k.bytes y (by rw [h.params]; exact hy)).trans (h.bytes y hy)

theorem AccessFrame.memFrame {s t : State} (h : AccessFrame s t) : MemFrame s t :=
  ⟨h.params, h.vbr, h.log, h.draws, h.wf, h.range, h.bytes⟩

/-- An update of anything but parameters, the vector base register, memory, the record and the count is no change
here. -/
theorem MemFrame.of_eq {s t : State} (hp : t.params = s.params) (hv : t.vbr = s.vbr) (hl : t.deviceLog = s.deviceLog)
    (hd : t.draws = s.draws) (hm : t.mem = s.mem) : MemFrame s t :=
  ⟨hp, hv, by rw [hl], by rw [hd], by rw [hm]; exact id, by rw [hm]; exact id, fun y _ => by simp only [State.byteAt, hm]⟩

/-- What an exception entry changes: the status register's high byte as R214 says, memory and the record as accesses
may, A7 and pc. -/
structure EntryFrame (irq : Option (BitVec 3)) (s t : State) : Prop where
  mem : MemFrame s t
  d : t.d = s.d
  ccr : t.ccr = s.ccr
  sr : t.sr = entrySr s.sr irq
  status : t.status = s.status
  faultRecord : t.faultRecord = s.faultRecord

/-- Exception entry, whether it completes or meets a further error (R214). -/
theorem enter_frame (v : Byte) (fs : BitVec 4) (pcx : Word) (irq : Option (BitVec 3)) (s : State) :
    (enter v fs pcx irq s).Sat (EntryFrame irq s) := by
  have h0 : EntryFrame irq s (s.setSr (entrySr s.sr irq)) :=
    ⟨MemFrame.of_eq rfl rfl rfl rfl rfl, rfl, rfl, rfl, rfl, rfl⟩
  have ht : ∀ {a b : State}, EntryFrame irq s a → AccessFrame a b → EntryFrame irq s b := fun ha hb =>
    ⟨ha.mem.trans hb.memFrame, hb.d.trans ha.d, hb.ccr.trans ha.ccr, hb.sr.trans ha.sr, hb.status.trans ha.status,
      hb.faultRecord.trans ha.faultRecord⟩
  refine Res.Sat.bind ((memWrite_frame _ _ _ _).mono fun u hu => ht h0 hu) fun _ s1 _ h1 => ?_
  refine Res.Sat.bind ((memWrite_frame _ _ _ _).mono fun u hu => ht h1 hu) fun _ s2 _ h2 => ?_
  have h2' : EntryFrame irq s (s2.setA .sp (frameAddr (s.getA .sp))) :=
    ⟨h2.mem.trans (MemFrame.of_eq rfl rfl rfl rfl rfl), h2.d, h2.ccr, h2.sr, h2.status, h2.faultRecord⟩
  refine Res.Sat.bind ((memRead_frame _ _ _).mono fun u hu => ht h2' hu) fun t s3 _ h3 => ?_
  exact ⟨h3.mem.trans (MemFrame.of_eq rfl rfl rfl rfl rfl), h3.d, h3.ccr, h3.sr, h3.status, h3.faultRecord⟩

/-- Under `TRAP_MODEL` = terminal an exception ends the run with its record (R200). -/
theorem takeException_terminal {c : Cause} {s : State} (h : s.params.trapModel = .terminal) :
    takeException c s = .fault (.exception ⟨c, s.pc⟩ { s with faultRecord := some ⟨c, s.pc⟩ }) := by
  simp only [takeException, h]

/-- Under `TRAP_MODEL` = vectored an exception is entered (R214, R217). -/
theorem takeException_vectored {c : Cause} {s : State} (h : s.params.trapModel = .vectored) :
    takeException c s = enterOrHalt c.isAccessOrAddress c.vector c.faultStatus s.pc none s := by
  simp only [takeException, h]

/-- The next state of an exception that is entered: supervisor mode and trace off, whatever else happens; a
fault-on-fault halts. -/
theorem enterOrHalt_next {b : Bool} {v : Byte} {fs : BitVec 4} {pcx : Word} {s t : State}
    (h : enterOrHalt b v fs pcx none s = .next t) :
    MemFrame s t ∧ t.d = s.d ∧ t.ccr = s.ccr ∧ t.sr = entrySr s.sr none ∧
      (t.status = s.status ∨ t.status = .faultOnFault) ∧ t.faultRecord = s.faultRecord := by
  have h1 := enter_frame v fs pcx none s
  simp only [enterOrHalt] at h
  split at h
  · rename_i u hu
    rw [hu] at h1
    cases h
    exact ⟨h1.mem, h1.d, h1.ccr, h1.sr, .inl h1.status, h1.faultRecord⟩
  · cases h
  · rename_i c u hu
    rw [hu] at h1
    have h1 : EntryFrame none s u := h1
    split at h
    · cases h
      exact ⟨h1.mem.trans (MemFrame.of_eq rfl rfl rfl rfl rfl), h1.d, h1.ccr, h1.sr, .inr rfl, h1.faultRecord⟩
    · have h2 := enter_frame c.vector c.faultStatus pcx none u
      split at h
      · rename_i w hw
        rw [hw] at h2
        have h2 : EntryFrame none u w := h2
        cases h
        exact ⟨h1.mem.trans h2.mem, h2.d.trans h1.d, h2.ccr.trans h1.ccr, by rw [h2.sr, h1.sr]; rfl,
          .inl (h2.status.trans h1.status), h2.faultRecord.trans h1.faultRecord⟩
      · cases h
      · rename_i c' w hw
        rw [hw] at h2
        have h2 : EntryFrame none u w := h2
        cases h
        exact ⟨h1.mem.trans (h2.mem.trans (MemFrame.of_eq rfl rfl rfl rfl rfl)), h2.d.trans h1.d,
          h2.ccr.trans h1.ccr, h2.sr.trans (by rw [h1.sr]; rfl), .inr rfl, h2.faultRecord.trans h1.faultRecord⟩

/-- Exception entry never ends in a fault. -/
theorem enterOrHalt_ne_fault {b : Bool} {v : Byte} {fs : BitVec 4} {pcx : Word} {irq : Option (BitVec 3)} {s : State}
    {f : Fault} : enterOrHalt b v fs pcx irq s ≠ .fault f := by
  intro h
  simp only [enterOrHalt] at h
  split at h
  · cases h
  · cases h
  · split at h
    · cases h
    · split at h <;> cases h

/-- What can follow an exception: under terminal the fault of R200, under vectored a next state or a refusal. -/
theorem takeException_fault {c : Cause} {s : State} {f : Fault} (h : takeException c s = .fault f) :
    s.params.trapModel = .terminal ∧ f = .exception ⟨c, s.pc⟩ { s with faultRecord := some ⟨c, s.pc⟩ } := by
  cases ht : s.params.trapModel with
  | terminal =>
    rw [takeException_terminal ht] at h
    cases h
    exact ⟨rfl, rfl⟩
  | vectored =>
    rw [takeException_vectored ht] at h
    exact (enterOrHalt_ne_fault h).elim

theorem takeException_next {c : Cause} {s t : State} (h : takeException c s = .next t) :
    s.params.trapModel = .vectored ∧ MemFrame s t ∧ t.d = s.d ∧ t.ccr = s.ccr ∧ t.sr = entrySr s.sr none ∧
      (t.status = s.status ∨ t.status = .faultOnFault) ∧ t.faultRecord = s.faultRecord := by
  cases ht : s.params.trapModel with
  | terminal =>
    rw [takeException_terminal ht] at h
    cases h
  | vectored =>
    rw [takeException_vectored ht] at h
    exact ⟨rfl, enterOrHalt_next h⟩

/-! ### The end of an instruction -/

@[simp] theorem deliver_ok (v : Unit) (s : State) : deliver (.ok v s) = .next s := rfl
@[simp] theorem deliver_raise (c : Cause) (s : State) : deliver (.raise c s) = takeException c s := rfl
@[simp] theorem deliver_refuse (r : Refusal) : deliver (.refuse r) = .refused r := rfl

@[simp] theorem finish_ok (n : Nat) (v : Unit) (s : State) :
    finish n (.ok v s) = .next (s.setPc (s.pc + BitVec.ofNat 32 (2 * n))) := rfl
@[simp] theorem finish_raise (n : Nat) (c : Cause) (s : State) : finish n (.raise c s) = takeException c s := rfl
@[simp] theorem finish_refuse (n : Nat) (r : Refusal) : finish n (.refuse r) = .refused r := rfl

/-- A next state is the end of an instruction that completed, or the entry of the exception it raised. -/
theorem deliver_next {r : Res Unit} {t : State} (h : deliver r = .next t) :
    r = .ok () t ∨ ∃ c s, r = .raise c s ∧ takeException c s = .next t := by
  cases r with
  | ok v s => cases h; exact .inl rfl
  | raise c s => exact .inr ⟨c, s, rfl, h⟩
  | refuse e => cases h

theorem finish_next {n : Nat} {r : Res Unit} {t : State} (h : finish n r = .next t) :
    (∃ s, r = .ok () s ∧ t = s.setPc (s.pc + BitVec.ofNat 32 (2 * n))) ∨
      ∃ c s, r = .raise c s ∧ takeException c s = .next t := by
  cases r with
  | ok v s => cases h; exact .inl ⟨s, rfl, rfl⟩
  | raise c s => exact .inr ⟨c, s, rfl, h⟩
  | refuse e => cases h

theorem finish_fault {n : Nat} {r : Res Unit} {f : Fault} (h : finish n r = .fault f) :
    ∃ c s, r = .raise c s ∧ takeException c s = .fault f := by
  cases r with
  | ok v s => cases h
  | raise c s => exact ⟨c, s, rfl, h⟩
  | refuse e => cases h

theorem deliver_fault {r : Res Unit} {f : Fault} (h : deliver r = .fault f) :
    ∃ c s, r = .raise c s ∧ takeException c s = .fault f := by
  cases r with
  | ok v s => cases h
  | raise c s => exact ⟨c, s, rfl, h⟩
  | refuse e => cases h

end Sys2Proof.Machine
end

