-- ==== Sys2Proof/Laws/Bodies.lean ====
section
/-! SUPPORT. What the body of each instruction changes: pc, the status register's high byte, the vector base register
and the run status stay as they were, and the flags do where an exception is raised (R208). -/

namespace Sys2Proof.Machine

/-- What the body of an instruction leaves as it was: all but registers, flags and memory; of memory, rom and the
program text. -/
structure BodyFrame (s t : State) : Prop where
  mem : MemFrame s t
  pc : t.pc = s.pc
  sr : t.sr = s.sr
  status : t.status = s.status
  faultRecord : t.faultRecord = s.faultRecord

/-- No flag is changed either. -/
structure Quiet (s t : State) : Prop extends BodyFrame s t where
  ccr : t.ccr = s.ccr

theorem BodyFrame.refl (s : State) : BodyFrame s s := ⟨MemFrame.refl s, rfl, rfl, rfl, rfl⟩

theorem BodyFrame.trans {s t u : State} (h : BodyFrame s t) (k : BodyFrame t u) : BodyFrame s u :=
  ⟨h.mem.trans k.mem, k.pc.trans h.pc, k.sr.trans h.sr, k.status.trans h.status, k.faultRecord.trans h.faultRecord⟩

theorem Quiet.refl (s : State) : Quiet s s := ⟨BodyFrame.refl s, rfl⟩

theorem Quiet.trans {s t u : State} (h : Quiet s t) (k : Quiet t u) : Quiet s u :=
  ⟨h.toBodyFrame.trans k.toBodyFrame, k.ccr.trans h.ccr⟩

theorem AccessFrame.quiet {s t : State} (h : AccessFrame s t) : Quiet s t :=
  ⟨⟨h.memFrame, h.pc, h.sr, h.status, h.faultRecord⟩, h.ccr⟩

theorem Quiet.setA {s t : State} (h : Quiet s t) (n : AReg) (v : Word) : Quiet s (t.setA n v) :=
  h.trans ⟨⟨MemFrame.of_eq rfl rfl rfl rfl rfl, rfl, rfl, rfl, rfl⟩, rfl⟩

theorem Quiet.setD {s t : State} (h : Quiet s t) (n : DReg) (v : Word) : Quiet s (t.setD n v) :=
  h.trans ⟨⟨MemFrame.of_eq rfl rfl rfl rfl rfl, rfl, rfl, rfl, rfl⟩, rfl⟩

theorem Quiet.setR {s t : State} (h : Quiet s t) (n : AnyReg) (v : Word) : Quiet s (t.setR n v) := by
  cases n with
  | d n => exact h.setD n v
  | a n => exact h.setA n v

theorem Quiet.setCcr {s t : State} (h : Quiet s t) (f : Ccr) : BodyFrame s (t.setCcr f) :=
  h.toBodyFrame.trans ⟨MemFrame.of_eq rfl rfl rfl rfl rfl, rfl, rfl, rfl, rfl⟩

theorem Quiet.bump {s t : State} (h : Quiet s t) : Quiet s t.bump :=
  h.trans ⟨⟨⟨rfl, rfl, List.prefix_refl _, Nat.le_succ _, id, id, fun _ _ => rfl⟩, rfl, rfl, rfl, rfl⟩, rfl⟩

theorem Quiet.stepEa {s t : State} (h : Quiet s t) (ea : Ea) (sz : Size) : Quiet s (stepEa ea sz t) := by
  cases ea <;> first | exact h | exact h.setA _ _

/-- What a body does: `BodyFrame` where it completes, and no flag is changed where it raises an exception (R208). -/
abbrev Res.Body {α : Type} (s : State) (r : Res α) : Prop := r.Post (fun _ => BodyFrame s) (Quiet s)

/-- An access continues a body whose flags are not yet written. -/
theorem Res.Sat.body {α β : Type} {P : β → State → Prop} {s s' : State} {x : Res α} {k : α → State → Res β} (hs : Quiet s s')
    (hx : x.Sat (AccessFrame s')) (hk : ∀ v t, Quiet s t → (k v t).Post P (Quiet s)) : (x.bind k).Post P (Quiet s) :=
  Res.Post.bind (hx.mono fun _ h => hs.trans h.quiet).post fun v t ht => hk v t ht

theorem Quiet.forget {s s' : State} (hs : Quiet s s') (n : AReg) : Quiet s (s'.setA n (Config.unspecifiedWord s'.draws)).bump :=
  (hs.setA _ _).bump

theorem forgetStepped_body {α : Type} {P : α → State → Prop} {s : State} {n : Option AReg} {r : Res α} (h : r.Post P (Quiet s)) :
    (forgetStepped n r).Post P (Quiet s) := by
  cases n with
  | none => exact h
  | some n =>
    cases r with
    | ok v t => exact h
    | raise c t => exact Quiet.forget h n
    | refuse e => trivial

theorem withOperand_body {α : Type} {P : α → State → Prop} {ea : Ea} {sz : Size} {x : Word} {s s' : State} {k : Operand → State → Res α}
    (hs : Quiet s s') (hk : ∀ op t, Quiet s t → (k op t).Post P (Quiet s)) : (withOperand ea sz x s' k).Post P (Quiet s) := by
  simp only [withOperand, resolve]
  split
  · rename_i st _
    cases st with
    | cause c => exact hs
    | refusal r => trivial
  · exact forgetStepped_body (hk _ _ (hs.stepEa ea sz))

theorem readOp_body {β : Type} {P : β → State → Prop} {op : Operand} {sz : Size} {s s' : State} {k : Word → State → Res β} (hs : Quiet s s')
    (hk : ∀ v t, Quiet s t → (k v t).Post P (Quiet s)) : ((readOp op sz s').bind k).Post P (Quiet s) :=
  (readOp_frame op sz s').body hs hk

theorem writeOp_body {β : Type} {P : β → State → Prop} {op : Operand} {sz : Size} {v : Word} {s s' : State} {k : Unit → State → Res β}
    (hs : Quiet s s') (hk : ∀ v t, Quiet s t → (k v t).Post P (Quiet s)) : ((writeOp op sz v s').bind k).Post P (Quiet s) := by
  cases op with
  | dreg n => exact hk _ _ (hs.setD _ _)
  | areg n => exact hk _ _ (hs.setA _ _)
  | mem a => exact (memWrite_frame _ _ _ _).body hs hk
  | imm w => trivial

theorem operandAddr_body {β : Type} {P : β → State → Prop} {op : Operand} {s s' : State} {k : Word → State → Res β} (hs : Quiet s s')
    (hk : ∀ v t, Quiet s t → (k v t).Post P (Quiet s)) : ((operandAddr op s').bind k).Post P (Quiet s) := by
  cases op with
  | mem a => exact hk _ _ hs
  | dreg n => trivial
  | areg n => trivial
  | imm w => trivial

/-! ### The bodies -/

theorem aluToD_body (f : Word → Word → Word) (g : Ccr → Word → Word → Ccr) (ea : Ea) (dx : DReg) (s : State) :
    (aluToD f g ea dx s).Body s :=
  withOperand_body (Quiet.refl s) fun _ _ h1 => readOp_body h1 fun _ _ h2 => (h2.setD _ _).setCcr _

theorem aluToEa_body (f : Word → Word → Word) (g : Ccr → Word → Word → Ccr) (dy : DReg) (ea : Ea) (s : State) :
    (aluToEa f g dy ea s).Body s :=
  withOperand_body (Quiet.refl s) fun _ _ h1 => readOp_body h1 fun _ _ h2 => writeOp_body h2 fun _ _ h3 => h3.setCcr _

theorem moveSource_body {α : Type} {P : α → State → Prop} {sz : Size} {src : Ea} {s s' : State}
    {k : Word → State → Res α} (hs : Quiet s s') (hk : ∀ v t, Quiet s t → (k v t).Post P (Quiet s)) :
    (moveSource sz src s' k).Post P (Quiet s) :=
  withOperand_body hs fun _ _ h1 => readOp_body h1 hk

/-- MOVE, whatever gives its destination, if that changes no more than accesses may. -/
theorem moveBody_body {sz : Size} {src dst : Ea} {getDst : State → Res Ea} {s : State}
    (hd : ∀ t, Quiet s t → (getDst t).Sat (Quiet s)) : (moveBody sz src dst getDst s).Body s := by
  simp only [moveBody]
  split
  · trivial
  · exact moveSource_body (Quiet.refl s) fun _ _ h1 => (hd _ h1).post.bind fun _ _ h2 =>
      withOperand_body h2 fun _ _ h3 => writeOp_body h3 fun _ _ h4 => h4.setCcr _

theorem clrBody_body (sz : Size) (ea : Ea) (s : State) : (clrBody sz ea s).Body s :=
  withOperand_body (Quiet.refl s) fun _ _ h1 => writeOp_body h1 fun _ _ h2 => h2.setCcr _

theorem storeAll_body {vs : List Word} {a : Word} {s s' : State} (hs : Quiet s s') : (storeAll vs a s').Body s := by
  induction vs generalizing a s' with
  | nil => exact hs.toBodyFrame
  | cons v vs ih => exact (memWrite_frame _ _ _ _).body hs fun _ _ ht => ih ht

theorem loadAll_body {rs : List AnyReg} {a : Word} {s s' : State} (hs : Quiet s s') : (loadAll rs a s').Body s := by
  induction rs generalizing a s' with
  | nil => exact hs.toBodyFrame
  | cons r rs ih => exact (memRead_frame _ _ _).body hs fun _ _ ht => ih (ht.setR _ _)

theorem asrBody_body (n : Nat) (dx : DReg) (s : State) : (asrBody n dx s).Body s := ((Quiet.refl s).setD _ _).setCcr _

theorem bsetBody_body (b : Nat) (ea : Ea) (x : Word) (s : State) : (bsetBody b ea x s).Body s := by
  simp only [bsetBody]
  split
  · exact ((Quiet.refl s).setD _ _).setCcr _
  · exact withOperand_body (Quiet.refl s) fun _ _ h1 => readOp_body h1 fun _ _ h2 => writeOp_body h2 fun _ _ h3 =>
      h3.setCcr _

/-! ### Fetching -/

theorem fetchExts_frame (n : Nat) (a : Word) (s : State) : AccessFrame s (fetchExts n a s).state := by
  induction n generalizing a s with
  | zero => exact AccessFrame.refl s
  | succ n ih =>
    simp only [fetchExts]
    split
    · exact AccessFrame.refl s
    · exact (readValue_frame _ _ _ _).trans (ih _ _)

/-- Fetching and decoding changes no more than accesses may. -/
theorem fetchInstr_frame (s : State) : (fetchInstr s).Sat (AccessFrame s) := by
  simp only [fetchInstr]
  split
  · exact AccessFrame.refl s
  · split
    · exact AccessFrame.refl s
    · split
      · trivial
      · split
        · trivial
        · split
          · trivial
          · split <;> exact (readValue_frame .fetch s.pc 2 s).trans (fetchExts_frame _ s.ext _)

/-- Fetching the words of a MOVE's destination changes no more than accesses may. -/
theorem fetchDst_frame (sz : Size) (dst : Ea) (x : Word) (s : State) : (fetchDst sz dst x s).Sat (AccessFrame s) := by
  simp only [fetchDst]
  split
  · exact fetchExts_frame _ _ _
  · split
    · trivial
    · exact fetchExts_frame _ _ _

end Sys2Proof.Machine
end

