-- ==== Sys2Proof/Laws/Codec.lean ====
section
/-! SUPPORT. The fields of operation words and extension words, read back from the words they were written to, and the
words of an effective address read both ways. -/

namespace Sys2Proof

/-! ### Register fields -/

@[simp] theorem DReg.ofBits_bits (r : DReg) : DReg.ofBits r.bits = r := rfl
@[simp] theorem AReg.ofBits_bits (r : AReg) : AReg.ofBits r.bits = r := rfl
@[simp] theorem DReg.bits_ofBits (b : BitVec 3) : (DReg.ofBits b).bits = b := rfl
@[simp] theorem AReg.bits_ofBits (b : BitVec 3) : (AReg.ofBits b).bits = b := rfl

/-! ### The five fields of an operation word -/

theorem opWord_top (t : BitVec 4) (r o m g : BitVec 3) : (opWord t r o m g).extractLsb' 12 4 = t := by
  apply BitVec.eq_of_getLsbD_eq
  intro i hi
  simp only [opWord, BitVec.getLsbD_extractLsb', BitVec.getLsbD_append]
  have : i = 0 ∨ i = 1 ∨ i = 2 ∨ i = 3 := by omega
  rcases this with rfl | rfl | rfl | rfl <;> simp

theorem opWord_r (t : BitVec 4) (r o m g : BitVec 3) : (opWord t r o m g).extractLsb' 9 3 = r := by
  apply BitVec.eq_of_getLsbD_eq
  intro i hi
  simp only [opWord, BitVec.getLsbD_extractLsb', BitVec.getLsbD_append]
  have : i = 0 ∨ i = 1 ∨ i = 2 := by omega
  rcases this with rfl | rfl | rfl <;> simp

theorem opWord_o (t : BitVec 4) (r o m g : BitVec 3) : (opWord t r o m g).extractLsb' 6 3 = o := by
  apply BitVec.eq_of_getLsbD_eq
  intro i hi
  simp only [opWord, BitVec.getLsbD_extractLsb', BitVec.getLsbD_append]
  have : i = 0 ∨ i = 1 ∨ i = 2 := by omega
  rcases this with rfl | rfl | rfl <;> simp

theorem opWord_m (t : BitVec 4) (r o m g : BitVec 3) : (opWord t r o m g).extractLsb' 3 3 = m := by
  apply BitVec.eq_of_getLsbD_eq
  intro i hi
  simp only [opWord, BitVec.getLsbD_extractLsb', BitVec.getLsbD_append]
  have : i = 0 ∨ i = 1 ∨ i = 2 := by omega
  rcases this with rfl | rfl | rfl <;> simp

theorem opWord_g (t : BitVec 4) (r o m g : BitVec 3) : (opWord t r o m g).extractLsb' 0 3 = g := by
  apply BitVec.eq_of_getLsbD_eq
  intro i hi
  simp only [opWord, BitVec.getLsbD_extractLsb', BitVec.getLsbD_append]
  have : i = 0 ∨ i = 1 ∨ i = 2 := by omega
  rcases this with rfl | rfl | rfl <;> simp

/-- An operation word is its five fields. -/
theorem opWord_eta (w : Half) :
    opWord (w.extractLsb' 12 4) (w.extractLsb' 9 3) (w.extractLsb' 6 3) (w.extractLsb' 3 3) (w.extractLsb' 0 3) = w := by
  apply BitVec.eq_of_getLsbD_eq
  intro i hi
  simp only [opWord, BitVec.getLsbD_extractLsb', BitVec.getLsbD_append]
  have : i = 0 ∨ i = 1 ∨ i = 2 ∨ i = 3 ∨ i = 4 ∨ i = 5 ∨ i = 6 ∨ i = 7 ∨ i = 8 ∨ i = 9 ∨ i = 10 ∨ i = 11 ∨ i = 12 ∨
    i = 13 ∨ i = 14 ∨ i = 15 := by omega
  rcases this with rfl | rfl | rfl | rfl | rfl | rfl | rfl | rfl | rfl | rfl | rfl | rfl | rfl | rfl | rfl | rfl <;>
    simp

/-! ### Branch words and MOVEQ's word -/

theorem branchWord_top (cc : BitVec 4) (d : Byte) : (0x6#4 ++ cc ++ d).extractLsb' 12 4 = 0x6#4 := by
  apply BitVec.eq_of_getLsbD_eq
  intro i hi
  simp only [BitVec.getLsbD_extractLsb', BitVec.getLsbD_append]
  have : i = 0 ∨ i = 1 ∨ i = 2 ∨ i = 3 := by omega
  rcases this with rfl | rfl | rfl | rfl <;> simp

theorem branchWord_cc (cc : BitVec 4) (d : Byte) : (0x6#4 ++ cc ++ d).extractLsb' 8 4 = cc := by
  apply BitVec.eq_of_getLsbD_eq
  intro i hi
  simp only [BitVec.getLsbD_extractLsb', BitVec.getLsbD_append]
  have : i = 0 ∨ i = 1 ∨ i = 2 ∨ i = 3 := by omega
  rcases this with rfl | rfl | rfl | rfl <;> simp

theorem branchWord_disp (cc : BitVec 4) (d : Byte) : (0x6#4 ++ cc ++ d).extractLsb' 0 8 = d := by
  apply BitVec.eq_of_getLsbD_eq
  intro i hi
  simp only [BitVec.getLsbD_extractLsb', BitVec.getLsbD_append]
  simp [hi]

theorem branchWord_eta {w : Half} (h : w.extractLsb' 12 4 = 0x6#4) :
    0x6#4 ++ w.extractLsb' 8 4 ++ w.extractLsb' 0 8 = w := by
  rw [← h]
  apply BitVec.eq_of_getLsbD_eq
  intro i hi
  simp only [BitVec.getLsbD_extractLsb', BitVec.getLsbD_append]
  have : i < 8 ∨ i = 8 ∨ i = 9 ∨ i = 10 ∨ i = 11 ∨ i = 12 ∨ i = 13 ∨ i = 14 ∨ i = 15 := by omega
  rcases this with h8 | rfl | rfl | rfl | rfl | rfl | rfl | rfl | rfl
  · simp [h8]
  all_goals simp

theorem moveqWord_top (r : BitVec 3) (d : Byte) : (0x7#4 ++ r ++ 0#1 ++ d).extractLsb' 12 4 = 0x7#4 := by
  apply BitVec.eq_of_getLsbD_eq
  intro i hi
  simp only [BitVec.getLsbD_extractLsb', BitVec.getLsbD_append]
  have : i = 0 ∨ i = 1 ∨ i = 2 ∨ i = 3 := by omega
  rcases this with rfl | rfl | rfl | rfl <;> simp

theorem moveqWord_r (r : BitVec 3) (d : Byte) : (0x7#4 ++ r ++ 0#1 ++ d).extractLsb' 9 3 = r := by
  apply BitVec.eq_of_getLsbD_eq
  intro i hi
  simp only [BitVec.getLsbD_extractLsb', BitVec.getLsbD_append]
  have : i = 0 ∨ i = 1 ∨ i = 2 := by omega
  rcases this with rfl | rfl | rfl <;> simp

theorem moveqWord_bit8 (r : BitVec 3) (d : Byte) : (0x7#4 ++ r ++ 0#1 ++ d).getLsbD 8 = false := by
  simp only [BitVec.getLsbD_append]
  rfl

theorem moveqWord_data (r : BitVec 3) (d : Byte) : (0x7#4 ++ r ++ 0#1 ++ d).extractLsb' 0 8 = d := by
  apply BitVec.eq_of_getLsbD_eq
  intro i hi
  simp only [BitVec.getLsbD_extractLsb', BitVec.getLsbD_append]
  simp [hi]

theorem moveqWord_eta {w : Half} (h : w.extractLsb' 12 4 = 0x7#4) (h8 : w.getLsbD 8 = false) :
    0x7#4 ++ w.extractLsb' 9 3 ++ 0#1 ++ w.extractLsb' 0 8 = w := by
  rw [← h]
  apply BitVec.eq_of_getLsbD_eq
  intro i hi
  simp only [BitVec.getLsbD_extractLsb', BitVec.getLsbD_append]
  have : i < 8 ∨ i = 8 ∨ i = 9 ∨ i = 10 ∨ i = 11 ∨ i = 12 ∨ i = 13 ∨ i = 14 ∨ i = 15 := by omega
  rcases this with hi8 | rfl | rfl | rfl | rfl | rfl | rfl | rfl | rfl
  · simp [hi8]
  · simpa using h8.symm
  all_goals simp

/-! ### Extension words -/

theorem longWords_join (v : Word) : v.extractLsb' 16 16 ++ v.extractLsb' 0 16 = v := by
  apply BitVec.eq_of_getLsbD_eq
  intro i hi
  simp only [BitVec.getLsbD_extractLsb', BitVec.getLsbD_append]
  by_cases h : i < 16
  · simp [h]
  · simp only [h, decide_false, Bool.false_and]
    have : i - 16 < 16 := by omega
    simp only [this, decide_true, Bool.true_and, if_false]
    rw [show 16 + (i - 16) = i by omega]


theorem longWords_append (a b : Half) : longWords (a ++ b) = [a, b] := by
  simp only [longWords, List.cons.injEq, and_true]
  constructor <;>
  · apply BitVec.eq_of_getLsbD_eq
    intro i hi
    simp only [BitVec.getLsbD_extractLsb', BitVec.getLsbD_append]
    simp [hi]

/-- A word written from an index word's fields reads back as those fields (R63, R64). -/
theorem IndexWord.ofHalf_toHalf (e : IndexWord) : IndexWord.ofHalf e.toHalf = e := by
  obtain ⟨xi, long, scale, reserved, disp⟩ := e
  have hr : ∀ (b : BitVec 1) (n : BitVec 3),
      ((b ++ n) ++ BitVec.ofBool long ++ scale ++ BitVec.ofBool reserved ++ disp : Half).extractLsb' 12 3 = n := by
    intro b n
    apply BitVec.eq_of_getLsbD_eq
    intro i hi
    simp only [BitVec.getLsbD_extractLsb', BitVec.getLsbD_append]
    have : i = 0 ∨ i = 1 ∨ i = 2 := by omega
    rcases this with rfl | rfl | rfl <;> simp
  have ht : ∀ (b : BitVec 1) (n : BitVec 3),
      ((b ++ n) ++ BitVec.ofBool long ++ scale ++ BitVec.ofBool reserved ++ disp : Half).getLsbD 15 = b.getLsbD 0 := by
    intro b n
    simp only [BitVec.getLsbD_append]
    rfl
  have hl : ∀ x : BitVec 4, (x ++ BitVec.ofBool long ++ scale ++ BitVec.ofBool reserved ++ disp : Half).getLsbD 11 = long
      := by
    intro x
    simp only [BitVec.getLsbD_append]
    simp
  have hs : ∀ x : BitVec 4, (x ++ BitVec.ofBool long ++ scale ++ BitVec.ofBool reserved ++ disp : Half).extractLsb' 9 2 =
      scale := by
    intro x
    apply BitVec.eq_of_getLsbD_eq
    intro i hi
    simp only [BitVec.getLsbD_extractLsb', BitVec.getLsbD_append]
    have : i = 0 ∨ i = 1 := by omega
    rcases this with rfl | rfl <;> simp
  have h8 : ∀ x : BitVec 4, (x ++ BitVec.ofBool long ++ scale ++ BitVec.ofBool reserved ++ disp : Half).getLsbD 8 =
      reserved := by
    intro x
    simp only [BitVec.getLsbD_append]
    simp
  have hd : ∀ x : BitVec 4, (x ++ BitVec.ofBool long ++ scale ++ BitVec.ofBool reserved ++ disp : Half).extractLsb' 0 8 =
      disp := by
    intro x
    apply BitVec.eq_of_getLsbD_eq
    intro i hi
    simp only [BitVec.getLsbD_extractLsb', BitVec.getLsbD_append]
    simp [hi]
  cases xi <;> simp only [IndexWord.ofHalf, IndexWord.toHalf, AnyReg.bits, hr, ht, hl, hs, h8, hd] <;> rfl

/-- Every word is some index word, no bit dropped (R63, R64). -/
theorem IndexWord.toHalf_ofHalf (w : Half) : (IndexWord.ofHalf w).toHalf = w := by
  have hx : (IndexWord.ofHalf w).xi.bits = BitVec.ofBool (w.getLsbD 15) ++ w.extractLsb' 12 3 := by
    simp only [IndexWord.ofHalf]
    cases w.getLsbD 15 <;> rfl
  simp only [IndexWord.toHalf, hx]
  simp only [IndexWord.ofHalf]
  apply BitVec.eq_of_getLsbD_eq
  intro i hi
  simp only [BitVec.getLsbD_extractLsb', BitVec.getLsbD_append]
  have : i < 8 ∨ i = 8 ∨ i = 9 ∨ i = 10 ∨ i = 11 ∨ i = 12 ∨ i = 13 ∨ i = 14 ∨ i = 15 := by omega
  rcases this with h8 | rfl | rfl | rfl | rfl | rfl | rfl | rfl | rfl
  · simp [h8]
  all_goals simp

/-! ### Effective addresses -/

/-- An effective address has as many extension words as R62 says. -/
@[simp] theorem Ea.exts_length (ea : Ea) (sz : Size) : (ea.exts sz).length = ea.words sz := by
  cases ea <;> first | rfl | (cases sz <;> rfl)

/-- The words of an effective address, whatever follows them, read back as it (R62, R65, R66). -/
theorem decodeEa_exts {ea : Ea} {sz : Size} (h : ea.immFits sz = true) (rest : List Half) :
    decodeEa ea.mode ea.reg sz (ea.exts sz ++ rest) = .ok ea := by
  have hz : ∀ v : Word, v.toNat < 2 ^ 16 → (v.extractLsb' 0 16).setWidth 32 = v := fun v hv => by
    apply BitVec.eq_of_toNat_eq
    simp only [BitVec.toNat_setWidth, BitVec.extractLsb'_toNat, Nat.shiftRight_zero]
    omega
  cases ea with
  | dreg n => rfl
  | areg n => rfl
  | ind n => rfl
  | postinc n => rfl
  | predec n => rfl
  | disp d n => rfl
  | index e n =>
    refine Eq.trans (b := .ok (.index (IndexWord.ofHalf e.toHalf) n)) rfl ?_
    rw [IndexWord.ofHalf_toHalf]
  | absW a => rfl
  | absL a =>
    refine Eq.trans (b := .ok (.absL (a.extractLsb' 16 16 ++ a.extractLsb' 0 16))) rfl ?_
    rw [longWords_join]
  | pcDisp d => rfl
  | pcIndex e =>
    refine Eq.trans (b := .ok (.pcIndex (IndexWord.ofHalf e.toHalf))) rfl ?_
    rw [IndexWord.ofHalf_toHalf]
  | imm v =>
    simp only [Ea.immFits, decide_eq_true_eq] at h
    cases sz with
    | b =>
      refine Eq.trans (b := .ok (.imm ((v.extractLsb' 0 16).setWidth 32))) rfl ?_
      rw [hz v (Nat.lt_of_lt_of_le h (by decide))]
    | w =>
      refine Eq.trans (b := .ok (.imm ((v.extractLsb' 0 16).setWidth 32))) rfl ?_
      rw [hz v h]
    | l =>
      refine Eq.trans (b := .ok (.imm (v.extractLsb' 16 16 ++ v.extractLsb' 0 16))) rfl ?_
      rw [longWords_join]

/-- An effective address that is read says which words it was read from: its fields, and as many extension words as it
has, no bit dropped (a byte's word has a high byte, which `immFits` rules out). -/
theorem decodeEa_eq_ok {mode reg : BitVec 3} {sz : Size} {xs : List Half} {ea : Ea}
    (h : decodeEa mode reg sz xs = .ok ea) :
    ea.mode = mode ∧ ea.reg = reg ∧ (ea.words sz ≤ xs.length → ea.exts sz = xs.take (ea.words sz)) := by
  have h0 : 1 ≤ xs.length → [xs.getD 0 0] = xs.take 1 := fun hl => by
    cases xs with
    | nil => cases hl
    | cons x xs => rfl
  have h1 : 2 ≤ xs.length → [xs.getD 0 0, xs.getD 1 0] = xs.take 2 := fun hl => by
    cases xs with
    | nil => exact absurd hl (by simp)
    | cons x xs =>
      cases xs with
      | nil => exact absurd hl (by simp)
      | cons y xs => rfl
  have hw : ∀ x : Half, (x.setWidth 32).extractLsb' 0 16 = x := fun x => by
    apply BitVec.eq_of_getLsbD_eq
    intro i hi
    simp only [BitVec.getLsbD_extractLsb', BitVec.getLsbD_setWidth]
    simp [hi]
    omega
  have h8 : ∀ b : BitVec 3, b = 0 ∨ b = 1 ∨ b = 2 ∨ b = 3 ∨ b = 4 ∨ b = 5 ∨ b = 6 ∨ b = 7 := by decide
  rcases h8 mode with rfl | rfl | rfl | rfl | rfl | rfl | rfl | rfl
  · cases h; exact ⟨rfl, rfl, fun _ => rfl⟩
  · cases h; exact ⟨rfl, rfl, fun _ => rfl⟩
  · cases h; exact ⟨rfl, rfl, fun _ => rfl⟩
  · cases h; exact ⟨rfl, rfl, fun _ => rfl⟩
  · cases h; exact ⟨rfl, rfl, fun _ => rfl⟩
  · cases h; exact ⟨rfl, rfl, h0⟩
  · cases h
    exact ⟨rfl, rfl, fun hl => by rw [Ea.exts, IndexWord.toHalf_ofHalf]; exact h0 hl⟩
  rcases h8 reg with rfl | rfl | rfl | rfl | rfl | rfl | rfl | rfl
  · cases h; exact ⟨rfl, rfl, h0⟩
  · cases h; exact ⟨rfl, rfl, fun hl => (longWords_append _ _).trans (h1 hl)⟩
  · cases h; exact ⟨rfl, rfl, h0⟩
  · cases h
    exact ⟨rfl, rfl, fun hl => by rw [Ea.exts, IndexWord.toHalf_ofHalf]; exact h0 hl⟩
  · cases sz with
    | b => cases h; exact ⟨rfl, rfl, fun hl => (congrArg (fun x => [x]) (hw _)).trans (h0 hl)⟩
    | w => cases h; exact ⟨rfl, rfl, fun hl => (congrArg (fun x => [x]) (hw _)).trans (h0 hl)⟩
    | l => cases h; exact ⟨rfl, rfl, fun hl => (longWords_append _ _).trans (h1 hl)⟩
  · cases h
  · cases h
  · cases h

end Sys2Proof
end

