-- ==== Sys2Proof/Laws/Exec.lean ====
section
/-! SUPPORT. What every instruction does, said once: the parts of the state it leaves as they were, and the exceptions
it can raise. -/

namespace Sys2Proof.Machine

/-! ### What an instruction that completes leaves as it was -/

/-- The state an instruction completes with: the status register's high byte, the fault record, rom, the program text
and the parameters are as before, and only HALT changes the run status. -/
structure Done (i : Instr) (s t : State) : Prop where
  mem : MemFrame s t
  sr : t.sr = s.sr
  status : t.status = s.status ∨ i = .halt ∧ t.status = .halted
  faultRecord : t.faultRecord = s.faultRecord

theorem BodyFrame.done {s t : State} (h : BodyFrame s t) (i : Instr) (v : Word) : Done i s (t.setPc v) :=
  ⟨h.mem.trans (MemFrame.of_eq rfl rfl rfl rfl rfl), h.sr, .inl h.status, h.faultRecord⟩

/-- `r` is a way to write an instruction's outcome. -/
abbrev Outcome (i : Instr) (s : State) (r : Res Unit) : Prop :=
  exec i s = deliver r ∧ r.Post (fun _ => Done i s) (Quiet s)

theorem outcome_finish {i : Instr} {s : State} {n : Nat} {r : Res Unit} (he : exec i s = finish n r) (h : r.Body s) :
    ∃ r, Outcome i s r :=
  ⟨_, he, Res.Post.bind h fun _ _ ht => ht.done i _⟩

theorem outcome_register {i : Instr} {s : State} {n : Nat} {dx : DReg} {v : Word} {f : Ccr}
    (he : exec i s = finish n (.ok () ((s.setD dx v).setCcr f))) : ∃ r, Outcome i s r :=
  outcome_finish he (((Quiet.refl s).setD dx v).setCcr f)

theorem outcome_branch {i : Instr} {s : State} {b : Bool} {disp : BranchDisp} (he : exec i s = branchIf b disp s) :
    ∃ r, Outcome i s r :=
  ⟨_, he, (BodyFrame.refl s).done i _⟩

/-- Every instruction's outcome: where it completes, `Done`; where it raises an exception, no flag is changed either
(R208). -/
theorem exec_outcome (i : Instr) (s : State) : ∃ r, Outcome i s r := by
  have q := Quiet.refl s
  cases i with
  | addx dy dx => exact outcome_register rfl
  | addToD ea dx => exact outcome_finish rfl (aluToD_body _ _ ea dx s)
  | addToEa dy ea => exact outcome_finish rfl (aluToEa_body _ _ dy ea s)
  | adda ea ax =>
    exact outcome_finish rfl (withOperand_body q fun _ _ h1 => readOp_body h1 fun _ _ h2 => (h2.setA _ _).toBodyFrame)
  | addi data dx => exact outcome_register rfl
  | subToD ea dx => exact outcome_finish rfl (aluToD_body _ _ ea dx s)
  | subToEa dy ea => exact outcome_finish rfl (aluToEa_body _ _ dy ea s)
  | cmpa ea ax => exact outcome_finish rfl (withOperand_body q fun _ _ h1 => readOp_body h1 fun _ _ h2 => h2.setCcr _)
  | andToD ea dx => exact outcome_finish rfl (aluToD_body _ _ ea dx s)
  | andToEa dy ea => exact outcome_finish rfl (aluToEa_body _ _ dy ea s)
  | movea sz ea ax => exact outcome_finish rfl (moveSource_body q fun _ _ h1 => (h1.setA _ _).toBodyFrame)
  | moveB src dst => exact outcome_finish rfl (moveBody_body fun _ h => h)
  | moveL src dst => exact outcome_finish rfl (moveBody_body fun _ h => h)
  | moveW src dst => exact outcome_finish rfl (moveBody_body fun _ h => h)
  | moveq data dx => exact outcome_register rfl
  | movemStore mask ea =>
    exact outcome_finish rfl (withOperand_body q fun _ _ h1 => operandAddr_body h1 fun _ _ h2 => storeAll_body h2)
  | movemLoad mask ea =>
    exact outcome_finish rfl (withOperand_body q fun _ _ h1 => operandAddr_body h1 fun _ _ h2 => loadAll_body h2)
  | lea ea ax =>
    exact outcome_finish rfl
      (withOperand_body q fun _ _ h1 => operandAddr_body h1 fun _ _ h2 => (h2.setA _ _).toBodyFrame)
  | clrB ea => exact outcome_finish rfl (clrBody_body _ ea s)
  | clrW ea => exact outcome_finish rfl (clrBody_body _ ea s)
  | clrL ea => exact outcome_finish rfl (clrBody_body _ ea s)
  | asrImm count dx => exact outcome_finish (n := 1) rfl (asrBody_body _ dx s)
  | asrReg dy dx => exact outcome_finish (n := 1) rfl (asrBody_body _ dx s)
  | bsetImm num ea => exact outcome_finish rfl (bsetBody_body _ ea _ s)
  | bsetReg dy ea => exact outcome_finish rfl (bsetBody_body _ ea _ s)
  | bra disp => exact outcome_branch rfl
  | bsr disp =>
    refine ⟨_, rfl, (memWrite_frame _ _ _ _).body (q.setA _ _) fun _ t h1 => ?_⟩
    exact h1.toBodyFrame.done _ _
  | bhi disp => exact outcome_branch rfl
  | bls disp => exact outcome_branch rfl
  | bcc disp => exact outcome_branch rfl
  | bcs disp => exact outcome_branch rfl
  | bne disp => exact outcome_branch rfl
  | beq disp => exact outcome_branch rfl
  | bvc disp => exact outcome_branch rfl
  | bvs disp => exact outcome_branch rfl
  | bpl disp => exact outcome_branch rfl
  | bmi disp => exact outcome_branch rfl
  | bge disp => exact outcome_branch rfl
  | blt disp => exact outcome_branch rfl
  | bgt disp => exact outcome_branch rfl
  | ble disp => exact outcome_branch rfl
  | rts =>
    refine ⟨_, rfl, (memRead_frame _ _ _).body q fun _ t h1 => ?_⟩
    exact (h1.setA _ _).toBodyFrame.done _ _
  | halt =>
    refine ⟨_, rfl, ?_⟩
    split
    · exact ⟨MemFrame.of_eq rfl rfl rfl rfl rfl, rfl, .inr ⟨rfl, rfl⟩, rfl⟩
    · exact q

/-- A MOVE that fetches its destination's words on the way does what `Done` says too. -/
theorem runMove_outcome (sz : Size) (src dst : Ea) (i : Instr) (s : State) :
    ∃ r, runMove sz src dst s = deliver r ∧ r.Post (fun _ => Done i s) (Quiet s) := by
  have hb : (moveBody sz src dst (fetchDst sz dst (s.ext + BitVec.ofNat 32 (2 * src.words sz))) s).Body s :=
    moveBody_body fun t ht => (fetchDst_frame _ _ _ t).mono fun _ h => ht.trans h.quiet
  exact ⟨_, rfl, hb.bind fun _ _ ht => ht.done i _⟩

/-- The outcome of an instruction once its first words are fetched. -/
theorem runFetched_outcome (i : Instr) (s : State) :
    ∃ r, runFetched i s = deliver r ∧ r.Post (fun _ => Done i s) (Quiet s) := by
  simp only [runFetched]
  split <;> first | exact runMove_outcome _ _ _ _ s | exact exec_outcome _ s

/-! ### The exceptions an instruction can raise -/

/-- The exception an outcome raises, if it raises one, is an access or an address error (R201). -/
def Res.Errors {α : Type} : Res α → Prop
  | .raise c _ => c.isAccessOrAddress = true
  | _ => True

theorem Res.Errors.bind {α β : Type} {x : Res α} {k : α → State → Res β} (hx : x.Errors)
    (hk : ∀ v t, (k v t).Errors) : (x.bind k).Errors := by
  cases x with
  | ok v s => exact hk v s
  | raise c s => exact hx
  | refuse r => trivial

theorem readUnit_errors (k : Access) (a : Word) (n : Nat) (s : State) : (readUnit k a n s).Errors := by
  simp only [readUnit, readFault]
  split
  · rename_i c hc
    obtain ⟨x, _, rfl⟩ := Option.map_eq_some_iff.mp hc
    rfl
  · trivial

theorem writeUnit_errors (a : Word) (n : Nat) (v : Word) (s : State) : (writeUnit a n v s).Errors := by
  simp only [writeUnit]
  split
  · rename_i st hst
    simp only [writeStop, List.findSome?_eq_some_iff] at hst
    obtain ⟨_, x, _, _, hx, _⟩ := hst
    simp only [byteWriteStop] at hx
    split at hx
    · cases hx; rfl
    · cases hx; rfl
    · split at hx
      · cases hx; trivial
      · cases hx
  · trivial

theorem readSplit_errors (n : Nat) (a acc : Word) (s : State) : (readSplit n a acc s).Errors := by
  induction n generalizing a acc s with
  | zero => trivial
  | succ n ih => exact (readUnit_errors _ _ _ _).bind fun _ _ => ih _ _ _

theorem writeSplit_errors (bs : List Byte) (a : Word) (s : State) : (writeSplit bs a s).Errors := by
  induction bs generalizing a s with
  | nil => trivial
  | cons b bs ih => exact (writeUnit_errors _ _ _ _).bind fun _ _ => ih _ _

theorem memRead_errors (a : Word) (n : Nat) (s : State) : (memRead a n s).Errors := by
  simp only [memRead]
  split
  · exact readUnit_errors _ _ _ _
  · split
    · exact readSplit_errors _ _ _ _
    · rfl

theorem memWrite_errors (a : Word) (n : Nat) (v : Word) (s : State) : (memWrite a n v s).Errors := by
  simp only [memWrite]
  split
  · exact writeUnit_errors _ _ _ _
  · split
    · exact writeSplit_errors _ _ _
    · rfl

theorem forgetStepped_errors {α : Type} {n : Option AReg} {r : Res α} (h : r.Errors) : (forgetStepped n r).Errors := by
  cases n <;> cases r <;> exact h

theorem withOperand_errors {α : Type} {ea : Ea} {sz : Size} {x : Word} {s : State} {k : Operand → State → Res α}
    (hk : ∀ op t, (k op t).Errors) : (withOperand ea sz x s k).Errors := by
  have hi : ∀ e st, indexStop s.params e x = some st → (st.toRes s : Res α).Errors := fun e st h => by
    simp only [indexStop] at h
    split at h
    · cases h; trivial
    · split at h
      · cases h; rfl
      · split at h
        · cases h; rfl
        · cases h
  simp only [withOperand, resolve]
  split
  · rename_i st h
    have hs : (st.toRes s : Res α).Errors := by cases ea <;> first | exact hi _ _ h | cases h
    cases st with
    | cause c => exact hs
    | refusal r => trivial
  · exact forgetStepped_errors (hk _ _)

theorem readOp_errors (op : Operand) (sz : Size) (s : State) : (readOp op sz s).Errors := by
  cases op <;> first | trivial | exact memRead_errors _ _ _

theorem writeOp_errors (op : Operand) (sz : Size) (v : Word) (s : State) : (writeOp op sz v s).Errors := by
  cases op <;> first | trivial | exact memWrite_errors _ _ _ _

theorem operandAddr_errors (op : Operand) (s : State) : (operandAddr op s).Errors := by
  cases op <;> trivial

theorem moveSource_errors {α : Type} {sz : Size} {src : Ea} {s : State} {k : Word → State → Res α}
    (hk : ∀ v t, (k v t).Errors) : (moveSource sz src s k).Errors :=
  withOperand_errors fun _ _ => (readOp_errors _ _ _).bind hk

theorem fetchExts_errors {n : Nat} {a : Word} {s : State} {c : Cause} (h : (fetchExts n a s).missing = some c) :
    c.isAccessOrAddress = true := by
  induction n generalizing a s with
  | zero => cases h
  | succ n ih =>
    simp only [fetchExts] at h
    split at h
    · rename_i hr
      cases h
      obtain ⟨x, _, rfl⟩ := Option.map_eq_some_iff.mp hr
      rfl
    · exact ih h

theorem fetchDst_errors (sz : Size) (dst : Ea) (x : Word) (s : State) : (fetchDst sz dst x s).Errors := by
  simp only [fetchDst]
  split
  · rename_i h
    exact fetchExts_errors h
  · split <;> trivial

theorem moveBody_errors {sz : Size} {src dst : Ea} {getDst : State → Res Ea} {s : State}
    (h : ∀ t, (getDst t).Errors) : (moveBody sz src dst getDst s).Errors := by
  simp only [moveBody]
  split
  · trivial
  · exact moveSource_errors fun _ t => (h t).bind fun _ _ =>
      withOperand_errors fun _ _ => (writeOp_errors _ _ _ _).bind fun _ _ => trivial

theorem storeAll_errors (vs : List Word) (a : Word) (s : State) : (storeAll vs a s).Errors := by
  induction vs generalizing a s with
  | nil => trivial
  | cons v vs ih => exact (memWrite_errors _ _ _ _).bind fun _ _ => ih _ _

theorem loadAll_errors (rs : List AnyReg) (a : Word) (s : State) : (loadAll rs a s).Errors := by
  induction rs generalizing a s with
  | nil => trivial
  | cons r rs ih => exact (memRead_errors _ _ _).bind fun _ _ => ih _ _

end Sys2Proof.Machine
end

