-- ==== Sys2Proof/Laws/Fetch.lean ====
section
/-! SUPPORT. What a fetch from plain memory gives: the words that stand there, up to the first that stands outside every
range, and no change of state. -/

namespace Sys2Proof.Machine

theorem readValue_plain {k : Access} {a : Word} {n : Nat} {s : State}
    (h : ∀ x ∈ byteAddrs a n, kindAt s.params x.toNat = some .ram ∨ kindAt s.params x.toNat = some .rom) :
    readValue k a n s = (valueAt s a n, s) := by
  simp only [readValue, readBytes_plain h, valueAt]
  rw [record_plain]
  intro x hx
  rcases h x hx with h | h <;> simp [isDevice, h]

/-- The number in one byte. -/
theorem valueAt_one (s : State) (a : Word) : valueAt s a 1 = (s.byteAt a.toNat).setWidth 32 := by
  simp [valueAt, byteAddrs, beValue]

/-- The number in two bytes, the first the more significant (R40, R41). -/
theorem valueAt_two (s : State) (a : Word) :
    valueAt s a 2 = (s.byteAt a.toNat ++ s.byteAt (a + 1).toNat : Half).setWidth 32 := by
  simp only [valueAt, byteAddrs, beValue, List.map_cons, List.map_nil, List.foldl_cons, List.foldl_nil]
  generalize s.byteAt a.toNat = x
  generalize s.byteAt (a + 1).toNat = y
  apply BitVec.eq_of_getLsbD_eq
  intro i hi
  simp only [BitVec.getLsbD_or, BitVec.getLsbD_shiftLeft, BitVec.getLsbD_setWidth, BitVec.getLsbD_append]
  by_cases h : i < 8
  · simp [h, hi]
  · rw [BitVec.getLsbD_of_ge y i (by omega)]
    have : i - 8 < 32 := by omega
    simp [h, hi, this]

/-- The word fetched from two bytes (R41). -/
theorem fetched_half (s : State) (a : Word) :
    (valueAt s a 2).setWidth 16 = (s.byteAt a.toNat ++ s.byteAt (a + 1).toNat : Half) := by
  rw [valueAt_two]
  apply BitVec.eq_of_getLsbD_eq
  intro i hi
  simp only [BitVec.getLsbD_setWidth]
  simp [hi]
  omega

/-- Extension words of plain memory are the words that stand there (R41). -/
theorem fetchExts_plain {n : Nat} {a : Word} {s : State}
    (h : ∀ x ∈ byteAddrs a (2 * n), kindAt s.params x.toNat = some .ram ∨ kindAt s.params x.toNat = some .rom) :
    fetchExts n a s = ⟨halvesOfBytes ((byteAddrs a (2 * n)).map fun x => s.byteAt x.toNat), none, s⟩ := by
  induction n generalizing a with
  | zero => rfl
  | succ n ih =>
    have hs : byteAddrs a (2 * (n + 1)) = a :: (a + 1) :: byteAddrs (a + 2) (2 * n) := by
      simp only [Nat.mul_succ, byteAddrs, BitVec.add_assoc]
      rfl
    rw [hs] at h
    have h2 : ∀ x ∈ byteAddrs a 2, kindAt s.params x.toNat = some .ram ∨ kindAt s.params x.toNat = some .rom := by
      intro x hx
      simp only [byteAddrs, List.mem_cons, List.not_mem_nil, or_false] at hx
      rcases hx with rfl | rfl
      · exact h _ List.mem_cons_self
      · exact h _ (List.mem_cons_of_mem _ List.mem_cons_self)
    have hr : ∀ x ∈ byteAddrs (a + 2) (2 * n), kindAt s.params x.toNat = some .ram ∨ kindAt s.params x.toNat = some .rom :=
      fun x hx => h x (List.mem_cons_of_mem _ (List.mem_cons_of_mem _ hx))
    simp only [fetchExts, readFault_plain h2, readValue_plain h2, ih hr, hs, List.map_cons, halvesOfBytes, fetched_half]

/-- Extension words whose byte `m` is the first outside every range: the words before it, and its access error (R49,
R206). -/
theorem fetchExts_missing {n m : Nat} {a : Word} {s : State}
    (h : ∀ x ∈ byteAddrs a m, kindAt s.params x.toNat = some .ram ∨ kindAt s.params x.toNat = some .rom)
    (hm : m < 2 * n) (hn : kindAt s.params (a + BitVec.ofNat 32 m).toNat = none) :
    fetchExts n a s =
      ⟨halvesOfBytes ((byteAddrs a m).map fun x => s.byteAt x.toNat),
        some (.accessError (a + BitVec.ofNat 32 m) .fetch false), s⟩ := by
  induction n generalizing a m with
  | zero => omega
  | succ n ih =>
    match m, h, hm, hn with
    | 0, _, _, hn =>
      have hn : kindAt s.params a.toNat = none := by simpa using hn
      have hf : readFault s.params .fetch (byteAddrs a 2) = some (.accessError a .fetch false) := by
        simp [readFault, byteAddrs, hn]
      simp only [fetchExts, hf]
      simp [byteAddrs, halvesOfBytes]
    | 1, h, _, hn =>
      have h0 := h a List.mem_cons_self
      have hn : kindAt s.params (a + 1).toNat = none := by simpa using hn
      have hf : readFault s.params .fetch (byteAddrs a 2) = some (.accessError (a + 1) .fetch false) := by
        rcases h0 with h0 | h0 <;> (simp only [readFault, byteAddrs, List.find?, h0, hn, Option.isNone]; rfl)
      simp only [fetchExts, hf]
      simp [byteAddrs, halvesOfBytes]
    | m + 2, h, hm, hn =>
      have hs : byteAddrs a (m + 2) = a :: (a + 1) :: byteAddrs (a + 2) m := by
        simp only [byteAddrs, BitVec.add_assoc]
        rfl
      rw [hs] at h
      have h2 : ∀ x ∈ byteAddrs a 2, kindAt s.params x.toNat = some .ram ∨ kindAt s.params x.toNat = some .rom := by
        intro x hx
        simp only [byteAddrs, List.mem_cons, List.not_mem_nil, or_false] at hx
        rcases hx with rfl | rfl
        · exact h _ List.mem_cons_self
        · exact h _ (List.mem_cons_of_mem _ List.mem_cons_self)
      have hr : ∀ x ∈ byteAddrs (a + 2) m, kindAt s.params x.toNat = some .ram ∨ kindAt s.params x.toNat = some .rom :=
        fun x hx => h x (List.mem_cons_of_mem _ (List.mem_cons_of_mem _ hx))
      have e : a + BitVec.ofNat 32 (m + 2) = a + 2 + BitVec.ofNat 32 m := by
        rw [BitVec.add_assoc]
        congr 1
        apply BitVec.eq_of_toNat_eq
        simp
        omega
      rw [e] at hn ⊢
      simp only [fetchExts, readFault_plain h2, readValue_plain h2, ih hr (by omega) hn, hs, List.map_cons,
        halvesOfBytes, fetched_half]

/-- What follows the read of a source may use that the read left memory, parameters and pc alone. -/
theorem moveSource_congr {α : Type} {sz : Size} {src : Ea} {s : State} {k k' : Word → State → Res α}
    (h : ∀ v t, t.params = s.params → t.mem = s.mem → t.pc = s.pc → k v t = k' v t) :
    moveSource sz src s k = moveSource sz src s k' := by
  simp only [moveSource, withOperand, resolve]
  split
  · rename_i st _
    cases st <;> rfl
  · simp only [Res.bind_ok]
    congr 1
    have hf := readOp_frame (operandOf src sz s.ext s) sz (stepEa src sz s)
    have hm : ∀ v t, readOp (operandOf src sz s.ext s) sz (stepEa src sz s) = .ok v t → t.mem = s.mem := by
      intro v t hr
      cases ho : operandOf src sz s.ext s with
      | mem a =>
        have hr : memRead a sz.bytes (stepEa src sz s) = .ok v t := by rw [ho] at hr; exact hr
        have hm := memRead_mem a sz.bytes (stepEa src sz s)
        rw [hr] at hm
        exact hm.trans (stepEa_mem src sz s)
      | _ => rw [ho] at hr; cases hr; exact stepEa_mem src sz s
    cases hr : readOp (operandOf src sz s.ext s) sz (stepEa src sz s) with
    | ok v t =>
      rw [hr] at hf
      exact h v t (by rw [hf.params]; simp) (hm v t hr) (by rw [hf.pc]; simp)
    | raise c t => rfl
    | refuse r => rfl

/-- A MOVE whose destination's words stand in plain memory runs as `exec` runs it, with the destination that those words
name (R206). -/
theorem runMove_plain {sz : Size} {src dst₀ dst : Ea} {s : State}
    (hb : baseIsAlsoData src dst₀ = baseIsAlsoData src dst) (hw : dst₀.words sz = dst.words sz)
    (hp : PlainBytes s (s.pc + 2 + BitVec.ofNat 32 (2 * src.words sz)) (2 * dst.words sz))
    (hd : decodeEa dst₀.mode dst₀.reg sz (halvesOfBytes ((byteAddrs (s.pc + 2 + BitVec.ofNat 32 (2 * src.words sz))
      (2 * dst.words sz)).map fun x => s.byteAt x.toNat)) = .ok dst) :
    runMove sz src dst₀ s = finish (1 + src.words sz + dst.words sz) (moveBody sz src dst (.ok dst) s) := by
  simp only [runMove, hw, moveBody, hb]
  split
  · rfl
  congr 1
  apply moveSource_congr
  intro v t h1 h2 h3
  have hp' : PlainBytes t (s.pc + 2 + BitVec.ofNat 32 (2 * src.words sz)) (2 * dst.words sz) := by
    rw [PlainBytes, h1]
    exact hp
  have hbt : ∀ y, t.byteAt y = s.byteAt y := fun y => by simp only [State.byteAt, h2]
  simp only [fetchDst, hw, State.ext, fetchExts_plain hp', hbt, hd]

/-- Halves of bytes, both ways. -/
theorem halvesOfBytes_length (bs : List Byte) : (halvesOfBytes bs).length = bs.length / 2 := by
  induction bs using halvesOfBytes.induct with
  | case1 hi lo rest ih =>
    simp only [halvesOfBytes, List.length_cons, ih]
    omega
  | case2 bs h =>
    cases bs with
    | nil => rfl
    | cons x xs =>
      cases xs with
      | nil => simp [halvesOfBytes]
      | cons y ys => exact absurd rfl (h x y ys)

end Sys2Proof.Machine
end

