-- ==== Sys2Proof/Laws/PerInstr.lean ====
section
/-! SUPPORT. One lemma for each instruction: the encoder writes as many words as the instruction is long, and a
well-formed instruction is at most three words (R68, R154). -/

namespace Sys2Proof

theorem Ea.words_le (ea : Ea) (sz : Size) : ea.words sz ≤ 2 := by
  cases ea <;> first | exact Nat.zero_le _ | exact Nat.le_succ_of_le (Nat.le_refl _) | exact Nat.le_refl _ |
    (cases sz <;> simp [Ea.words])

/-- A destination that R151's table admits leaves room for the source's words (R154). -/
theorem movePair_words {src dst : Ea} {sz : Size} (h : movePair src dst = true) (hd : dst.isDataAlterable = true) :
    src.words sz + dst.words sz ≤ 2 := by
  cases src <;> cases dst <;> first
    | exact Bool.noConfusion h
    | exact Bool.noConfusion hd
    | (cases sz <;> simp [Ea.words])

theorem BranchDisp.words_le (d : BranchDisp) : d.words ≤ 1 := by cases d <;> simp [BranchDisp.words]

theorem branchWords_length (cc : BitVec 4) (d : BranchDisp) : (branchWords cc d).length = 1 + d.words := by
  cases d <;> rfl

namespace Laws.WordCount

-- One lemma at a time: many at once ask for more threads than the checks allow.
set_option Elab.async false

/-- The words the encoder writes are as many as the instruction is long, and no more than three. -/
def Statement (i : Instr) : Prop := (encode i).length = i.words ∧ (i.modesOk = true → i.words ≤ 3)

theorem addx (dy dx : DReg) : Statement (.addx dy dx) := ⟨rfl, fun _ => Nat.succ_le_succ (Nat.zero_le _)⟩

theorem addToD (ea : Ea) (dx : DReg) : Statement (.addToD ea dx) := by
  have := ea.words_le .l
  exact ⟨by simp [encode, Instr.words]; omega, fun _ => by simp only [Instr.words]; omega⟩

theorem addToEa (dy : DReg) (ea : Ea) : Statement (.addToEa dy ea) := by
  have := ea.words_le .l
  exact ⟨by simp [encode, Instr.words]; omega, fun _ => by simp only [Instr.words]; omega⟩

theorem adda (ea : Ea) (ax : AReg) : Statement (.adda ea ax) := by
  have := ea.words_le .l
  exact ⟨by simp [encode, Instr.words]; omega, fun _ => by simp only [Instr.words]; omega⟩

theorem addi (data : Word) (dx : DReg) : Statement (.addi data dx) := ⟨rfl, fun _ => Nat.le_refl _⟩

theorem subToD (ea : Ea) (dx : DReg) : Statement (.subToD ea dx) := by
  have := ea.words_le .l
  exact ⟨by simp [encode, Instr.words]; omega, fun _ => by simp only [Instr.words]; omega⟩

theorem subToEa (dy : DReg) (ea : Ea) : Statement (.subToEa dy ea) := by
  have := ea.words_le .l
  exact ⟨by simp [encode, Instr.words]; omega, fun _ => by simp only [Instr.words]; omega⟩

theorem cmpa (ea : Ea) (ax : AReg) : Statement (.cmpa ea ax) := by
  have := ea.words_le .l
  exact ⟨by simp [encode, Instr.words]; omega, fun _ => by simp only [Instr.words]; omega⟩

theorem andToD (ea : Ea) (dx : DReg) : Statement (.andToD ea dx) := by
  have := ea.words_le .l
  exact ⟨by simp [encode, Instr.words]; omega, fun _ => by simp only [Instr.words]; omega⟩

theorem andToEa (dy : DReg) (ea : Ea) : Statement (.andToEa dy ea) := by
  have := ea.words_le .l
  exact ⟨by simp [encode, Instr.words]; omega, fun _ => by simp only [Instr.words]; omega⟩

theorem movea (sz : Size) (ea : Ea) (ax : AReg) : Statement (.movea sz ea ax) := by
  have := ea.words_le sz
  exact ⟨by simp [encode, Instr.words]; omega, fun _ => by simp only [Instr.words]; omega⟩

theorem moveB (src dst : Ea) : Statement (.moveB src dst) := by
  refine ⟨by simp [encode, Instr.words]; omega, fun h => ?_⟩
  simp only [Instr.modesOk, Bool.and_eq_true] at h
  obtain ⟨⟨_, hd⟩, hp⟩ := h
  have := movePair_words (sz := .b) hp hd
  simp only [Instr.words]
  omega

theorem moveL (src dst : Ea) : Statement (.moveL src dst) := by
  refine ⟨by simp [encode, Instr.words]; omega, fun h => ?_⟩
  simp only [Instr.modesOk, Bool.and_eq_true] at h
  obtain ⟨hd, hp⟩ := h
  have := movePair_words (sz := .l) hp hd
  simp only [Instr.words]
  omega

theorem moveW (src dst : Ea) : Statement (.moveW src dst) := by
  refine ⟨by simp [encode, Instr.words]; omega, fun h => ?_⟩
  simp only [Instr.modesOk, Bool.and_eq_true] at h
  obtain ⟨hd, hp⟩ := h
  have := movePair_words (sz := .w) hp hd
  simp only [Instr.words]
  omega

theorem moveq (data : Byte) (dx : DReg) : Statement (.moveq data dx) := ⟨rfl, fun _ => Nat.succ_le_succ (Nat.zero_le _)⟩

theorem movemStore (mask : Half) (ea : Ea) : Statement (.movemStore mask ea) := by
  refine ⟨by simp [encode, Instr.words]; omega, fun h => ?_⟩
  cases ea <;> first | exact Bool.noConfusion h | simp [Instr.words, Ea.words]

theorem movemLoad (mask : Half) (ea : Ea) : Statement (.movemLoad mask ea) := by
  refine ⟨by simp [encode, Instr.words]; omega, fun h => ?_⟩
  cases ea <;> first | exact Bool.noConfusion h | simp [Instr.words, Ea.words]

theorem lea (ea : Ea) (ax : AReg) : Statement (.lea ea ax) := by
  have := ea.words_le .l
  exact ⟨by simp [encode, Instr.words]; omega, fun _ => by simp only [Instr.words]; omega⟩

theorem clrB (ea : Ea) : Statement (.clrB ea) := by
  have := ea.words_le .b
  exact ⟨by simp [encode, Instr.words]; omega, fun _ => by simp only [Instr.words]; omega⟩

theorem clrW (ea : Ea) : Statement (.clrW ea) := by
  have := ea.words_le .w
  exact ⟨by simp [encode, Instr.words]; omega, fun _ => by simp only [Instr.words]; omega⟩

theorem clrL (ea : Ea) : Statement (.clrL ea) := by
  have := ea.words_le .l
  exact ⟨by simp [encode, Instr.words]; omega, fun _ => by simp only [Instr.words]; omega⟩

theorem asrImm (count : BitVec 3) (dx : DReg) : Statement (.asrImm count dx) := ⟨rfl, fun _ => Nat.succ_le_succ (Nat.zero_le _)⟩

theorem asrReg (dy dx : DReg) : Statement (.asrReg dy dx) := ⟨rfl, fun _ => Nat.succ_le_succ (Nat.zero_le _)⟩

theorem bsetImm (num : Half) (ea : Ea) : Statement (.bsetImm num ea) := by
  refine ⟨by simp [encode, Instr.words]; omega, fun h => ?_⟩
  cases ea <;> first | exact Bool.noConfusion h | simp [Instr.words, Ea.words]

theorem bsetReg (dy : DReg) (ea : Ea) : Statement (.bsetReg dy ea) := by
  have := ea.words_le .b
  exact ⟨by simp [encode, Instr.words]; omega, fun _ => by simp only [Instr.words]; omega⟩

theorem bra (disp : BranchDisp) : Statement (.bra disp) := by
  have := disp.words_le
  exact ⟨branchWords_length _ _, fun _ => by simp only [Instr.words]; omega⟩

theorem bsr (disp : BranchDisp) : Statement (.bsr disp) := by
  have := disp.words_le
  exact ⟨branchWords_length _ _, fun _ => by simp only [Instr.words]; omega⟩

theorem bhi (disp : BranchDisp) : Statement (.bhi disp) := by
  have := disp.words_le
  exact ⟨branchWords_length _ _, fun _ => by simp only [Instr.words]; omega⟩

theorem bls (disp : BranchDisp) : Statement (.bls disp) := by
  have := disp.words_le
  exact ⟨branchWords_length _ _, fun _ => by simp only [Instr.words]; omega⟩

theorem bcc (disp : BranchDisp) : Statement (.bcc disp) := by
  have := disp.words_le
  exact ⟨branchWords_length _ _, fun _ => by simp only [Instr.words]; omega⟩

theorem bcs (disp : BranchDisp) : Statement (.bcs disp) := by
  have := disp.words_le
  exact ⟨branchWords_length _ _, fun _ => by simp only [Instr.words]; omega⟩

theorem bne (disp : BranchDisp) : Statement (.bne disp) := by
  have := disp.words_le
  exact ⟨branchWords_length _ _, fun _ => by simp only [Instr.words]; omega⟩

theorem beq (disp : BranchDisp) : Statement (.beq disp) := by
  have := disp.words_le
  exact ⟨branchWords_length _ _, fun _ => by simp only [Instr.words]; omega⟩

theorem bvc (disp : BranchDisp) : Statement (.bvc disp) := by
  have := disp.words_le
  exact ⟨branchWords_length _ _, fun _ => by simp only [Instr.words]; omega⟩

theorem bvs (disp : BranchDisp) : Statement (.bvs disp) := by
  have := disp.words_le
  exact ⟨branchWords_length _ _, fun _ => by simp only [Instr.words]; omega⟩

theorem bpl (disp : BranchDisp) : Statement (.bpl disp) := by
  have := disp.words_le
  exact ⟨branchWords_length _ _, fun _ => by simp only [Instr.words]; omega⟩

theorem bmi (disp : BranchDisp) : Statement (.bmi disp) := by
  have := disp.words_le
  exact ⟨branchWords_length _ _, fun _ => by simp only [Instr.words]; omega⟩

theorem bge (disp : BranchDisp) : Statement (.bge disp) := by
  have := disp.words_le
  exact ⟨branchWords_length _ _, fun _ => by simp only [Instr.words]; omega⟩

theorem blt (disp : BranchDisp) : Statement (.blt disp) := by
  have := disp.words_le
  exact ⟨branchWords_length _ _, fun _ => by simp only [Instr.words]; omega⟩

theorem bgt (disp : BranchDisp) : Statement (.bgt disp) := by
  have := disp.words_le
  exact ⟨branchWords_length _ _, fun _ => by simp only [Instr.words]; omega⟩

theorem ble (disp : BranchDisp) : Statement (.ble disp) := by
  have := disp.words_le
  exact ⟨branchWords_length _ _, fun _ => by simp only [Instr.words]; omega⟩

theorem rts : Statement .rts := ⟨rfl, fun _ => Nat.succ_le_succ (Nat.zero_le _)⟩

theorem halt : Statement .halt := ⟨rfl, fun _ => Nat.succ_le_succ (Nat.zero_le _)⟩

/-- Every instruction: its words and its length. -/
theorem all (i : Instr) : Statement i :=
  match i with
  | .addx dy dx => addx dy dx
  | .addToD ea dx => addToD ea dx
  | .addToEa dy ea => addToEa dy ea
  | .adda ea ax => adda ea ax
  | .addi data dx => addi data dx
  | .subToD ea dx => subToD ea dx
  | .subToEa dy ea => subToEa dy ea
  | .cmpa ea ax => cmpa ea ax
  | .andToD ea dx => andToD ea dx
  | .andToEa dy ea => andToEa dy ea
  | .movea sz ea ax => movea sz ea ax
  | .moveB src dst => moveB src dst
  | .moveL src dst => moveL src dst
  | .moveW src dst => moveW src dst
  | .moveq data dx => moveq data dx
  | .movemStore mask ea => movemStore mask ea
  | .movemLoad mask ea => movemLoad mask ea
  | .lea ea ax => lea ea ax
  | .clrB ea => clrB ea
  | .clrW ea => clrW ea
  | .clrL ea => clrL ea
  | .asrImm count dx => asrImm count dx
  | .asrReg dy dx => asrReg dy dx
  | .bsetImm num ea => bsetImm num ea
  | .bsetReg dy ea => bsetReg dy ea
  | .bra disp => bra disp
  | .bsr disp => bsr disp
  | .bhi disp => bhi disp
  | .bls disp => bls disp
  | .bcc disp => bcc disp
  | .bcs disp => bcs disp
  | .bne disp => bne disp
  | .beq disp => beq disp
  | .bvc disp => bvc disp
  | .bvs disp => bvs disp
  | .bpl disp => bpl disp
  | .bmi disp => bmi disp
  | .bge disp => bge disp
  | .blt disp => blt disp
  | .bgt disp => bgt disp
  | .ble disp => ble disp
  | .rts => rts
  | .halt => halt

end Laws.WordCount

end Sys2Proof
end

