-- ==== Sys2Proof/Tests/Slice0.lean ====
section
/-! SUPPORT. Tests. Expected values come from spec/: words from the encodings of 30_encoding.md and 41 to 44, results
from the vectors V<n> and examples S<n> of 95_test_vectors.md, or computed by hand from the rule named. -/

namespace Sys2Proof.Tests

-- One theorem at a time: many at once ask for more threads than the checks allow.
set_option Elab.async false

open Sys2Proof Sys2Proof.Machine

/-! ### WellFormed: each check refuses an ill-formed term -/


/-- R132. -/
theorem test_wf_refuses_add_to_register : (Instr.wf (.addToEa ⟨0⟩ (.dreg ⟨1⟩))) = false := by decide

/-- R135. -/
theorem test_wf_refuses_sub_to_address_register : (Instr.wf (.subToEa ⟨0⟩ (.areg ⟨1⟩))) = false := by decide

/-- R171. -/
theorem test_wf_refuses_and_to_pc_relative : (Instr.wf (.andToEa ⟨0⟩ (.pcDisp 4))) = false := by decide

/-- R171, V64. -/
theorem test_wf_refuses_and_from_address_register : (Instr.wf (.andToD (.areg ⟨0⟩) ⟨0⟩)) = false := by decide

/-- R152. -/
theorem test_wf_refuses_movea_byte : (Instr.wf (.movea .b (.dreg ⟨0⟩) ⟨5⟩)) = false := by decide

/-- R151. -/
theorem test_wf_refuses_move_byte_from_address_register : (Instr.wf (.moveB (.areg ⟨0⟩) (.dreg ⟨1⟩))) = false :=
  by decide

/-- R151, V51. -/
theorem test_wf_refuses_move_to_immediate : (Instr.wf (.moveL (.dreg ⟨0⟩) (.imm 0))) = false := by decide

/-- R154, V50. -/
theorem test_wf_refuses_move_immediate_to_displacement : (Instr.wf (.moveL (.imm 1) (.disp 8 ⟨1⟩))) = false :=
  by decide

/-- R154. -/
theorem test_wf_refuses_move_displacement_to_absolute : (Instr.wf (.moveW (.disp 0 ⟨0⟩) (.absW 0))) = false :=
  by decide

/-- R155, V76. -/
theorem test_wf_refuses_movem_predecrement : (Instr.wf (.movemStore 0x6000 (.predec ⟨7⟩))) = false := by decide

/-- R155. -/
theorem test_wf_refuses_movem_load_postincrement : (Instr.wf (.movemLoad 1 (.postinc ⟨7⟩))) = false := by decide

/-- R156, V82. -/
theorem test_wf_refuses_lea_postincrement : (Instr.wf (.lea (.postinc ⟨0⟩) ⟨0⟩)) = false := by decide

/-- R157. -/
theorem test_wf_refuses_clr_address_register : (Instr.wf (.clrL (.areg ⟨1⟩))) = false := by decide

/-- R173, V107. -/
theorem test_wf_refuses_bset_static_absolute : (Instr.wf (.bsetImm 1 (.absW 0x2F00))) = false := by decide

/-- R173. -/
theorem test_wf_refuses_bset_to_pc_relative : (Instr.wf (.bsetReg ⟨0⟩ (.pcDisp 0))) = false := by decide

/-- R181. -/
theorem test_wf_refuses_short_branch_zero : (Instr.wf (.bne (.short 0))) = false := by decide

/-- R181, V116. -/
theorem test_wf_refuses_short_branch_ff : (Instr.wf (.bra (.short 0xFF))) = false := by decide

/-- R64. -/
theorem test_wf_refuses_index_word_bit_eight : (Instr.wf (.lea (.index ⟨.d ⟨0⟩, true, 0, true, 0⟩ ⟨0⟩) ⟨0⟩)) = false :=
  by decide

/-- R65, V42. -/
theorem test_wf_refuses_byte_immediate_too_big : (Instr.wf (.moveB (.imm 0x111) (.dreg ⟨0⟩))) = false := by decide

/-- R65. -/
theorem test_wf_refuses_word_immediate_too_big : (Instr.wf (.moveW (.imm 0x10000) (.dreg ⟨0⟩))) = false := by decide

/-- R173, V101. -/
theorem test_wf_refuses_bit_number_word : (Instr.wf (.bsetImm 0x105 (.ind ⟨7⟩))) = false := by decide

/-! ### Decoding: one word or more for every constructor -/

/-- V1. -/
theorem test_decode_addx : decodeWords [0xD380] = .ok (.addx ⟨0⟩ ⟨1⟩, []) := rfl

/-- V7. -/
theorem test_decode_add_to_d : decodeWords [0xD280] = .ok (.addToD (.dreg ⟨0⟩) ⟨1⟩, []) := rfl

/-- V11. -/
theorem test_decode_add_to_ea : decodeWords [0xD191] = .ok (.addToEa ⟨0⟩ (.ind ⟨1⟩), []) := rfl

/-- V19. -/
theorem test_decode_adda : decodeWords [0xDFFC, 0xABCD, 0x1234] = .ok (.adda (.imm 0xABCD1234) ⟨7⟩, []) := rfl

/-- V21. -/
theorem test_decode_addi : decodeWords [0x0687, 0xABCD, 0x1234] = .ok (.addi 0xABCD1234 ⟨7⟩, []) := rfl

/-- V25. -/
theorem test_decode_sub_to_d : decodeWords [0x9E9A] = .ok (.subToD (.postinc ⟨2⟩) ⟨7⟩, []) := rfl

/-- V28. -/
theorem test_decode_sub_to_ea : decodeWords [0x9191] = .ok (.subToEa ⟨0⟩ (.ind ⟨1⟩), []) := rfl

/-- V31. -/
theorem test_decode_cmpa : decodeWords [0xB3C0] = .ok (.cmpa (.dreg ⟨0⟩) ⟨1⟩, []) := rfl

/-- V60. -/
theorem test_decode_and_to_d : decodeWords [0xCEB8, 0x00EF] = .ok (.andToD (.absW 0x00EF) ⟨7⟩, []) := rfl

/-- V63. -/
theorem test_decode_and_to_ea : decodeWords [0xC190] = .ok (.andToEa ⟨0⟩ (.ind ⟨0⟩), []) := rfl

/-- V54. -/
theorem test_decode_movea : decodeWords [0x307C, 0x8000] = .ok (.movea .w (.imm 0x8000) ⟨0⟩, []) := rfl

/-- S6. -/
theorem test_decode_move_b : decodeWords [0x10BC, 0x000C] = .ok (.moveB (.imm 12) (.ind ⟨0⟩), []) := rfl

/-- S9. -/
theorem test_decode_move_l : decodeWords [0x2B4A, 0xFFF0] = .ok (.moveL (.areg ⟨2⟩) (.disp 0xFFF0 ⟨5⟩), []) := rfl

/-- S8. -/
theorem test_decode_move_w : decodeWords [0x3F00] = .ok (.moveW (.dreg ⟨0⟩) (.predec ⟨7⟩), []) := rfl

/-- S3. -/
theorem test_decode_moveq : decodeWords [0x7E81] = .ok (.moveq 0x81 ⟨7⟩, []) := rfl

/-- V72. -/
theorem test_decode_movem_store : decodeWords [0x48E9, 0x0101, 0x0008] = .ok (.movemStore 0x0101 (.disp 8 ⟨1⟩), []) :=
  rfl

/-- V73. -/
theorem test_decode_movem_load : decodeWords [0x4CD0, 0x0101] = .ok (.movemLoad 0x0101 (.ind ⟨0⟩), []) := rfl

/-- V81. -/
theorem test_decode_lea : decodeWords [0x43F0, 0x1C08] = .ok (.lea (.index ⟨.d ⟨1⟩, true, 2, false, 8⟩ ⟨0⟩) ⟨1⟩, []) :=
  rfl

/-- V84. -/
theorem test_decode_clr_b : decodeWords [0x4206] = .ok (.clrB (.dreg ⟨6⟩), []) := rfl

/-- V85. -/
theorem test_decode_clr_w : decodeWords [0x4258] = .ok (.clrW (.postinc ⟨0⟩), []) := rfl

/-- S4. -/
theorem test_decode_clr_l : decodeWords [0x4281] = .ok (.clrL (.dreg ⟨1⟩), []) := rfl

/-- V92. -/
theorem test_decode_asr_imm : decodeWords [0xE280] = .ok (.asrImm 1 ⟨0⟩, []) := rfl

/-- V94. -/
theorem test_decode_asr_reg : decodeWords [0xE2A0] = .ok (.asrReg ⟨1⟩ ⟨0⟩, []) := rfl

/-- V100. -/
theorem test_decode_bset_imm : decodeWords [0x08D0, 0x000D] = .ok (.bsetImm 13 (.ind ⟨0⟩), []) := rfl

/-- V105. -/
theorem test_decode_bset_reg : decodeWords [0x03D8] = .ok (.bsetReg ⟨1⟩ (.postinc ⟨0⟩), []) := rfl

/-- V115. -/
theorem test_decode_bra : decodeWords [0x6000, 0xFFFE] = .ok (.bra (.word 0xFFFE), []) := rfl

/-- V119. -/
theorem test_decode_bsr : decodeWords [0x6104] = .ok (.bsr (.short 4), []) := rfl

/-- R181, the table of 2.4. -/
theorem test_decode_bhi : decodeWords [0x6210] = .ok (.bhi (.short 0x10), []) := rfl

/-- R181, the table of 2.4. -/
theorem test_decode_bls : decodeWords [0x6310] = .ok (.bls (.short 0x10), []) := rfl

/-- R181, the table of 2.4. -/
theorem test_decode_bcc : decodeWords [0x6410] = .ok (.bcc (.short 0x10), []) := rfl

/-- R181, the table of 2.4. -/
theorem test_decode_bcs : decodeWords [0x6510] = .ok (.bcs (.short 0x10), []) := rfl

/-- R181, the table of 2.4. -/
theorem test_decode_bne : decodeWords [0x6610] = .ok (.bne (.short 0x10), []) := rfl

/-- R181, the table of 2.4. -/
theorem test_decode_beq : decodeWords [0x6710] = .ok (.beq (.short 0x10), []) := rfl

/-- R181, the table of 2.4. -/
theorem test_decode_bvc : decodeWords [0x6810] = .ok (.bvc (.short 0x10), []) := rfl

/-- R181, the table of 2.4. -/
theorem test_decode_bvs : decodeWords [0x6910] = .ok (.bvs (.short 0x10), []) := rfl

/-- R181, the table of 2.4. -/
theorem test_decode_bpl : decodeWords [0x6A10] = .ok (.bpl (.short 0x10), []) := rfl

/-- R181, the table of 2.4. -/
theorem test_decode_bmi : decodeWords [0x6B10] = .ok (.bmi (.short 0x10), []) := rfl

/-- R181, the table of 2.4. -/
theorem test_decode_bge : decodeWords [0x6C10] = .ok (.bge (.short 0x10), []) := rfl

/-- R181, the table of 2.4. -/
theorem test_decode_blt : decodeWords [0x6D10] = .ok (.blt (.short 0x10), []) := rfl

/-- R181, the table of 2.4. -/
theorem test_decode_bgt : decodeWords [0x6E10] = .ok (.bgt (.short 0x10), []) := rfl

/-- R181, the table of 2.4. -/
theorem test_decode_ble : decodeWords [0x6F10] = .ok (.ble (.short 0x10), []) := rfl

/-- V120. -/
theorem test_decode_rts : decodeWords [0x4E75] = .ok (.rts, []) := rfl

/-- V122. -/
theorem test_decode_halt : decodeWords [0x4AC8] = .ok (.halt, []) := rfl

/-- S14. -/
theorem test_decode_pc_index : decodeWords [0x103B, 0x1808] = .ok (.moveB (.pcIndex ⟨.d ⟨1⟩, true, 0, false, 8⟩) (.dreg ⟨0⟩), []) :=
  rfl

/-- V49. -/
theorem test_decode_three_word_move : decodeWords [0x2368, 0x0004, 0x0008] = .ok (.moveL (.disp 4 ⟨0⟩) (.disp 8 ⟨1⟩), []) :=
  rfl

/-! ### Words that are refused -/

/-- V17. -/
theorem test_refuse_adda_word_opmode : decodeWords [0xD240] = .error .notSpecified := rfl

/-- V15. -/
theorem test_refuse_add_to_register : decodeWords [0xD189] = .error .notSpecified := rfl

/-- V59. -/
theorem test_refuse_moveq_bit8 : decodeWords [0x7F81] = .error .notSpecified := rfl

/-- V86. -/
theorem test_refuse_clr_size_11 : decodeWords [0x42C0] = .error .notSpecified := rfl

/-- V99. -/
theorem test_refuse_asr_word : decodeWords [0xE041] = .error .notSpecified := rfl

/-- R217. -/
theorem test_refuse_rte : decodeWords [0x4E73] = .error .notSpecified := rfl

/-- V116. -/
theorem test_refuse_branch_ff : decodeWords [0x60FF, 0x0000, 0x0000] = .error .notSpecified := rfl

/-- V42. -/
theorem test_refuse_byte_immediate : decodeWords [0x103C, 0x0111] = .error .byteImmediateHighBits := rfl

/-- V101. -/
theorem test_refuse_bit_number : decodeWords [0x08D7, 0x0105] = .error .reservedExtensionWord := rfl

/-! ### One step of each instruction -/

/-- A state for tests: pc 0x2000, A7 0x3000, everything else as after reset (the conventions of 95_test_vectors.md). -/
def base : State := (State.reset.setA .sp 0x3000).setPc 0x2000

/-- Lay bytes down at an address. -/
def State.at (s : State) (a : Nat) (bs : List Byte) : State :=
  (bs.zipIdx a).foldl (fun t c => t.setByte c.2 c.1) s

/-- Five flags in the order XNZVC. -/
def flags (x n z v c : Nat) : Ccr := ⟨x == 1, n == 1, z == 1, v == 1, c == 1⟩

/-- The outcome is a next state of which `p` holds. -/
def after (o : Host.Outcome State Fault Refusal) (p : State → Bool) : Bool :=
  match o with
  | .next t => p t
  | _ => false

/-- The longword of four bytes at `a`. -/
def long (s : State) (a : Word) : Word := valueAt s a 4

/-- V1. -/
theorem test_addx_carry_keeps_z :
    after (exec (.addx ⟨0⟩ ⟨1⟩)
        (((base.setD ⟨0⟩ 1).setD ⟨1⟩ 0xFFFFFFFF).setCcr (flags 0 0 1 0 0)))
      (fun t => t.getD ⟨1⟩ == 0 && t.ccr == flags 1 0 1 0 1 && t.pc == 0x2002) = true := by
  decide +kernel

/-- V5. -/
theorem test_addx_same_register :
    after (exec (.addx ⟨2⟩ ⟨2⟩)
        ((base.setD ⟨2⟩ 0x80000000).setCcr (flags 1 0 1 0 0)))
      (fun t => t.getD ⟨2⟩ == 1 && t.ccr == flags 1 0 0 1 1) = true := by
  decide +kernel

/-- V8. -/
theorem test_add_overflow :
    after (exec (.addToD (.dreg ⟨0⟩) ⟨1⟩)
        ((base.setD ⟨0⟩ 1).setD ⟨1⟩ 0x7FFFFFFF))
      (fun t => t.getD ⟨1⟩ == 0x80000000 && t.ccr == flags 0 1 0 1 0) = true := by
  decide +kernel

/-- V18. -/
theorem test_add_predecrement :
    after (exec (.addToD (.predec ⟨2⟩) ⟨0⟩)
        (State.at ((base.setA ⟨2⟩ 0x2F08).setD ⟨0⟩ 0x10) 0x2F04 [0x00, 0x00, 0x00, 0x05]))
      (fun t => t.getD ⟨0⟩ == 0x15 && t.getA ⟨2⟩ == 0x2F04 && t.ccr == flags 0 0 0 0 0 &&
          long t 0x2F04 == 5) = true := by
  decide +kernel

/-- V11. -/
theorem test_add_to_memory :
    after (exec (.addToEa ⟨0⟩ (.ind ⟨1⟩))
        (State.at ((base.setD ⟨0⟩ 0xFFFFFFFF).setA ⟨1⟩ 0x2F10) 0x2F10 [0x00, 0x00, 0x00, 0x02]))
      (fun t => t.getD ⟨0⟩ == 0xFFFFFFFF && t.ccr == flags 1 0 0 0 1 && long t 0x2F10 == 1) = true := by
  decide +kernel

/-- V12. -/
theorem test_add_to_memory_steps_once :
    after (exec (.addToEa ⟨0⟩ (.postinc ⟨1⟩))
        (State.at ((base.setD ⟨0⟩ 3).setA ⟨1⟩ 0x2F10) 0x2F10 [0x00, 0x00, 0x00, 0x02]))
      (fun t => t.getA ⟨1⟩ == 0x2F14 && t.ccr == flags 0 0 0 0 0 && long t 0x2F10 == 5) = true := by
  decide +kernel

/-- V19. -/
theorem test_adda :
    after (exec (.adda (.imm 0xABCD1234) ⟨7⟩)
        ((base.setA ⟨7⟩ 0xFFFFFF81).setCcr (flags 1 1 1 1 1)))
      (fun t => t.getA ⟨7⟩ == 0xABCD11B5 && t.ccr == flags 1 1 1 1 1 && t.pc == 0x2006) = true := by
  decide +kernel

/-- R133: the sum uses the incremented register. -/
theorem test_adda_same_register :
    after (exec (.adda (.postinc ⟨0⟩) ⟨0⟩)
        (State.at (base.setA ⟨0⟩ 0x2F00) 0x2F00 [0x00, 0x00, 0x00, 0x10]))
      (fun t => t.getA ⟨0⟩ == 0x2F14) = true := by
  decide +kernel

/-- V21. -/
theorem test_addi :
    after (exec (.addi 0xABCD1234 ⟨7⟩)
        (base.setD ⟨7⟩ 0xFFFFFF81))
      (fun t => t.getD ⟨7⟩ == 0xABCD11B5 && t.ccr == flags 1 1 0 0 1 && t.pc == 0x2006) = true := by
  decide +kernel

/-- V24. -/
theorem test_sub_borrow :
    after (exec (.subToD (.ind ⟨3⟩) ⟨0⟩)
        (State.at ((base.setD ⟨0⟩ 5).setA ⟨3⟩ 0x2F20) 0x2F20 [0x00, 0x00, 0x00, 0x07]))
      (fun t => t.getD ⟨0⟩ == 0xFFFFFFFE && t.ccr == flags 1 1 0 0 1) = true := by
  decide +kernel

/-- V28. -/
theorem test_sub_to_memory :
    after (exec (.subToEa ⟨0⟩ (.ind ⟨1⟩))
        (State.at ((base.setD ⟨0⟩ 1).setA ⟨1⟩ 0x2F10) 0x2F10 [0x00, 0x00, 0x00, 0x00]))
      (fun t => t.ccr == flags 1 1 0 0 1 && long t 0x2F10 == 0xFFFFFFFF) = true := by
  decide +kernel

/-- V31. -/
theorem test_cmpa_overflow :
    after (exec (.cmpa (.dreg ⟨0⟩) ⟨1⟩)
        ((base.setD ⟨0⟩ 0x80000000).setA ⟨1⟩ 0x7FFFFFFF))
      (fun t => t.getA ⟨1⟩ == 0x7FFFFFFF && t.ccr == flags 0 1 0 1 1) = true := by
  decide +kernel

/-- V29. -/
theorem test_cmpa_keeps_x :
    after (exec (.cmpa (.imm 0x2108) ⟨0⟩)
        ((base.setA ⟨0⟩ 0x2108).setCcr (flags 1 0 0 0 0)))
      (fun t => t.ccr == flags 1 0 1 0 0) = true := by
  decide +kernel

/-- V60. -/
theorem test_and_misaligned_source :
    after (exec (.andToD (.absW 0xEF) ⟨7⟩)
        (State.at ((base.setD ⟨7⟩ 0xFFFFFF81).setCcr (flags 1 0 0 1 1)) 0xEF [0x00, 0x00, 0x00, 0xF0]))
      (fun t => t.getD ⟨7⟩ == 0x80 && t.ccr == flags 1 0 0 0 0) = true := by
  decide +kernel

/-- V63. -/
theorem test_and_to_memory :
    after (exec (.andToEa ⟨0⟩ (.ind ⟨0⟩))
        (State.at ((base.setD ⟨0⟩ 0xFF00FF00).setA ⟨0⟩ 0x2F00) 0x2F00 [0x81, 0x22, 0x33, 0x44]))
      (fun t => t.ccr == flags 0 1 0 0 0 && long t 0x2F00 == 0x81003300) = true := by
  decide +kernel

/-- V54. -/
theorem test_movea_word_sign :
    after (exec (.movea .w (.imm 0x8000) ⟨0⟩)
        (base.setCcr (flags 0 0 1 0 0)))
      (fun t => t.getA ⟨0⟩ == 0xFFFF8000 && t.ccr == flags 0 0 1 0 0) = true := by
  decide +kernel

/-- S1. -/
theorem test_move_byte_keeps_high_bits :
    after (exec (.moveB (.imm 0x11) (.dreg ⟨0⟩))
        ((base.setD ⟨0⟩ 0xAABBCCDD).setCcr (flags 1 0 0 1 1)))
      (fun t => t.getD ⟨0⟩ == 0xAABBCC11 && t.ccr == flags 1 0 0 0 0 && t.pc == 0x2004) = true := by
  decide +kernel

/-- S6. -/
theorem test_move_byte_to_memory :
    after (exec (.moveB (.imm 12) (.ind ⟨0⟩))
        (State.at (base.setA ⟨0⟩ 0x2F00) 0x2F00 [0xFF, 0xFF]))
      (fun t => t.ccr == flags 0 0 0 0 0 && t.byteAt 0x2F00 == 0x0C && t.byteAt 0x2F01 == 0xFF) = true := by
  decide +kernel

/-- V130. -/
theorem test_move_long_indexed :
    after (exec (.moveL (.index ⟨.d ⟨1⟩, true, 2, false, 8⟩ ⟨0⟩) (.dreg ⟨0⟩))
        (State.at ((base.setA ⟨0⟩ 0x1000).setD ⟨1⟩ 0x10) 0x1048 [0x12, 0xAB, 0x1A, 0x2B]))
      (fun t => t.getD ⟨0⟩ == 0x12AB1A2B) = true := by
  decide +kernel

/-- V44. -/
theorem test_move_long_one_register_twice :
    after (exec (.moveL (.postinc ⟨0⟩) (.postinc ⟨0⟩))
        (State.at (base.setA ⟨0⟩ 0x2F00) 0x2F00 [0x01, 0x02, 0x03, 0x04]))
      (fun t => t.getA ⟨0⟩ == 0x2F08 && long t 0x2F04 == 0x01020304) = true := by
  decide +kernel

/-- S8. -/
theorem test_move_word_push :
    after (exec (.moveW (.dreg ⟨0⟩) (.predec ⟨7⟩))
        (base.setD ⟨0⟩ 0x1234ABCD))
      (fun t => t.getA ⟨7⟩ == 0x2FFE && t.ccr == flags 0 1 0 0 0 && t.byteAt 0x2FFE == 0xAB &&
          t.byteAt 0x2FFF == 0xCD) = true := by
  decide +kernel

/-- S5. -/
theorem test_move_word_from_address_register :
    after (exec (.moveW (.areg ⟨0⟩) (.dreg ⟨1⟩))
        ((base.setA ⟨0⟩ 0x12348765).setD ⟨1⟩ 0xAABBCCDD))
      (fun t => t.getD ⟨1⟩ == 0xAABB8765 && t.ccr == flags 0 1 0 0 0) = true := by
  decide +kernel

/-- S3. -/
theorem test_moveq_negative :
    after (exec (.moveq 0x81 ⟨7⟩)
        (base.setCcr (flags 1 0 0 1 1)))
      (fun t => t.getD ⟨7⟩ == 0xFFFFFF81 && t.ccr == flags 1 1 0 0 0) = true := by
  decide +kernel

/-- V75. -/
theorem test_movem_store_includes_base :
    after (exec (.movemStore 0x8001 (.ind ⟨7⟩))
        (((base.setD ⟨0⟩ 5).setA ⟨7⟩ 0x2FF0).setCcr (flags 0 1 0 0 0)))
      (fun t => t.getA ⟨7⟩ == 0x2FF0 && t.ccr == flags 0 1 0 0 0 && long t 0x2FF0 == 5 &&
          long t 0x2FF4 == 0x2FF0) = true := by
  decide +kernel

/-- V73. -/
theorem test_movem_load_includes_base :
    after (exec (.movemLoad 0x0101 (.ind ⟨0⟩))
        (State.at (base.setA ⟨0⟩ 0x2F00) 0x2F00 [0x00, 0x00, 0x00, 0x01, 0x00, 0x00, 0x00, 0x02]))
      (fun t => t.getD ⟨0⟩ == 1 && t.getA ⟨0⟩ == 2 && t.pc == 0x2004) = true := by
  decide +kernel

/-- V79. -/
theorem test_lea_pc_relative :
    after (exec (.lea (.pcDisp 6) ⟨0⟩)
        (base.setPc 0x1000))
      (fun t => t.getA ⟨0⟩ == 0x1008 && t.ccr == flags 0 0 0 0 0 && t.pc == 0x1004) = true := by
  decide +kernel

/-- V81. -/
theorem test_lea_indexed :
    after (exec (.lea (.index ⟨.d ⟨1⟩, true, 2, false, 8⟩ ⟨0⟩) ⟨1⟩)
        ((base.setA ⟨0⟩ 0x1000).setD ⟨1⟩ 0x30))
      (fun t => t.getA ⟨1⟩ == 0x10C8) = true := by
  decide +kernel

/-- V84. -/
theorem test_clr_byte :
    after (exec (.clrB (.dreg ⟨6⟩))
        (base.setD ⟨6⟩ 0x12345678))
      (fun t => t.getD ⟨6⟩ == 0x12345600 && t.ccr == flags 0 0 1 0 0) = true := by
  decide +kernel

/-- V85. -/
theorem test_clr_word_memory :
    after (exec (.clrW (.postinc ⟨0⟩))
        (State.at (base.setA ⟨0⟩ 0x2F00) 0x2F00 [0x01, 0x02, 0x03, 0x04]))
      (fun t => t.getA ⟨0⟩ == 0x2F02 && t.ccr == flags 0 0 1 0 0 && long t 0x2F00 == 0x0304) = true := by
  decide +kernel

/-- V83. -/
theorem test_clr_long :
    after (exec (.clrL (.dreg ⟨0⟩))
        ((base.setD ⟨0⟩ 0xFFFFFFFF).setCcr (flags 1 1 0 1 1)))
      (fun t => t.getD ⟨0⟩ == 0 && t.ccr == flags 1 0 1 0 0) = true := by
  decide +kernel

/-- V90. -/
theorem test_asr_by_eight :
    after (exec (.asrImm 0 ⟨1⟩)
        (base.setD ⟨1⟩ 0x7F80))
      (fun t => t.getD ⟨1⟩ == 0x7F && t.ccr == flags 1 0 0 0 1) = true := by
  decide +kernel

/-- V94. -/
theorem test_asr_register_count_64 :
    after (exec (.asrReg ⟨1⟩ ⟨0⟩)
        (((base.setD ⟨0⟩ 0x80000001).setD ⟨1⟩ 64).setCcr (flags 1 0 0 1 1)))
      (fun t => t.getD ⟨0⟩ == 0x80000001 && t.ccr == flags 1 1 0 0 0) = true := by
  decide +kernel

/-- V95. -/
theorem test_asr_register_count_32 :
    after (exec (.asrReg ⟨1⟩ ⟨0⟩)
        ((base.setD ⟨0⟩ 0x80000001).setD ⟨1⟩ 32))
      (fun t => t.getD ⟨0⟩ == 0xFFFFFFFF && t.ccr == flags 1 1 0 0 1) = true := by
  decide +kernel

/-- V100. -/
theorem test_bset_memory_modulo_eight :
    after (exec (.bsetImm 13 (.ind ⟨0⟩))
        (State.at (base.setA ⟨0⟩ 0x2F00) 0x2F00 [0x01]))
      (fun t => t.ccr == flags 0 0 1 0 0 && t.byteAt 0x2F00 == 0x21 && t.pc == 0x2004) = true := by
  decide +kernel

/-- V103. -/
theorem test_bset_register_already_set :
    after (exec (.bsetImm 33 (.dreg ⟨0⟩))
        (base.setD ⟨0⟩ 2))
      (fun t => t.getD ⟨0⟩ == 2 && t.ccr == flags 0 0 0 0 0) = true := by
  decide +kernel

/-- V105. -/
theorem test_bset_dynamic :
    after (exec (.bsetReg ⟨1⟩ (.postinc ⟨0⟩))
        (State.at ((base.setD ⟨1⟩ 7).setA ⟨0⟩ 0x2F00) 0x2F00 [0x00]))
      (fun t => t.getA ⟨0⟩ == 0x2F01 && t.ccr == flags 0 0 1 0 0 && t.byteAt 0x2F00 == 0x80 &&
          t.pc == 0x2002) = true := by
  decide +kernel

/-- V115. -/
theorem test_bra_word_to_itself :
    after (exec (.bra (.word 0xFFFE)) base) (fun t => t.pc == 0x2000) = true := by
  decide +kernel

/-- V118. -/
theorem test_bsr_pushes_return_address :
    after (exec (.bsr (.word 4))
        ((base.setPc 0x00010016).setA ⟨7⟩ 0x2000))
      (fun t => t.getA ⟨7⟩ == 0x1FFC && long t 0x1FFC == 0x0001001A && t.pc == 0x0001001C) = true := by
  decide +kernel

/-- the table of conditions in 2.4. -/
theorem test_bhi_taken :
    after (exec (.bhi (.short 0x10))
        (base.setCcr (flags 0 0 0 0 0)))
      (fun t => t.ccr == flags 0 0 0 0 0 && t.pc == 0x2012) = true := by
  decide +kernel

/-- the table of conditions in 2.4. -/
theorem test_bls_taken :
    after (exec (.bls (.short 0x10))
        (base.setCcr (flags 0 0 1 0 0)))
      (fun t => t.ccr == flags 0 0 1 0 0 && t.pc == 0x2012) = true := by
  decide +kernel

/-- the table of conditions in 2.4. -/
theorem test_bcc_not_taken :
    after (exec (.bcc (.short 0x10))
        (base.setCcr (flags 0 0 0 0 1)))
      (fun t => t.ccr == flags 0 0 0 0 1 && t.pc == 0x2002) = true := by
  decide +kernel

/-- the table of conditions in 2.4. -/
theorem test_bcs_taken :
    after (exec (.bcs (.short 0x10))
        (base.setCcr (flags 0 0 0 0 1)))
      (fun t => t.ccr == flags 0 0 0 0 1 && t.pc == 0x2012) = true := by
  decide +kernel

/-- R181. -/
theorem test_bne_not_taken :
    after (exec (.bne (.short 0x10))
        (base.setCcr (flags 0 0 1 0 0)))
      (fun t => t.ccr == flags 0 0 1 0 0 && t.pc == 0x2002) = true := by
  decide +kernel

/-- R181. -/
theorem test_beq_taken :
    after (exec (.beq (.short 0x10))
        (base.setCcr (flags 0 0 1 0 0)))
      (fun t => t.ccr == flags 0 0 1 0 0 && t.pc == 0x2012) = true := by
  decide +kernel

/-- the table of conditions in 2.4. -/
theorem test_bvc_not_taken :
    after (exec (.bvc (.short 0x10))
        (base.setCcr (flags 0 0 0 1 0)))
      (fun t => t.ccr == flags 0 0 0 1 0 && t.pc == 0x2002) = true := by
  decide +kernel

/-- the table of conditions in 2.4. -/
theorem test_bvs_taken :
    after (exec (.bvs (.short 0x10))
        (base.setCcr (flags 0 0 0 1 0)))
      (fun t => t.ccr == flags 0 0 0 1 0 && t.pc == 0x2012) = true := by
  decide +kernel

/-- the table of conditions in 2.4. -/
theorem test_bpl_not_taken :
    after (exec (.bpl (.short 0x10))
        (base.setCcr (flags 0 1 0 0 0)))
      (fun t => t.ccr == flags 0 1 0 0 0 && t.pc == 0x2002) = true := by
  decide +kernel

/-- the table of conditions in 2.4. -/
theorem test_bmi_taken :
    after (exec (.bmi (.short 0x10))
        (base.setCcr (flags 0 1 0 0 0)))
      (fun t => t.ccr == flags 0 1 0 0 0 && t.pc == 0x2012) = true := by
  decide +kernel

/-- the table of conditions in 2.4. -/
theorem test_bge_not_taken :
    after (exec (.bge (.short 0x10))
        (base.setCcr (flags 0 1 0 0 0)))
      (fun t => t.ccr == flags 0 1 0 0 0 && t.pc == 0x2002) = true := by
  decide +kernel

/-- the table of conditions in 2.4. -/
theorem test_blt_taken :
    after (exec (.blt (.short 0x10))
        (base.setCcr (flags 0 0 0 1 0)))
      (fun t => t.ccr == flags 0 0 0 1 0 && t.pc == 0x2012) = true := by
  decide +kernel

/-- the table of conditions in 2.4. -/
theorem test_bgt_taken :
    after (exec (.bgt (.short 0x10))
        (base.setCcr (flags 0 1 0 1 0)))
      (fun t => t.ccr == flags 0 1 0 1 0 && t.pc == 0x2012) = true := by
  decide +kernel

/-- the table of conditions in 2.4. -/
theorem test_ble_not_taken :
    after (exec (.ble (.short 0x10))
        (base.setCcr (flags 0 0 0 0 0)))
      (fun t => t.ccr == flags 0 0 0 0 0 && t.pc == 0x2002) = true := by
  decide +kernel

/-- V120. -/
theorem test_rts :
    after (exec (.rts)
        (State.at (base.setA ⟨7⟩ 0x2FFC) 0x2FFC [0x00, 0x01, 0x00, 0x1A]))
      (fun t => t.getA ⟨7⟩ == 0x3000 && t.pc == 0x0001001A) = true := by
  decide +kernel

/-- V122: HALT leaves pc at its own word. -/
theorem test_halt : after (exec .halt base) (fun t => t.status == .halted && t.pc == 0x2000) = true := by
  decide +kernel

/-- R186: in user mode HALT raises the privilege violation. -/
theorem test_halt_user_mode :
    exec .halt (base.setSr ⟨false, false, false, 7⟩) =
      takeException .privilegeViolation (base.setSr ⟨false, false, false, 7⟩) := rfl

/-- V46, V47: a register that is both the value moved and the base being modified is refused. -/
theorem test_base_is_also_data :
    exec (.moveL (.areg ⟨0⟩) (.postinc ⟨0⟩)) base = .refused .baseIsAlsoData ∧
      exec (.moveL (.areg ⟨0⟩) (.predec ⟨0⟩)) base = .refused .baseIsAlsoData := ⟨rfl, rfl⟩

/-! ### The host's two questions -/

/-- MOVE.L 4(A0),8(A1) of V49, whose first word is the lowest (bits 15..0). -/
theorem test_table_word : decodeTableWord 48 0x000800042368 = some (.moveL (.disp 4 ⟨0⟩) (.disp 8 ⟨1⟩)) := rfl

/-- A word placed where the next step fetches is what that step runs (V57). -/
theorem test_fetch_word : after (step (State.reset.withFetchWord 16 0x767F)) (fun t => t.getD ⟨3⟩ == 0x7F) = true := by
  decide +kernel

/-! ### The order of a MOVE's fetches and accesses (R206) -/

/-- A check of the exception that ends a run. -/
def ended (o : Host.Outcome State Fault Refusal) (p : Cause → State → Bool) : Bool :=
  match o with
  | .fault (.exception r t) => p r.cause t
  | _ => false

/-- `MEM` replaced. -/
def inRegions (rs : List Region) (s : State) : State := { s with params := { s.params with regions := rs } }

/-- MOVE.W (A0),d16(A1) whose operation word is in ram, whose destination's word is in a device range and whose source is
outside `MEM`. -/
def moveFromNowhere : State :=
  inRegions [⟨0x2000, 2, .ram⟩, ⟨0x2002, 2, .device⟩] (State.at base 0x2000 [0x33, 0x50])

/-- R206: the source's read (step 4) faults before the destination's word (step 5) is fetched from its device. -/
theorem test_move_source_fault_fetches_no_destination :
    ended (step moveFromNowhere) (fun c t => c == .accessError 0 .read false && t.deviceLog == [] && t.draws == 0) =
      true := by
  decide +kernel

/-- R206: the source is read from its device before the destination's word is found to be outside `MEM`. -/
theorem test_move_destination_fetched_after_source :
    ended (step (inRegions [⟨0x2000, 2, .ram⟩, ⟨0x4000, 2, .device⟩] (moveFromNowhere.setA ⟨0⟩ 0x4000)))
      (fun c t => c == .accessError 0x2002 .fetch false && t.deviceLog.map (fun e => (e.kind, e.addr)) == [(.read, 0x4000)])
      = true := by
  decide +kernel

/-! ### Witnesses: a state and operands that meet all hypotheses of a statement together, one for each clause -/

/-- `TRAP_MODEL` = vectored. -/
def vectored (s : State) : State := { s with params := { s.params with trapModel := .vectored } }

/-- `MISALIGNED_DATA` = fault. -/
def faulting (s : State) : State := { s with params := { s.params with misaligned := .fault } }

/-- An index word with a data register, as a shorthand. -/
def idx (long : Bool) (scale : BitVec 2) (reserved : Bool) : IndexWord := ⟨.d ⟨1⟩, long, scale, reserved, 8⟩

/-- A check that an outcome is a next state gives the state. -/
theorem next_of_after {o : Host.Outcome State Fault Refusal} (h : after o (fun _ => true) = true) :
    ∃ t, o = .next t := by
  cases o with
  | next t => exact ⟨t, rfl⟩
  | fault f => cases h
  | refused r => cases h

/-- The outcome is a fault with a record. -/
def faults (o : Host.Outcome State Fault Refusal) : Bool :=
  match o with
  | .fault (.exception _ _) => true
  | _ => false

theorem exception_of_faults {o : Host.Outcome State Fault Refusal} (h : faults o = true) :
    ∃ r t, o = .fault (.exception r t) := by
  cases o with
  | next t => cases h
  | refused r => cases h
  | fault f =>
    cases f with
    | exception r t => exact ⟨r, t, rfl⟩
    | halted => cases h
    | faultOnFault => cases h
    | alreadyFaulted r => cases h

/-- `Readable` as a check. -/
def readableB (s : State) (a : Word) (n : Nat) : Bool :=
  (byteAddrs a n).all (fun x => kindAt s.params x.toNat == some .ram || kindAt s.params x.toNat == some .rom) &&
    (aligned a n || s.params.misaligned == .split)

/-- `Writable` as a check. -/
def writableB (s : State) (a : Word) (n : Nat) : Bool :=
  (byteAddrs a n).all (fun x => kindAt s.params x.toNat == some .ram && !inCode s.params x.toNat) &&
    (aligned a n || s.params.misaligned == .split)

theorem all_of {p : Word → Prop} [DecidablePred p] {l : List Word} (h : l.all (fun x => decide (p x)) = true) :
    ∀ x ∈ l, p x := by
  simpa using h

theorem rd {s : State} {a : Word} {n : Nat} (h : readableB s a n = true) : Readable s a n := by
  simpa [readableB] using h

theorem wr {s : State} {a : Word} {n : Nat} (h : writableB s a n = true) : Writable s a n := by
  simpa [writableB] using h

/-- `ReadFaults` at byte `k`. -/
theorem rf {s : State} {a : Word} {n : Nat} {c : Cause} (k : Nat) (hk : k < n)
    (h : (aligned a n || s.params.misaligned == .split) = true)
    (hb : (byteAddrs a k).all (fun x => kindAt s.params x.toNat == some .ram || kindAt s.params x.toNat == some .rom) =
      true)
    (hn : kindAt s.params (a + BitVec.ofNat 32 k).toNat = none)
    (hc : c = .accessError (a + BitVec.ofNat 32 k) .read false) : ReadFaults s a n c :=
  .inl ⟨by simpa using h, k, hk, by simpa [PlainBytes] using hb, hn, hc⟩

/-- `WriteFaults` at byte `k`. -/
theorem wf {s : State} {a : Word} {n : Nat} {c : Cause} (k : Nat) (hk : k < n)
    (h : (aligned a n || k == 0 && s.params.misaligned == .split) = true) (hb : writableB s a k = true)
    (hc : kindAt s.params (a + BitVec.ofNat 32 k).toNat = none ∧ c = .accessError (a + BitVec.ofNat 32 k) .write false ∨
      kindAt s.params (a + BitVec.ofNat 32 k).toNat = some .rom ∧ c = .accessError (a + BitVec.ofNat 32 k) .write true) :
    WriteFaults s a n c := by
  simp only [Bool.or_eq_true, Bool.and_eq_true, beq_iff_eq] at h
  exact .inl ⟨h.imp_right And.right, k, hk, (h.imp_right And.left).symm, (wr hb).1, hc⟩

/-- A source operand in memory. -/
theorem erd {ea : Ea} {sz : Size} {x : Word} {s : State} (hs : eaStop s.params ea x = none)
    (h : readableB s (effAddr ea sz x s) sz.bytes = true) : EaReadable ea sz x s := ⟨hs, fun _ => rd h⟩

/-- A destination operand in memory. -/
theorem ewr {ea : Ea} {sz : Size} {x : Word} {s : State} (hs : eaStop s.params ea x = none)
    (h : writableB s (effAddr ea sz x s) sz.bytes = true) : EaWritable ea sz x s := ⟨hs, fun _ => wr h⟩

/-- What the words at pc decode to, from those words. -/
theorem decode_at {s : State} {n : Nat} {w : Half} {xs : List Half} {i : Instr} (hw : opWordAt s = w)
    (hx : extWordsAt s n = xs) (h : decode w xs = .ok i) : decode (opWordAt s) (extWordsAt s n) = .ok i := by
  rw [hw, hx, h]

theorem wit_DecodeOfEncode : (Instr.moveL (.imm 0xFFFFFFFF) (.postinc ⟨7⟩)).wf = true := by decide

theorem wit_EncodeOfDecode :
    decodeWords [0x2368, 4, 8, 0xFFFF] = .ok (.moveL (.disp 4 ⟨0⟩) (.disp 8 ⟨1⟩), [0xFFFF]) := rfl

theorem wit_DecodedModesAreAdmitted : decode 0x2368 [4, 8] = .ok (.moveL (.disp 4 ⟨0⟩) (.disp 8 ⟨1⟩)) := rfl

theorem wit_OperationWordFixesLength :
    decode 0x103C [0xFF] = .ok (.moveB (.imm 0xFF) (.dreg ⟨0⟩)) ∧
      decode 0x103C [0] = .ok (.moveB (.imm 0) (.dreg ⟨0⟩)) ∧ decode 0x103C [0x100] = .error .byteImmediateHighBits ∧
      decode 0x08D7 [0xFF] = .ok (.bsetImm 0xFF (.ind ⟨7⟩)) ∧ decode 0x08D7 [0x100] = .error .reservedExtensionWord :=
  ⟨rfl, rfl, rfl, rfl, rfl⟩

theorem wit_RefusedEncodings :
    (0x5FFF : Half).extractLsb' 12 4 = 5 ∧ (0x8000 : Half).extractLsb' 12 4 = 8 ∧
      (0xA000 : Half).extractLsb' 12 4 = 10 ∧ (0xFFFF : Half).extractLsb' 12 4 = 15 ∧
      (0x60FF : Half).extractLsb' 12 4 = 6 ∧ (0x60FF : Half).extractLsb' 0 8 = 0xFF ∧
      (0x7100 : Half).extractLsb' 12 4 = 7 ∧ (0x7100 : Half).getLsbD 8 = true ∧
      256 ≤ (256 : Word).toNat ∧ (65535 : Word).toNat < 65536 ∧
      (Instr.moveB (.imm 256) (.dreg ⟨0⟩)).modesOk = true ∧ 256 ≤ (256 : Half).toNat ∧
      (Ea.ind ⟨7⟩).isBsetStatic = true := by decide

/-- The last two bytes of the address space hold RTS. -/
theorem wit_StepRunsDecodedInstruction :
    let s := State.at (base.setPc 0xFFFFFFFE) 0xFFFFFFFE [0x4E, 0x75]
    s.status = .running ∧ s.faultRecord = none ∧ s.pc.getLsbD 0 = false ∧ s.pc.toNat + 2 ≤ 2 ^ 32 ∧
      (∀ x ∈ byteAddrs s.pc 2, kindAt s.params x.toNat = some .ram ∨ kindAt s.params x.toNat = some .rom) ∧
      (byteAddrs s.pc 2).map (fun x => s.byteAt x.toNat) = [0x4E, 0x75] ∧ decodeBytes [0x4E, 0x75] = .ok (.rts, []) :=
  ⟨rfl, rfl, by decide +kernel, by decide +kernel, all_of (by decide +kernel), by decide +kernel, rfl⟩

theorem wit_OddPcRaisesAddressError :
    (base.setPc 0xFFFFFFFF).status = .running ∧ (base.setPc 0xFFFFFFFF).faultRecord = none ∧
      (base.setPc 0xFFFFFFFF).pc.getLsbD 0 = true ∧
      Instr.ble (.short 3) ∈ [Instr.bra (.short 3), .ble (.short 3)] ∧ Writable base (base.getA .sp - 4) 4 ∧
      Readable base (base.getA .sp) 4 :=
  ⟨rfl, rfl, by decide +kernel, by decide +kernel,
    wr (by decide +kernel), rd (by decide +kernel)⟩

/-- The first byte, and the second byte only, of the operation word outside `MEM`. -/
theorem wit_FetchOutsideMemRaisesAccessError :
    let s := inRegions [⟨0x3000, 1, .ram⟩] base
    let u := inRegions [⟨0x2000, 1, .ram⟩] base
    s.status = .running ∧ s.faultRecord = none ∧ s.pc.getLsbD 0 = false ∧ kindAt s.params s.pc.toNat = none ∧
      u.status = .running ∧ u.faultRecord = none ∧ u.pc.getLsbD 0 = false ∧ kindAt u.params u.pc.toNat ≠ none ∧
      kindAt u.params (u.pc + 1).toNat = none := by decide +kernel

/-- ADDI.L whose last byte stands outside `MEM` (m = 3 of 4). -/
theorem wit_FetchOutsideMem_extension :
    let s := inRegions [⟨0x2000, 5, .ram⟩] (State.at base 0x2000 [0x06, 0x87, 0xAB, 0xCD, 0x12])
    s.status = .running ∧ s.faultRecord = none ∧ s.pc.getLsbD 0 = false ∧ PlainBytes s s.pc (2 + 3) ∧
      decode (opWordAt s) (extWordsAt s 3) = .ok (.addi 0xABCD0000 ⟨7⟩) ∧
      s.pc.toNat + 2 * (Instr.addi 0xABCD0000 ⟨7⟩).words ≤ 2 ^ 32 ∧
      kindAt s.params (s.pc + 2 + BitVec.ofNat 32 3).toNat = none ∧
      (∀ src dst, Instr.addi 0xABCD0000 ⟨7⟩ ≠ .moveB src dst ∧ Instr.addi 0xABCD0000 ⟨7⟩ ≠ .moveW src dst ∧
        Instr.addi 0xABCD0000 ⟨7⟩ ≠ .moveL src dst) ∧ 3 < 2 * ((Instr.addi 0xABCD0000 ⟨7⟩).words - 1) :=
  ⟨rfl, rfl, by decide +kernel, all_of (by decide +kernel), decode_at (w := 0x0687) (xs := [0xABCD]) (by decide +kernel)
      (by decide +kernel) rfl,
    by decide +kernel, by decide +kernel, fun _ _ => ⟨nofun, nofun, nofun⟩, by decide⟩

/-- MOVE.L d16(A0),d16(A1) whose source's word is outside `MEM` (m = 0), and one whose destination's word is (m = 2,
the first of that clause), its source a longword in ram. -/
theorem wit_FetchOutsideMem_move :
    let s := inRegions [⟨0x2000, 2, .ram⟩] (State.at base 0x2000 [0x23, 0x68])
    let u := inRegions [⟨0x2000, 4, .ram⟩] (State.at (base.setA ⟨0⟩ 0x1FFC) 0x2000 [0x23, 0x68, 0x00, 0x04])
    (s.status = .running ∧ s.faultRecord = none ∧ s.pc.getLsbD 0 = false ∧ PlainBytes s s.pc (2 + 0) ∧
      decode (opWordAt s) (extWordsAt s 0) = .ok (.moveL (.disp 0 ⟨0⟩) (.disp 0 ⟨1⟩)) ∧
      kindAt s.params (s.pc + 2 + BitVec.ofNat 32 0).toNat = none ∧ 0 < 2 * (Ea.disp 0 ⟨0⟩).words .l) ∧
    (u.status = .running ∧ u.faultRecord = none ∧ u.pc.getLsbD 0 = false ∧ PlainBytes u u.pc (2 + 2) ∧
      decode (opWordAt u) (extWordsAt u 2) = .ok (.moveL (.disp 4 ⟨0⟩) (.disp 0 ⟨1⟩)) ∧
      u.pc.toNat + 2 * (Instr.moveL (.disp 4 ⟨0⟩) (.disp 0 ⟨1⟩)).words ≤ 2 ^ 32 ∧
      kindAt u.params (u.pc + 2 + BitVec.ofNat 32 2).toNat = none ∧ 2 * (Ea.disp 4 ⟨0⟩).words .l ≤ 2 ∧
      2 < 2 * ((Ea.disp 4 ⟨0⟩).words .l + (Ea.disp 0 ⟨1⟩).words .l) ∧ EaReadable (.disp 4 ⟨0⟩) .l (u.pc + 2) u) :=
  ⟨⟨rfl, rfl, by decide +kernel, all_of (by decide +kernel), decode_at (w := 0x2368) (xs := []) (by decide +kernel)
      (by decide +kernel) rfl,
      by decide +kernel, by decide⟩,
    rfl, rfl, by decide +kernel, all_of (by decide +kernel), decode_at (w := 0x2368) (xs := [4]) (by decide +kernel)
      (by decide +kernel) rfl,
    by decide +kernel, by decide +kernel, by decide, by decide, erd rfl (by decide +kernel)⟩

theorem wit_StoppedMachineTakesNoStep :
    ({ base with status := .halted } : State).status = .halted ∧ base.haltOnFault.status = .faultOnFault ∧
      ({ base with faultRecord := some ⟨.privilegeViolation, 0⟩ } : State).status = .running ∧
      ({ base with faultRecord := some ⟨.privilegeViolation, 0⟩ } : State).faultRecord =
        some ⟨.privilegeViolation, 0⟩ := ⟨rfl, rfl, rfl, rfl⟩

/-- A refused word, and a three-word ADDI whose last word would stand at address 0. -/
theorem wit_RefusedFetches :
    let s := State.at base 0x2000 [0xA0, 0x00]
    let u := State.at (base.setPc 0xFFFFFFFC) 0xFFFFFFFC [0x06, 0x80]
    s.status = .running ∧ s.faultRecord = none ∧ s.pc.getLsbD 0 = false ∧
      (∀ x ∈ byteAddrs s.pc 2, kindAt s.params x.toNat = some .ram ∨ kindAt s.params x.toNat = some .rom) ∧
      decode (s.byteAt s.pc.toNat ++ s.byteAt (s.pc + 1).toNat) [] = .error .notSpecified ∧
      u.status = .running ∧ u.faultRecord = none ∧ u.pc.getLsbD 0 = false ∧
      (∀ x ∈ byteAddrs u.pc 2, kindAt u.params x.toNat = some .ram ∨ kindAt u.params x.toNat = some .rom) ∧
      decode (u.byteAt u.pc.toNat ++ u.byteAt (u.pc + 1).toNat) [] = .ok (.addi 0 ⟨0⟩) ∧
      2 ^ 32 < u.pc.toNat + 2 * (Instr.addi 0 ⟨0⟩).words :=
  have h : ∀ x y : Byte, x = 0xA0 → y = 0x00 → decode (x ++ y) [] = .error .notSpecified := by
    rintro _ _ rfl rfl
    rfl
  have k : ∀ x y : Byte, x = 0x06 → y = 0x80 → decode (x ++ y) [] = .ok (.addi 0 ⟨0⟩) := by
    rintro _ _ rfl rfl
    rfl
  ⟨rfl, rfl, by decide +kernel, all_of (by decide +kernel), h _ _ (by decide +kernel) (by decide +kernel), rfl, rfl,
    by decide +kernel, all_of (by decide +kernel), k _ _ (by decide +kernel) (by decide +kernel), by decide +kernel⟩

/-- HALT at pc in the state after reset. -/
def atHalt : State := State.at base 0x2000 [0x4A, 0xC8]

theorem wit_StepKeepsInv : Inv atHalt ∧ ∃ t, step atHalt = .next t :=
  ⟨⟨by decide, by decide +kernel, rfl, rfl, by decide⟩, next_of_after (by decide +kernel)⟩

/-- A program image of one HALT at 0x2000, which is the program text. -/
theorem wit_ResetMeetsInv :
    LaunchPremises (launch 0x2000 0x3000 [(0x2000, 0x4A), (0x2001, 0xC8)]
      { Params.default with code := [⟨0x2000, 2⟩] }) :=
  ⟨by decide +kernel, by decide +kernel, by decide +kernel, rfl, rfl, by decide +kernel, by decide +kernel,
    by decide +kernel, by decide +kernel, rfl, rfl⟩

/-- A next state, a faulted state, and an address that is not ram. -/
theorem wit_StepKeepsProgramText :
    (∃ t, step atHalt = .next t) ∧
      (∃ r t, step (base.setPc 0x2001) = .fault (.exception r t)) ∧
      kindAt (inRegions [⟨0x2000, 2, .rom⟩] atHalt).params 0x2001 ≠ some .ram :=
  ⟨next_of_after (by decide +kernel), exception_of_faults (by decide +kernel), by decide +kernel⟩

/-- HALT, an exception that is entered, and an exception at the fetch that is entered. -/
theorem wit_ModeChangesOnlyByException :
    base.status = .running ∧ (∃ t, exec .halt base = .next t) ∧
      (vectored base).status = .running ∧
      (∃ t, exec .halt ((vectored base).setSr ⟨true, false, true, 0⟩) = .next t) ∧
      (∃ t, step ((vectored base).setPc 0x2001) = .next t) ∧ PlainBytes atHalt atHalt.pc 2 ∧
      after (step atHalt) (fun t => t.status == .halted) = true :=
  ⟨rfl, next_of_after (by decide +kernel), rfl, next_of_after (by decide +kernel), next_of_after (by decide +kernel),
    all_of (by decide +kernel), by decide +kernel⟩

theorem wit_FaultsArePrecise :
    (∃ r t, step (base.setPc 0x2001) = .fault (.exception r t)) ∧
      ∃ r t, exec .rts (inRegions [] base) = .fault (.exception r t) :=
  ⟨exception_of_faults (by decide +kernel), exception_of_faults (by decide +kernel)⟩

theorem wit_OnlyAddressAndAccessErrors :
    base.sr.s = true ∧ ∃ r t, step (base.setPc 0x2001) = .fault (.exception r t) :=
  ⟨rfl, exception_of_faults (by decide +kernel)⟩

theorem wit_MixedWidthAccess :
    Writable base 0xFFFFFFFD 4 ∧
      let s := State.at (base.setA ⟨0⟩ 0x2F01) 0x2F01 [0xAB, 0xCD, 0x12, 0x34]
      Readable s (s.getA ⟨0⟩) 4 ∧ s.byteAt (s.getA ⟨0⟩).toNat = 0xAB ∧ s.byteAt (s.getA ⟨0⟩ + 1).toNat = 0xCD ∧
        s.byteAt (s.getA ⟨0⟩ + 2).toNat = 0x12 ∧ s.byteAt (s.getA ⟨0⟩ + 3).toNat = 0x34 :=
  ⟨wr (by decide +kernel), rd (by decide +kernel), by decide +kernel, by decide +kernel, by decide +kernel,
    by decide +kernel⟩

theorem wit_DataIsBigEndian :
    Readable base 0xFFFFFFFF 1 ∧ Readable (faulting base) 0xFFFFFFFE 2 ∧ Readable base 0xFFFFFFFD 4 ∧
      Writable base 0xFFFFFFFF Size.w.bytes :=
  ⟨rd (by decide +kernel), rd (by decide +kernel), rd (by decide +kernel), wr (by decide +kernel)⟩

/-- The first byte outside `MEM` is the first, and the last, of the four. -/
theorem wit_MisalignedAccess :
    (faulting base).params.misaligned = .fault ∧ aligned 0x2F02 4 = false ∧
      (let s := inRegions [⟨0x2F01, 3, .ram⟩] base
      s.params.misaligned = .split ∧ aligned 0x2F01 4 = false ∧
        (∀ x ∈ byteAddrs 0x2F01 3, kindAt s.params x.toNat = some .ram ∧ inCode s.params x.toNat = false) ∧
        kindAt s.params (0x2F01 + BitVec.ofNat 32 3 : Word).toNat = none) ∧
      kindAt (inRegions [] base).params (0x2F01 + BitVec.ofNat 32 0 : Word).toNat = none :=
  ⟨rfl, by decide +kernel, ⟨rfl, by decide +kernel, all_of (by decide +kernel), by decide +kernel⟩, by decide +kernel⟩

theorem wit_DeviceAccessesAreRecorded :
    let s := inRegions [⟨0x40150000, 4, .device⟩] base
    aligned 0x40150000 Size.l.bytes = true ∧
      ∀ x ∈ byteAddrs 0x40150000 Size.l.bytes,
        kindAt s.params x.toNat = some .device ∧ inCode s.params x.toNat = false :=
  ⟨by decide +kernel, all_of (by decide +kernel)⟩

/-- An aligned access whose last byte is outside every range; a store whose last byte is rom. -/
theorem wit_AccessErrors :
    let s := inRegions [⟨0x2F00, 3, .ram⟩] base
    let u := inRegions [⟨0x2F00, 3, .ram⟩, ⟨0x2F03, 1, .rom⟩] base
    aligned 0x2F00 4 = true ∧ (∀ x ∈ byteAddrs 0x2F00 3, kindAt s.params x.toNat ≠ none) ∧
      (∀ x ∈ byteAddrs 0x2F00 3, kindAt s.params x.toNat = some .ram ∧ inCode s.params x.toNat = false) ∧
      kindAt s.params (0x2F00 + BitVec.ofNat 32 3 : Word).toNat = none ∧
      (∀ x ∈ byteAddrs 0x2F00 3, kindAt u.params x.toNat = some .ram ∧ inCode u.params x.toNat = false) ∧
      kindAt u.params (0x2F00 + BitVec.ofNat 32 3 : Word).toNat = some .rom :=
  ⟨by decide +kernel, all_of (by decide +kernel), all_of (by decide +kernel), by decide +kernel,
    all_of (by decide +kernel), by decide +kernel⟩

theorem wit_StoreToCodeIsRefused :
    let s : State := { base with params := { base.params with code := [⟨0x2003, 1⟩] } }
    aligned 0x2000 4 = true ∧ (∀ x ∈ byteAddrs 0x2000 4, kindAt s.params x.toNat = some .ram) ∧
      ∃ x ∈ byteAddrs 0x2000 4, inCode s.params x.toNat = true :=
  ⟨by decide +kernel, all_of (by decide +kernel), 0x2003, by decide +kernel, by decide +kernel⟩

theorem wit_AddressingModes :
    (idx true 3 true).reserved = true ∧ (idx false 3 false).reserved = false ∧ (idx false 3 false).long = false ∧
      (idx true 3 false).reserved = false ∧ (idx true 3 false).long = true ∧ (idx true 3 false).scale = 3 ∧
      base.params.hasFpu = false ∧ (idx true 2 false).reserved = false ∧ (idx true 2 false).long = true ∧
      (idx true 2 false).scale ≠ 3 := by decide +kernel

/-- A misaligned postincrement source, and a destination that wraps round the address space. -/
theorem wit_AddResult :
    EaReadable (.postinc ⟨0⟩) .l (base.pc + 2) (base.setA ⟨0⟩ 0x2F01) ∧ (Ea.absL 0xFFFFFFFE).isMemoryAlterable = true ∧
      EaWritable (.absL 0xFFFFFFFE) .l (base.pc + 2) base :=
  ⟨erd rfl (by decide +kernel), rfl, ewr rfl (by decide +kernel)⟩

theorem wit_AddaResult : EaReadable (.postinc ⟨7⟩) .l (base.pc + 2) base :=
  erd rfl (by decide +kernel)

theorem wit_SubResult :
    EaReadable (.pcIndex (idx true 2 false)) .l (base.pc + 2) base ∧ (Ea.predec ⟨7⟩).isMemoryAlterable = true ∧
      EaWritable (.predec ⟨7⟩) .l (base.pc + 2) base :=
  ⟨erd rfl (by decide +kernel), rfl, ewr rfl (by decide +kernel)⟩

theorem wit_CmpaResult : EaReadable (.imm 0x1004) .l (base.pc + 2) base :=
  ⟨rfl, fun h => by cases h⟩

theorem wit_MultiplePrecisionSum :
    (⟨0⟩ : DReg) ≠ ⟨1⟩ ∧ (⟨0⟩ : DReg) ≠ ⟨2⟩ ∧ (⟨0⟩ : DReg) ≠ ⟨3⟩ ∧ (⟨1⟩ : DReg) ≠ ⟨2⟩ ∧ (⟨1⟩ : DReg) ≠ ⟨3⟩ ∧
      (⟨2⟩ : DReg) ≠ ⟨3⟩ := by decide

theorem wit_MoveResult :
    (Instr.moveB (.postinc ⟨7⟩) (.absL 0x2F00)).modesOk = true ∧ EaReadable (.postinc ⟨7⟩) .b (base.pc + 2) base ∧
      EaWritable (.absL 0x2F00) .b (base.pc + 2 + BitVec.ofNat 32 0) (stepEa (.postinc ⟨7⟩) .b base) ∧
      (Instr.moveW (.areg ⟨0⟩) (.predec ⟨1⟩)).modesOk = true ∧
      (∀ n, Ea.areg ⟨0⟩ = .areg n → Ea.predec ⟨1⟩ ≠ .postinc n ∧ Ea.predec ⟨1⟩ ≠ .predec n) ∧
      EaReadable (.areg ⟨0⟩) .w (base.pc + 2) base ∧
      EaWritable (.predec ⟨1⟩) .w (base.pc + 2 + BitVec.ofNat 32 0) (stepEa (.areg ⟨0⟩) .w base) ∧
      (Instr.moveL (.disp 4 ⟨0⟩) (.disp 8 ⟨1⟩)).modesOk = true ∧
      (∀ n, Ea.disp 4 ⟨0⟩ = .areg n → Ea.disp 8 ⟨1⟩ ≠ .postinc n ∧ Ea.disp 8 ⟨1⟩ ≠ .predec n) ∧
      EaReadable (.disp 4 ⟨0⟩) .l (base.pc + 2) base ∧
      EaWritable (.disp 8 ⟨1⟩) .l (base.pc + 2 + BitVec.ofNat 32 2) (stepEa (.disp 4 ⟨0⟩) .l base) ∧
      (Instr.moveB (.postinc ⟨7⟩) (.dreg ⟨0⟩)).modesOk = true :=
  ⟨rfl, erd rfl (by decide +kernel), ewr rfl (by decide +kernel), rfl,
    fun n h => by cases h; exact ⟨nofun, by decide⟩, ⟨rfl, fun h => by cases h⟩, ewr rfl (by decide +kernel), rfl,
    fun _ => nofun, erd rfl (by decide +kernel), ewr rfl (by decide +kernel), rfl⟩

theorem wit_MoveThroughOneRegister :
    Readable base (base.getA ⟨7⟩) 4 ∧ Writable base (base.getA ⟨7⟩ + 4) 4 ∧ Writable base (base.getA ⟨7⟩) 4 :=
  ⟨rd (by decide +kernel), wr (by decide +kernel), wr (by decide +kernel)⟩

theorem wit_MoveaAndMoveqResult :
    EaReadable (.absW 0xFFFF) .w (base.pc + 2) base ∧ EaReadable (.predec ⟨0⟩) .l (base.pc + 2) base :=
  ⟨erd rfl (by decide +kernel), erd rfl (by decide +kernel)⟩

/-- All sixteen registers; the first and the last bit of the mask. -/
theorem wit_MovemStoreResult :
    (Ea.ind ⟨7⟩).isMovem = true ∧
      (∀ k < (maskRegs 0xFFFF).length,
        Writable base (effAddr (.ind ⟨7⟩) .l (base.pc + 2 + 2) base + BitVec.ofNat 32 (4 * k)) 4) ∧
      (0xFFFF : Half).getLsbD (⟨0⟩ : DReg).num = true ∧ (0xFFFF : Half).getLsbD (8 + (⟨7⟩ : AReg).num) = true := by
  have h : ∀ k < (maskRegs 0xFFFF).length,
      writableB base (effAddr (.ind ⟨7⟩) .l (base.pc + 2 + 2) base + BitVec.ofNat 32 (4 * k)) 4 = true := by
    decide +kernel
  exact ⟨rfl, fun k hk => wr (h k hk), by decide, by decide⟩

theorem wit_MovemLoadResult :
    (Ea.disp 8 ⟨7⟩).isMovem = true ∧
      ∀ k < (maskRegs 0xFFFF).length,
        Readable base (effAddr (.disp 8 ⟨7⟩) .l (base.pc + 2 + 2) base + BitVec.ofNat 32 (4 * k)) 4 := by
  have h : ∀ k < (maskRegs 0xFFFF).length,
      readableB base (effAddr (.disp 8 ⟨7⟩) .l (base.pc + 2 + 2) base + BitVec.ofNat 32 (4 * k)) 4 = true := by
    decide +kernel
  exact ⟨rfl, fun k hk => rd (h k hk)⟩

theorem wit_LeaResult :
    (Ea.index (idx true 2 false) ⟨0⟩).isControl = true ∧
      eaStop base.params (.index (idx true 2 false) ⟨0⟩) (base.pc + 2) = none ∧ (idx true 2 false).reserved = false ∧
      (idx true 2 false).long = true ∧ (idx true 2 false).scale ≠ 3 := by decide +kernel

theorem wit_ClrResult :
    (Ea.postinc ⟨0⟩).isDataAlterable = true ∧ EaWritable (.postinc ⟨0⟩) .b (base.pc + 2) base ∧
      EaWritable (.postinc ⟨0⟩) .w (base.pc + 2) base ∧ EaWritable (.postinc ⟨0⟩) .l (base.pc + 2) base :=
  ⟨rfl, ewr rfl (by decide +kernel), ewr rfl (by decide +kernel), ewr rfl (by decide +kernel)⟩

theorem wit_AndResult :
    (Ea.absW 0x00EF).isData = true ∧ EaReadable (.absW 0x00EF) .l (base.pc + 2) base ∧
      (Ea.ind ⟨0⟩).isMemoryAlterable = true ∧ EaWritable (.ind ⟨0⟩) .l (base.pc + 2) base :=
  ⟨rfl, erd rfl (by decide +kernel), rfl, ewr rfl (by decide +kernel)⟩

/-- Both forms of each clause; a bit number of 255 and of 2^32 - 1. -/
theorem wit_BsetResult :
    (∃ num, Instr.bsetImm 0xFF (.dreg ⟨0⟩) = .bsetImm num (.dreg ⟨0⟩) ∧ 255 = num.toNat % 256) ∧
      (∃ dy, Instr.bsetReg ⟨1⟩ (.dreg ⟨0⟩) = .bsetReg dy (.dreg ⟨0⟩) ∧
        0xFFFFFFFF = ((base.setD ⟨1⟩ 0xFFFFFFFF).getD dy).toNat) ∧
      (Ea.postinc ⟨7⟩).isMemoryAlterable = true ∧ EaWritable (.postinc ⟨7⟩) .b (base.pc + 2 + 2) base ∧
      EaWritable (.postinc ⟨7⟩) .b (base.pc + 2) base :=
  ⟨⟨0xFF, rfl, by decide⟩, ⟨⟨1⟩, rfl, by decide +kernel⟩, rfl,
    ewr rfl (by decide +kernel), ewr rfl (by decide +kernel)⟩

theorem wit_CallAndReturnResult : Writable base (base.getA .sp - 4) 4 ∧ Readable base (base.getA .sp) 4 :=
  ⟨wr (by decide +kernel), rd (by decide +kernel)⟩

/-- The subprogram has changed a data register. -/
theorem wit_ReturnFollowsCall :
    Writable base (base.getA .sp - 4) 4 ∧
      ∃ t u : State, exec (.bsr (.short 4)) base = .next t ∧ u = t.setD ⟨0⟩ 1 ∧ u.params = t.params ∧
        u.getA .sp = t.getA .sp ∧ ∀ x ∈ byteAddrs (t.getA .sp) 4, u.byteAt x.toNat = t.byteAt x.toNat := by
  obtain ⟨t, ht⟩ := next_of_after (o := exec (.bsr (.short 4)) base) (by decide +kernel)
  exact ⟨wr (by decide +kernel), t, t.setD ⟨0⟩ 1, ht, rfl, rfl, rfl, fun _ _ => rfl⟩

theorem wit_HaltResult :
    base.sr.s = true ∧ (base.setSr ⟨false, false, false, 7⟩).sr.s = false ∧
      (base.setSr ⟨false, false, false, 7⟩).params.userHalt = false := ⟨rfl, rfl, rfl⟩

theorem wit_TerminalExceptionRecords : base.params.trapModel = .terminal ∧ base.status = .running := ⟨rfl, rfl⟩

/-- A stack pointer that is not a multiple of 4. -/
theorem wit_VectoredExceptionEntry :
    let s := (vectored base).setA .sp 0x3003
    s.params.trapModel = .vectored ∧ Writable s ((s.getA .sp - 8) &&& ~~~3#32) 4 ∧
      Writable s (((s.getA .sp - 8) &&& ~~~3#32) + 4) 4 ∧
      Readable s ((s.vbr &&& 0xFFF00000) + 4 * Cause.privilegeViolation.vector.setWidth 32) 4 :=
  ⟨rfl, wr (by decide +kernel), wr (by decide +kernel), rd (by decide +kernel)⟩

/-- The frame's first longword outside `MEM`, its second in rom, and the vector table outside `MEM`. -/
theorem wit_FaultOnFaultHalts :
    let s := inRegions [⟨0x3000, 4, .ram⟩] (vectored base)
    let u := inRegions [⟨0x2FF8, 4, .ram⟩, ⟨0x2FFC, 4, .rom⟩] (vectored base)
    let v := inRegions [⟨0x2FF8, 8, .ram⟩] (vectored base)
    (base.getA .sp - 8) &&& ~~~3#32 = 0x2FF8 ∧ (Cause.addressError 0x2001 .oddPc).isAccessOrAddress = true ∧
      (s.params.trapModel = .vectored ∧ s.getA .sp = base.getA .sp ∧
        (∀ x ∈ byteAddrs 0x2FF8 4, inCode s.params x.toNat = false) ∧
        ∃ x ∈ byteAddrs 0x2FF8 4, kindAt s.params x.toNat = none ∨ kindAt s.params x.toNat = some .rom) ∧
      (u.params.trapModel = .vectored ∧ u.getA .sp = base.getA .sp ∧ Writable u 0x2FF8 4 ∧
        (∀ x ∈ byteAddrs (0x2FF8 + 4) 4, inCode u.params x.toNat = false) ∧
        ∃ x ∈ byteAddrs (0x2FF8 + 4) 4, kindAt u.params x.toNat = none ∨ kindAt u.params x.toNat = some .rom) ∧
      (v.params.trapModel = .vectored ∧ v.getA .sp = base.getA .sp ∧ Writable v 0x2FF8 4 ∧
        Writable v (0x2FF8 + 4) 4 ∧
        (v.vbr &&& 0xFFF00000) + 4 * (Cause.addressError 0x2001 .oddPc).vector.setWidth 32 = 12 ∧
        ∃ x ∈ byteAddrs 12 4, kindAt v.params x.toNat = none) :=
  ⟨by decide +kernel, rfl,
    ⟨rfl, rfl, all_of (by decide +kernel), 0x2FF8, by decide +kernel, by decide +kernel⟩,
    ⟨rfl, rfl, wr (by decide +kernel), all_of (by decide +kernel), 0x2FFC, by decide +kernel, by decide +kernel⟩,
    rfl, rfl, wr (by decide +kernel), wr (by decide +kernel), by decide +kernel, 12, by decide +kernel,
    by decide +kernel⟩

theorem wit_ReturnUndoesEntry :
    let s := (vectored base).setA .sp 0x3003
    s.params.trapModel = .vectored ∧ Writable s ((s.getA .sp - 8) &&& ~~~3#32) 4 ∧
      Writable s (((s.getA .sp - 8) &&& ~~~3#32) + 4) 4 ∧
      Readable s ((s.vbr &&& 0xFFF00000) + 4 * (Cause.addressError 0x2001 .oddPc).vector.setWidth 32) 4 ∧
      ∃ t, takeException (.addressError 0x2001 .oddPc) s = .next t :=
  ⟨rfl, wr (by decide +kernel), wr (by decide +kernel), rd (by decide +kernel), next_of_after (by decide +kernel)⟩

/-- Reads that fault: outside `MEM` at the first byte and at the last, split and aligned, and misaligned; and an index
word that faults. -/
theorem wit_OperandFaultsAreTaken :
    let s := inRegions [] base
    let u := (faulting base).setA ⟨0⟩ 3
    let v := inRegions [⟨0x2F00, 3, .ram⟩] base
    (.addToD (.postinc ⟨0⟩) ⟨1⟩ : Instr) ∈ [.addToD (.postinc ⟨0⟩) ⟨1⟩, .addToEa ⟨1⟩ (.postinc ⟨0⟩)] ∧
      eaInMemory (.postinc ⟨0⟩) = true ∧ eaStop s.params (.postinc ⟨0⟩) (s.pc + 2) = none ∧
      ReadFaults s (effAddr (.postinc ⟨0⟩) .l (s.pc + 2) s) Size.l.bytes (.accessError 0 .read false) ∧
      eaStop u.params (.predec ⟨0⟩) (u.pc + 2) = none ∧
      ReadFaults u (effAddr (.predec ⟨0⟩) .l (u.pc + 2) u) Size.l.bytes (.addressError 0xFFFFFFFF (.data .read)) ∧
      ReadFaults s (effAddr (.ind ⟨0⟩) .b (s.pc + 2 + 2) s) Size.b.bytes (.accessError 0 .read false) ∧
      ReadFaults v (effAddr (.absW 0x2F00) .l (v.pc + 2) v) Size.l.bytes (.accessError 0x2F03 .read false) ∧
      ReadFaults v (effAddr (.absW 0x2F01) .l (v.pc + 2) v) Size.l.bytes (.accessError 0x2F03 .read false) ∧
      eaInMemory (.index (idx false 0 false) ⟨0⟩) = true ∧
      eaStop base.params (.index (idx false 0 false) ⟨0⟩) (base.pc + 2) =
        some (.cause (.addressError (base.pc + 2) .index)) :=
  ⟨by decide +kernel, rfl, rfl,
    rf 0 (by decide) (by decide +kernel) (by decide +kernel) (by decide +kernel) (by decide +kernel), rfl,
    .inr ⟨rfl, by decide +kernel, by decide +kernel⟩,
    rf 0 (by decide) (by decide +kernel) (by decide +kernel) (by decide +kernel) (by decide +kernel),
    rf 3 (by decide) (by decide +kernel) (by decide +kernel) (by decide +kernel) (by decide +kernel),
    rf 2 (by decide) (by decide +kernel) (by decide +kernel) (by decide +kernel) (by decide +kernel), rfl,
    by decide +kernel⟩

/-- A write in rom after a read there, writes of a CLR outside `MEM` at the first byte and, aligned, at the last, and a
MOVE's destination in rom. -/
theorem wit_OperandFaults_writes :
    let s := inRegions [⟨0, 4, .rom⟩] base
    let u := inRegions [] base
    let v := inRegions [⟨0x2F00, 3, .ram⟩] base
    EaReadable (.postinc ⟨0⟩) .l (s.pc + 2) s ∧ eaInMemory (.postinc ⟨0⟩) = true ∧
      eaStop s.params (.postinc ⟨0⟩) (s.pc + 2) = none ∧
      WriteFaults s (effAddr (.postinc ⟨0⟩) .l (s.pc + 2) s) Size.l.bytes (.accessError 0 .write true) ∧
      WriteFaults u (effAddr (.predec ⟨0⟩) .w (u.pc + 2) u) Size.w.bytes (.accessError 0xFFFFFFFE .write false) ∧
      WriteFaults v (effAddr (.absW 0x2F00) .l (v.pc + 2) v) Size.l.bytes (.accessError 0x2F03 .write false) ∧
      (∀ n, Ea.postinc ⟨0⟩ = .areg n → Ea.predec ⟨0⟩ ≠ .postinc n ∧ Ea.predec ⟨0⟩ ≠ .predec n) ∧
      eaStop s.params (.predec ⟨0⟩) (s.pc + 2 + BitVec.ofNat 32 (2 * (Ea.postinc ⟨0⟩).words .l)) = none ∧
      WriteFaults (stepEa (.postinc ⟨0⟩) .l s)
        (effAddr (.predec ⟨0⟩) .l (s.pc + 2 + BitVec.ofNat 32 0) (stepEa (.postinc ⟨0⟩) .l s)) Size.l.bytes
        (.accessError 0 .write true) ∧
      eaStop s.params (.index (idx false 0 false) ⟨1⟩) (s.pc + 2 + BitVec.ofNat 32 0) =
        some (.cause (.addressError (s.pc + 2) .index)) :=
  ⟨erd rfl (by decide +kernel), rfl, rfl,
    wf 0 (by decide) (by decide +kernel) (by decide +kernel) (by decide +kernel),
    wf 0 (by decide) (by decide +kernel) (by decide +kernel) (by decide +kernel),
    wf 3 (by decide) (by decide +kernel) (by decide +kernel) (by decide +kernel), fun _ => nofun, rfl,
    wf 0 (by decide) (by decide +kernel) (by decide +kernel) (by decide +kernel), by decide +kernel⟩

/-- MOVEM's second of two longwords, BSR's push and RTS's read outside `MEM`. -/
theorem wit_OperandFaults_transfers :
    let s := inRegions [⟨0x3000, 4, .ram⟩] base
    let a := effAddr (.ind ⟨7⟩) .l (s.pc + 2 + 2) s
    (Ea.ind ⟨7⟩).isMovem = true ∧ 1 < (maskRegs 0x0003).length ∧
      (∀ j < 1, Writable s (a + BitVec.ofNat 32 (4 * j)) 4 ∧ Readable s (a + BitVec.ofNat 32 (4 * j)) 4) ∧
      WriteFaults s (a + BitVec.ofNat 32 (4 * 1)) 4 (.accessError 0x3004 .write false) ∧
      ReadFaults s (a + BitVec.ofNat 32 (4 * 1)) 4 (.accessError 0x3004 .read false) ∧
      WriteFaults s (s.getA .sp - 4) 4 (.accessError 0x2FFC .write false) ∧
      ReadFaults (inRegions [] base) ((inRegions [] base).getA .sp) 4 (.accessError 0x3000 .read false) :=
  ⟨rfl, by decide, fun j hj => by
      obtain rfl : j = 0 := by omega
      exact ⟨wr (by decide +kernel), rd (by decide +kernel)⟩,
    wf 0 (by decide) (by decide +kernel) (by decide +kernel) (by decide +kernel),
    rf 0 (by decide) (by decide +kernel) (by decide +kernel) (by decide +kernel) (by decide +kernel),
    wf 0 (by decide) (by decide +kernel) (by decide +kernel) (by decide +kernel),
    rf 0 (by decide) (by decide +kernel) (by decide +kernel) (by decide +kernel) (by decide +kernel)⟩

theorem wit_OperandFaults_order :
    let s := moveFromNowhere
    s.status = .running ∧ s.faultRecord = none ∧ s.pc.getLsbD 0 = false ∧
      PlainBytes s s.pc (2 + 2 * (Ea.ind ⟨0⟩).words .w) ∧
      decode (opWordAt s) (extWordsAt s (2 * (Ea.ind ⟨0⟩).words .w)) = .ok (.moveW (.ind ⟨0⟩) (.disp 0 ⟨1⟩)) ∧
      s.pc.toNat + 2 * (Instr.moveW (.ind ⟨0⟩) (.disp 0 ⟨1⟩)).words ≤ 2 ^ 32 ∧ eaInMemory (.ind ⟨0⟩) = true ∧
      eaStop s.params (.ind ⟨0⟩) (s.pc + 2) = none ∧
      ReadFaults s (effAddr (.ind ⟨0⟩) .w (s.pc + 2) s) Size.w.bytes (.accessError 0 .read false) :=
  ⟨rfl, rfl, by decide +kernel, all_of (by decide +kernel), decode_at (w := 0x3350) (xs := []) (by decide +kernel)
      (by decide +kernel) rfl,
    by decide +kernel, rfl, rfl,
    rf 0 (by decide) (by decide +kernel) (by decide +kernel) (by decide +kernel) (by decide +kernel)⟩

/-- AND.L (A0)+,D0: D1 and A1 are registers the frame speaks of. -/
theorem wit_FrameOfRegisterResults :
    base.params.trapModel = .terminal ∧ (∃ t, exec (.andToD (.postinc ⟨0⟩) ⟨0⟩) base = .next t) ∧
      (⟨1⟩ : DReg) ≠ ⟨0⟩ ∧ steppedReg (.postinc ⟨0⟩) ≠ some ⟨1⟩ := ⟨rfl, next_of_after (by decide +kernel), by decide, by decide⟩

/-- CMPA.L (A0)+,A1 leaves A1; LEA 8(A0),A1 leaves A0 and the flags. -/
theorem wit_FrameOfAddressResults :
    base.params.trapModel = .terminal ∧ (∃ t, exec (.cmpa (.postinc ⟨0⟩) ⟨1⟩) base = .next t) ∧
      steppedReg (.postinc ⟨0⟩) ≠ some ⟨1⟩ ∧ (∃ t, exec (.lea (.disp 8 ⟨0⟩) ⟨1⟩) base = .next t) ∧
      (⟨0⟩ : AReg) ≠ ⟨1⟩ ∧ Instr.lea (.disp 8 ⟨0⟩) ⟨1⟩ ≠ .cmpa (.disp 8 ⟨0⟩) ⟨1⟩ :=
  ⟨rfl, next_of_after (by decide +kernel), by decide, next_of_after (by decide +kernel), by decide, by decide⟩

/-- The byte after the longword stored is outside it. -/
theorem wit_FrameOfArithmeticStores :
    (Ea.postinc ⟨0⟩).isMemoryAlterable = true ∧ base.params.trapModel = .terminal ∧
      (∃ t, exec (.andToEa ⟨1⟩ (.postinc ⟨0⟩)) base = .next t) ∧ steppedReg (.postinc ⟨0⟩) ≠ some ⟨7⟩ ∧
      Outside 4 (effAddr (.postinc ⟨0⟩) .l (base.pc + 2) base) 4 :=
  ⟨rfl, rfl, next_of_after (by decide +kernel), by decide, all_of (by decide +kernel)⟩

theorem wit_FrameOfClrAndBset :
    (Instr.clrB (.dreg ⟨0⟩)).modesOk = true ∧ base.params.trapModel = .terminal ∧
      (∃ t, exec (.clrB (.dreg ⟨0⟩)) base = .next t) ∧ Size.b.bits ≤ 8 ∧
      (Instr.bsetImm 5 (.ind ⟨7⟩)).modesOk = true ∧ (∃ t, exec (.bsetImm 5 (.ind ⟨7⟩)) base = .next t) ∧
      Outside 0x3001 (effAddr (.ind ⟨7⟩) .b (base.pc + 2 + 2) base) Size.b.bytes :=
  ⟨rfl, rfl, next_of_after (by decide +kernel), by decide, rfl, next_of_after (by decide +kernel),
    all_of (by decide +kernel)⟩

theorem wit_FrameOfMove :
    (Instr.moveW (.postinc ⟨0⟩) (.dreg ⟨0⟩)).modesOk = true ∧ base.params.trapModel = .terminal ∧
      (∃ t, exec (.moveW (.postinc ⟨0⟩) (.dreg ⟨0⟩)) base = .next t) ∧ Size.w.bits ≤ 16 ∧
      (∃ t, exec (.moveL (.dreg ⟨0⟩) (.predec ⟨7⟩)) base = .next t) ∧
      Outside 0x3000 (effAddr (.predec ⟨7⟩) .l (base.pc + 2) (stepEa (.dreg ⟨0⟩) .l base)) Size.l.bytes :=
  ⟨rfl, rfl, next_of_after (by decide +kernel), by decide, next_of_after (by decide +kernel),
    all_of (by decide +kernel)⟩

theorem wit_FrameOfMovemAndCalls :
    base.params.trapModel = .terminal ∧ (Ea.ind ⟨7⟩).isMovem = true ∧
      (∃ t, exec (.movemStore 0x0006 (.ind ⟨7⟩)) base = .next t) ∧
      Outside 0x3008 (effAddr (.ind ⟨7⟩) .l (base.pc + 2 + 2) base) (4 * (maskRegs 0x0006).length) ∧
      (∃ t, exec (.movemLoad 0x0006 (.ind ⟨7⟩)) base = .next t) ∧ AnyReg.d ⟨0⟩ ∉ maskRegs 0x0006 ∧
      (∃ t, exec (.bsr (.word 4)) base = .next t) ∧ Outside 0x3000 (base.getA .sp - 4) 4 ∧
      ∃ t, exec .rts base = .next t :=
  ⟨rfl, rfl, next_of_after (by decide +kernel), all_of (by decide +kernel), next_of_after (by decide +kernel),
    by decide +kernel, next_of_after (by decide +kernel), all_of (by decide +kernel), next_of_after (by decide +kernel)⟩

end Sys2Proof.Tests
end

section
/-! ### What AddC and SubB mean as numbers (R10) -/

namespace Sys2Proof.Machine

/-- The unsigned sum, with the carry as its bit 32 (R10). -/
theorem addC_toNat (s d : Word) (x : Bool) :
    (addC s d x).res.toNat + (if (addC s d x).carry then 2 ^ 32 else 0) = s.toNat + d.toNat + x.toNat := by
  have hx := x.toNat_le
  simp only [addC, BitVec.toNat_ofNat, decide_eq_true_eq]
  split <;> omega

/-- AddC's result is the signed sum modulo 2^32, taken in the range of signed words. -/
theorem addC_toInt (s d : Word) (x : Bool) :
    (addC s d x).res.toInt = (s.toInt + d.toInt + x.toNat).bmod (2 ^ 32) := by
  calc (addC s d x).res.toInt
    _ = ((s.toNat + d.toNat + x.toNat : Nat) : Int).bmod (2 ^ 32) := BitVec.toInt_ofNat _
    _ = (s.toInt + d.toInt + x.toNat).bmod (2 ^ 32) := by
      rw [s.toInt_eq_toNat_bmod, d.toInt_eq_toNat_bmod, Int.add_right_comm, Int.add_bmod_bmod, Int.add_right_comm,
        Int.add_assoc, Int.bmod_add_bmod, ← Int.add_assoc]
      norm_cast

/-- AddC overflows exactly where the signed sum does not fit a word: only numbers of one sign have such a sum, and its
result has the other sign. -/
theorem addC_overflow (s d : Word) (x : Bool) :
    (addC s d x).overflow = false ↔ (addC s d x).res.toInt = s.toInt + d.toInt + x.toNat := by
  have hr := addC_toInt s d x
  have hv : (addC s d x).overflow = (s.msb == d.msb && (addC s d x).res.msb != d.msb) := rfl
  have hx := x.toNat_le
  have hs := s.le_toInt
  have hs' := s.toInt_lt
  have hd := d.le_toInt
  have hd' := d.toInt_lt
  rw [hv]
  simp only [BitVec.msb_eq_toInt, Bool.and_eq_false_iff, beq_eq_false_iff_ne, bne_eq_false_iff_eq, ne_eq,
    decide_eq_decide, Int.bmod_def] at hr ⊢
  omega

theorem toNat_not_word (s : Word) : (~~~s).toNat = 2 ^ 32 - 1 - s.toNat := BitVec.toNat_not

theorem toInt_not_word (s : Word) : (~~~s).toInt = -1 - s.toInt := by
  have hn := toNat_not_word s
  have hs := s.isLt
  rw [BitVec.toInt_eq_toNat_cond, BitVec.toInt_eq_toNat_cond]
  omega

theorem toNat_not_bool (x : Bool) : (!x).toNat = 1 - x.toNat := by cases x <;> rfl

/-- SubB is AddC with the subtrahend and the bit coming in complemented, and its borrow is the complement of the
carry. -/
theorem subB_eq_addC (s d : Word) (x : Bool) :
    subB s d x =
      ⟨(addC (~~~s) d (!x)).res, !(addC (~~~s) d (!x)).carry, (addC (~~~s) d (!x)).overflow⟩ := by
  have hn := toNat_not_word s
  have hb := toNat_not_bool x
  have hx := x.toNat_le
  have hr : d - s - BitVec.ofNat 32 x.toNat = BitVec.ofNat 32 ((~~~s).toNat + d.toNat + (!x).toNat) := by
    bv_omega
  have hc : decide (d.toNat < s.toNat + x.toNat) = !decide (2 ^ 32 ≤ (~~~s).toNat + d.toNat + (!x).toNat) := by
    rw [← decide_not, decide_eq_decide]
    omega
  simp only [subB, addC, hr, hc, BitVec.msb_not]
  cases s.msb <;> cases d.msb <;> rfl

/-- The unsigned difference, to which a borrow adds 2^32 (R10). -/
theorem subB_toNat (s d : Word) (x : Bool) :
    (subB s d x).res.toNat + s.toNat + x.toNat = d.toNat + (if (subB s d x).carry then 2 ^ 32 else 0) := by
  have h := addC_toNat (~~~s) d (!x)
  have hx := x.toNat_le
  rw [toNat_not_word, toNat_not_bool] at h
  rw [subB_eq_addC]
  cases hc : (addC (~~~s) d (!x)).carry <;> simp [hc] at h ⊢ <;> omega

/-- SubB overflows exactly where the signed difference does not fit a word. -/
theorem subB_overflow (s d : Word) (x : Bool) :
    (subB s d x).overflow = false ↔ (subB s d x).res.toInt = d.toInt - s.toInt - x.toNat := by
  have hb := toNat_not_bool x
  have hx := x.toNat_le
  simp only [subB_eq_addC, addC_overflow, toInt_not_word]
  omega

/-- Settles O27: the sum by its carry and the sign of its result, the difference as a sum with the complement. -/
theorem carryAndOverflowMeaning : Obligations.CarryAndOverflowMeaning := fun s d x =>
  ⟨addC_toNat s d x, addC_overflow s d x, subB_toNat s d x, subB_overflow s d x⟩

/-! ### The values at launch (R6, R30, R31, R35) -/

/-- Settles O12: the values stand in `State.reset`; the status register's high byte is put together from them. -/
theorem resetValues : Obligations.ResetValues := by
  have hsr : State.reset.srWord.extractLsb' 8 8 = 0x27 := by decide
  exact ⟨rfl, hsr, rfl, rfl, rfl, rfl, rfl, rfl, rfl⟩

end Sys2Proof.Machine
end

section
/-! ### The operation word alone: the decoder's answer where no other word has been read (R68, R206) -/

namespace Sys2Proof

/-- The effective address with its extension words zero: what its Mode and Register fields alone say. -/
def Ea.blank : Ea → Ea
  | .disp _ n => .disp 0 n
  | .index _ n => .index (IndexWord.ofHalf 0) n
  | .absW _ => .absW 0
  | .absL _ => .absL 0
  | .pcDisp _ => .pcDisp 0
  | .pcIndex _ => .pcIndex (IndexWord.ofHalf 0)
  | .imm _ => .imm 0
  | ea => ea

/-- The displacement with its extension word, if it has one, zero. -/
def BranchDisp.blank : BranchDisp → BranchDisp
  | .word _ => .word 0
  | d => d

/-- The instruction with the words after its operation word zero. -/
def Instr.blank : Instr → Instr
  | .addToD ea dx => .addToD ea.blank dx
  | .addToEa dy ea => .addToEa dy ea.blank
  | .adda ea ax => .adda ea.blank ax
  | .addi _ dx => .addi 0 dx
  | .subToD ea dx => .subToD ea.blank dx
  | .subToEa dy ea => .subToEa dy ea.blank
  | .cmpa ea ax => .cmpa ea.blank ax
  | .andToD ea dx => .andToD ea.blank dx
  | .andToEa dy ea => .andToEa dy ea.blank
  | .movea sz ea ax => .movea sz ea.blank ax
  | .moveB src dst => .moveB src.blank dst.blank
  | .moveL src dst => .moveL src.blank dst.blank
  | .moveW src dst => .moveW src.blank dst.blank
  | .movemStore _ ea => .movemStore 0 ea.blank
  | .movemLoad _ ea => .movemLoad 0 ea.blank
  | .lea ea ax => .lea ea.blank ax
  | .clrB ea => .clrB ea.blank
  | .clrW ea => .clrW ea.blank
  | .clrL ea => .clrL ea.blank
  | .bsetImm _ ea => .bsetImm 0 ea.blank
  | .bsetReg dy ea => .bsetReg dy ea.blank
  | .bra d => .bra d.blank
  | .bsr d => .bsr d.blank
  | .bhi d => .bhi d.blank
  | .bls d => .bls d.blank
  | .bcc d => .bcc d.blank
  | .bcs d => .bcs d.blank
  | .bne d => .bne d.blank
  | .beq d => .beq d.blank
  | .bvc d => .bvc d.blank
  | .bvs d => .bvs d.blank
  | .bpl d => .bpl d.blank
  | .bmi d => .bmi d.blank
  | .bge d => .bge d.blank
  | .blt d => .blt d.blank
  | .bgt d => .bgt d.blank
  | .ble d => .ble d.blank
  | i => i

@[simp] theorem Ea.blank_mode (ea : Ea) : ea.blank.mode = ea.mode := by cases ea <;> rfl
@[simp] theorem Ea.blank_reg (ea : Ea) : ea.blank.reg = ea.reg := by cases ea <;> rfl
@[simp] theorem Ea.blank_words (ea : Ea) (sz : Size) : ea.blank.words sz = ea.words sz := by cases ea <;> rfl
@[simp] theorem Ea.blank_isData (ea : Ea) : ea.blank.isData = ea.isData := by cases ea <;> rfl
@[simp] theorem Ea.blank_isMemoryAlterable (ea : Ea) : ea.blank.isMemoryAlterable = ea.isMemoryAlterable := by
  cases ea <;> rfl
@[simp] theorem Ea.blank_isDataAlterable (ea : Ea) : ea.blank.isDataAlterable = ea.isDataAlterable := by
  cases ea <;> rfl
@[simp] theorem Ea.blank_isControl (ea : Ea) : ea.blank.isControl = ea.isControl := by cases ea <;> rfl
@[simp] theorem Ea.blank_isBsetStatic (ea : Ea) : ea.blank.isBsetStatic = ea.isBsetStatic := by cases ea <;> rfl
@[simp] theorem Ea.blank_isMovem (ea : Ea) : ea.blank.isMovem = ea.isMovem := by cases ea <;> rfl
@[simp] theorem Ea.blank_immFits (ea : Ea) (sz : Size) : ea.blank.immFits sz = true := by
  cases ea <;> cases sz <;> rfl
@[simp] theorem movePair_blank_left (src dst : Ea) : movePair src.blank dst = movePair src dst := by cases src <;> rfl
@[simp] theorem movePair_blank_right (src dst : Ea) : movePair src dst.blank = movePair src dst := by
  cases dst <;> rfl
@[simp] theorem BranchDisp.blank_words (d : BranchDisp) : d.blank.words = d.words := by cases d <;> rfl
@[simp] theorem BranchDisp.blank_ok (d : BranchDisp) : d.blank.ok = d.ok := by cases d <;> rfl

/-- The operation word alone fixes the length (R68). -/
@[simp] theorem Instr.blank_words (i : Instr) : i.blank.words = i.words := by
  cases i <;> simp [Instr.blank, Instr.words]

/-- The operation word decides the modes (R76). -/
@[simp] theorem Instr.blank_modesOk (i : Instr) : i.blank.modesOk = i.modesOk := by
  cases i <;> simp [Instr.blank, Instr.modesOk]

/-- Operand words of zero are never refused. -/
@[simp] theorem Instr.blank_operandError (i : Instr) : i.blank.operandError = none := by
  cases i <;> simp [Instr.blank, Instr.operandError]

/-- MOVE at a size (R151). -/
def Instr.move : Size → Ea → Ea → Instr
  | .b => .moveB
  | .l => .moveL
  | .w => .moveW

/-- The instruction is a MOVE: the one format with two effective addresses (R67). -/
def Instr.isMove : Instr → Bool
  | .moveB _ _ | .moveL _ _ | .moveW _ _ => true
  | _ => false

theorem Instr.exists_move {i : Instr} (h : i.isMove = true) : ∃ sz src dst, i = .move sz src dst := by
  cases i with
  | moveB src dst => exact ⟨.b, src, dst, rfl⟩
  | moveL src dst => exact ⟨.l, src, dst, rfl⟩
  | moveW src dst => exact ⟨.w, src, dst, rfl⟩
  | _ => cases h

@[simp] theorem Instr.isMove_move (sz : Size) (src dst : Ea) : (Instr.move sz src dst).isMove = true := by
  cases sz <;> rfl
@[simp] theorem Instr.blank_move (sz : Size) (src dst : Ea) :
    (Instr.move sz src dst).blank = .move sz src.blank dst.blank := by cases sz <;> rfl
@[simp] theorem Instr.words_move (sz : Size) (src dst : Ea) :
    (Instr.move sz src dst).words = 1 + src.words sz + dst.words sz := by cases sz <;> rfl
/-- The modes of a destination are in its Mode and Register fields. -/
@[simp] theorem Instr.modesOk_move_blank (sz : Size) (src dst : Ea) :
    (Instr.move sz src dst.blank).modesOk = (Instr.move sz src dst).modesOk := by
  cases sz <;> simp [Instr.move, Instr.modesOk]
/-- Only the source of a MOVE has operand words that are refused by name. -/
@[simp] theorem Instr.operandError_move_blank (sz : Size) (src dst : Ea) :
    (Instr.move sz src dst.blank).operandError = (Instr.move sz src dst).operandError := by
  cases sz <;> rfl
theorem Instr.move_inj {sz sz' : Size} {src src' dst dst' : Ea}
    (h : Instr.move sz src dst = .move sz' src' dst') : sz = sz' ∧ src = src' ∧ dst = dst' := by
  cases sz <;> cases sz' <;> cases h <;> exact ⟨rfl, rfl, rfl⟩

/-! ### The formats an operation word selects (R69 to R75) -/

/-- The fields alone say what an effective address is but for its extension words. -/
theorem decodeEa_blank (mode reg : BitVec 3) (sz : Size) (xs : List Half) :
    (decodeEa mode reg sz xs).map Ea.blank = decodeEa mode reg sz [] := by
  simp only [decodeEa, apply_ite (Except.map Ea.blank)]
  cases sz <;> rfl

/-- An effective address is read from its own extension words alone. -/
theorem decodeEa_append {mode reg : BitVec 3} {sz : Size} {xs ys : List Half} {ea : Ea}
    (h : decodeEa mode reg sz (xs ++ ys) = .ok ea) (hl : ea.words sz ≤ xs.length) :
    decodeEa mode reg sz xs = .ok ea := by
  obtain ⟨rfl, rfl, _⟩ := decodeEa_eq_ok h
  have h0 : 0 < ea.words sz → (xs ++ ys)[0]? = xs[0]? := fun h => List.getElem?_append_left (h.trans_le hl)
  have h1 : 1 < ea.words sz → (xs ++ ys)[1]? = xs[1]? := fun h => List.getElem?_append_left (h.trans_le hl)
  rw [← h]
  cases ea with
  | dreg n | areg n | ind n | postinc n | predec n => simp [decodeEa, Ea.mode]
  | disp d n | index e n | absW a | pcDisp d | pcIndex e => simp [decodeEa, Ea.mode, Ea.reg, h0 Nat.one_pos]
  | absL a => simp [decodeEa, Ea.mode, Ea.reg, h0 Nat.two_pos, h1 Nat.one_lt_two]
  | imm v =>
    cases sz with
    | b | w => simp [decodeEa, Ea.mode, Ea.reg, h0 Nat.one_pos]
    | l => simp [decodeEa, Ea.mode, Ea.reg, h0 Nat.two_pos, h1 Nat.one_lt_two]

/-- MOVE's format reads its source, then its destination from the words after the source's (R67). -/
theorem candidateMove_eq_ok {sz : Size} {mk : Ea → Ea → Instr} {r o m g : BitVec 3} {xs : List Half} {i : Instr}
    (h : candidateMove sz mk r o m g xs = .ok i) :
    ∃ src dst, decodeEa m g sz xs = .ok src ∧ decodeEa o r sz (xs.drop (src.words sz)) = .ok dst ∧ i = mk src dst := by
  simp only [candidateMove] at h
  split at h
  · cases h
  · rename_i src hs
    cases hd : decodeEa o r sz (xs.drop (src.words sz)) with
    | error e => rw [hd] at h; cases h
    | ok dst =>
      rw [hd] at h
      exact ⟨src, dst, hs, hd, (Except.ok.inj h).symm⟩

/-- How an operation word reads the words after it: it is refused, or they hold operand words, or one effective address
after `k` operand words, or the two effective addresses of MOVE. The conditions say that blanking an instruction gives
what is read where there are no words, and that no other format reads a MOVE. -/
inductive InstrFormat : (List Half → Except DecodeError Instr) → Prop
  | refused (e : DecodeError) : InstrFormat fun _ => .error e
  | words {f : List Half → Instr} (h : ∀ xs, (f xs).blank = f [] ∧ (f xs).isMove = false) :
      InstrFormat fun xs => .ok (f xs)
  | operand {mode reg : BitVec 3} {sz : Size} (k : Nat) {f : List Half → Ea → Instr}
      (h : ∀ xs ea, (f xs ea).blank = f [] ea.blank ∧ (f xs ea).isMove = false) :
      InstrFormat fun xs => (decodeEa mode reg sz (xs.drop k)).map (f xs)
  | move (sz : Size) (r o m g : BitVec 3) : InstrFormat (candidateMove sz (.move sz) r o m g)

theorem InstrFormat.ite (c : Prop) [Decidable c] {F G : List Half → Except DecodeError Instr} (hF : InstrFormat F)
    (hG : InstrFormat G) : InstrFormat fun xs => if c then F xs else G xs := by
  by_cases h : c
  · simpa only [h, if_true] using hF
  · simpa only [h, if_false] using hG

theorem candidate0_format (r o m g : BitVec 3) : InstrFormat (candidate0 r o m g) :=
  .ite _ (.words fun _ => ⟨rfl, rfl⟩) <| .ite _ (.operand 1 fun _ _ => ⟨rfl, rfl⟩) <|
    .ite _ (.operand 0 fun _ _ => ⟨rfl, rfl⟩) (.refused _)

theorem candidateMovea_format (sz : Size) (r m g : BitVec 3) : InstrFormat (candidateMovea sz r m g) :=
  .operand 0 fun _ _ => ⟨rfl, rfl⟩

theorem candidate4_format (r o m g : BitVec 3) : InstrFormat (candidate4 r o m g) :=
  .ite _ (.words fun _ => ⟨rfl, rfl⟩) <| .ite _ (.words fun _ => ⟨rfl, rfl⟩) <|
    .ite _ (.operand 0 fun _ _ => ⟨rfl, rfl⟩) <| .ite _ (.operand 0 fun _ _ => ⟨rfl, rfl⟩) <|
    .ite _ (.operand 0 fun _ _ => ⟨rfl, rfl⟩) <| .ite _ (.operand 0 fun _ _ => ⟨rfl, rfl⟩) <|
    .ite _ (.operand 1 fun _ _ => ⟨rfl, rfl⟩) <| .ite _ (.operand 1 fun _ _ => ⟨rfl, rfl⟩) (.refused _)

theorem branchOf_blank (cc : BitVec 4) (d : BranchDisp) : (branchOf cc d).blank = branchOf cc d.blank := by
  simp only [branchOf, apply_ite Instr.blank]
  rfl

theorem branchOf_isMove (cc : BitVec 4) (d : BranchDisp) : (branchOf cc d).isMove = false := by
  simp only [branchOf, apply_ite Instr.isMove]
  simp only [Instr.isMove, ite_self]

theorem candidate6_format (cc : BitVec 4) (d8 : Byte) : InstrFormat (candidate6 cc d8) :=
  .ite _ (.words fun _ => ⟨branchOf_blank _ _, branchOf_isMove _ _⟩)
    (.words fun _ => ⟨branchOf_blank _ _, branchOf_isMove _ _⟩)

theorem candidateAlu_format {toD : Ea → DReg → Instr} {toEa : DReg → Ea → Instr}
    (hD : ∀ ea dx, (toD ea dx).blank = toD ea.blank dx ∧ (toD ea dx).isMove = false)
    (hE : ∀ dy ea, (toEa dy ea).blank = toEa dy ea.blank ∧ (toEa dy ea).isMove = false) (r o m g : BitVec 3) :
    InstrFormat (candidateAlu toD toEa r o m g) :=
  .ite _ (.operand 0 fun _ ea => hD ea _) <| .ite _ (.operand 0 fun _ ea => hE _ ea) (.refused _)

theorem candidateD_format (r o m g : BitVec 3) : InstrFormat (candidateD r o m g) :=
  .ite _ (.words fun _ => ⟨rfl, rfl⟩) <| .ite _ (.operand 0 fun _ _ => ⟨rfl, rfl⟩) <|
    candidateAlu_format (fun _ _ => ⟨rfl, rfl⟩) (fun _ _ => ⟨rfl, rfl⟩) r o m g

theorem candidateE_format (r o m g : BitVec 3) : InstrFormat fun _ => candidateE r o m g :=
  .ite _ (.words fun _ => ⟨rfl, rfl⟩) <| .ite _ (.words fun _ => ⟨rfl, rfl⟩) (.refused _)

/-- Every operation word selects a format (R74, R75). -/
theorem candidate_format (w : Half) : InstrFormat (candidate w) :=
  .ite _ (candidate0_format _ _ _ _) <| .ite _ (.move .b _ _ _ _) <|
    .ite _ (.ite _ (candidateMovea_format _ _ _ _) (.move .l _ _ _ _)) <|
    .ite _ (.ite _ (candidateMovea_format _ _ _ _) (.move .w _ _ _ _)) <|
    .ite _ (candidate4_format _ _ _ _) <| .ite _ (candidate6_format _ _) <|
    .ite _ (.ite _ (.refused _) (.words fun _ => ⟨rfl, rfl⟩)) <|
    .ite _ (candidateAlu_format (fun _ _ => ⟨rfl, rfl⟩) (fun _ _ => ⟨rfl, rfl⟩) _ _ _ _) <|
    .ite _ (.ite _ (.operand 0 fun _ _ => ⟨rfl, rfl⟩) (.refused _)) <|
    .ite _ (candidateAlu_format (fun _ _ => ⟨rfl, rfl⟩) (fun _ _ => ⟨rfl, rfl⟩) _ _ _ _) <|
    .ite _ (candidateD_format _ _ _ _) <| .ite _ (candidateE_format _ _ _ _) (.refused _)

/-- Blanking what a format reads gives what it reads where there are no words. -/
theorem InstrFormat.map_blank {F : List Half → Except DecodeError Instr} (hF : InstrFormat F) (xs : List Half) :
    (F xs).map Instr.blank = F [] := by
  cases hF with
  | refused e => rfl
  | words h => exact congrArg _ (h xs).1
  | @operand mode reg sz k f h =>
    simp only [List.drop_nil, ← decodeEa_blank mode reg sz (xs.drop k)]
    cases decodeEa mode reg sz (xs.drop k) with
    | error e => rfl
    | ok ea => exact congrArg _ (h xs ea).1
  | move sz r o m g =>
    simp only [candidateMove, List.drop_nil, ← decodeEa_blank m g sz xs]
    cases decodeEa m g sz xs with
    | error e => rfl
    | ok src =>
      simp only [Except.map, ← decodeEa_blank o r sz (xs.drop (src.words sz))]
      cases decodeEa o r sz (xs.drop (src.words sz)) with
      | error e => rfl
      | ok dst => exact congrArg _ (Instr.blank_move sz src dst)

/-- Only MOVE's format reads a MOVE. -/
theorem InstrFormat.eq_move {F : List Half → Except DecodeError Instr} (hF : InstrFormat F) {xs : List Half} {sz : Size}
    {src dst : Ea} (h : F xs = .ok (.move sz src dst)) :
    ∃ r o m g, F = candidateMove sz (.move sz) r o m g := by
  cases hF with
  | refused e => cases h
  | words hf =>
    have hn := (hf xs).2
    rw [Except.ok.inj h, Instr.isMove_move] at hn
    cases hn
  | @operand mode reg sz' k f hf =>
    replace h : (decodeEa mode reg sz' (xs.drop k)).map (f xs) = .ok (.move sz src dst) := h
    cases he : decodeEa mode reg sz' (xs.drop k) with
    | error e => rw [he] at h; cases h
    | ok ea =>
      have hn := (hf xs ea).2
      rw [he] at h
      rw [Except.ok.inj h, Instr.isMove_move] at hn
      cases hn
  | move sz' r o m g =>
    obtain ⟨src', dst', _, _, he⟩ := candidateMove_eq_ok h
    obtain ⟨rfl, _⟩ := Instr.move_inj he
    exact ⟨r, o, m, g, rfl⟩

/-! ### What the decoder answers -/

/-- The decoder answers with the row the operation word matches, where its modes, its length and its operand words are
allowed. -/
theorem decode_eq_ok {w : Half} {xs : List Half} {i : Instr} :
    decode w xs = .ok i ↔ candidate w xs = .ok i ∧ i.modesOk = true ∧ i.words ≤ 3 ∧ i.operandError = none := by
  constructor
  · intro h
    simp only [decode] at h
    split at h
    · cases h
    split_ifs at h with hm hw
    split at h
    · cases h
    cases h
    exact ⟨‹_›, by simpa using hm, by omega, ‹_›⟩
  · rintro ⟨hc, hm, hw, he⟩
    simp [decode, hc, hm, he, Nat.not_lt.mpr hw]

/-- Where words after an operation word make it an instruction, the operation word alone is that instruction with
operand words of zero (R68). -/
theorem decode_nil {w : Half} {xs : List Half} {i : Instr} (h : decode w xs = .ok i) : decode w [] = .ok i.blank := by
  rw [decode_eq_ok] at h ⊢
  obtain ⟨hc, hm, hw, _⟩ := h
  have hb := (candidate_format w).map_blank xs
  rw [hc] at hb
  exact ⟨hb.symm, by simpa using hm, by simpa using hw, Instr.blank_operandError i⟩

/-- The words of a MOVE's source make the MOVE with a blank destination, and the words after them are the destination's
(R67). -/
theorem decode_move {w : Half} {xs ys : List Half} {sz : Size} {src dst : Ea}
    (h : decode w (xs ++ ys) = .ok (.move sz src dst)) (hl : xs.length = src.words sz) :
    decode w xs = .ok (.move sz src dst.blank) ∧ decodeEa dst.mode dst.reg sz ys = .ok dst := by
  rw [decode_eq_ok] at h
  obtain ⟨hc, hm, hw, he⟩ := h
  obtain ⟨r, o, m, g, hF⟩ := (candidate_format w).eq_move hc
  rw [hF] at hc
  obtain ⟨src', dst', hs, hd, hi⟩ := candidateMove_eq_ok hc
  obtain ⟨_, rfl, rfl⟩ := Instr.move_inj hi
  rw [List.drop_left' hl] at hd
  obtain ⟨hmode, hreg, _⟩ := decodeEa_eq_ok hd
  refine ⟨decode_eq_ok.mpr ⟨?_, by simpa using hm, by simpa using hw, by simpa using he⟩, by rwa [hmode, hreg]⟩
  rw [hF, candidateMove, decodeEa_append hs hl.ge]
  simp only [← hl, List.drop_length, ← decodeEa_blank o r sz ys, hd]
  rfl

theorem Instr.words_pos (i : Instr) : 0 < i.words := by
  cases i <;> simp only [Instr.words] <;> omega

/-- What is read from words is read from the first of them and the words after it, of which there are enough. -/
theorem decodeWords_eq_ok {ws rest : List Half} {i : Instr} (h : decodeWords ws = .ok (i, rest)) :
    ∃ w xs, ws = w :: xs ∧ decode w xs = .ok i ∧ i.words ≤ xs.length + 1 ∧ rest = xs.drop (i.words - 1) := by
  cases ws with
  | nil => cases h
  | cons w xs =>
    simp only [decodeWords] at h
    split at h
    · cases h
    rename_i j hj
    split_ifs at h with hlen
    obtain ⟨rfl, rfl⟩ := Prod.mk.inj (Except.ok.inj h)
    exact ⟨w, xs, rfl, hj, by omega, rfl⟩

end Sys2Proof
end

section
/-! ### A fetch from plain memory (R41, R206) -/

namespace Sys2Proof.Machine

/-- Two runs of addresses, one after the other. -/
theorem byteAddrs_add (a : Word) (m n : Nat) :
    byteAddrs a (m + n) = byteAddrs a m ++ byteAddrs (a + BitVec.ofNat 32 m) n := by
  induction m generalizing a with
  | zero => simp [byteAddrs]
  | succ m ih =>
    rw [Nat.add_right_comm, byteAddrs, ih, byteAddrs, BitVec.add_assoc, Nat.add_comm m 1, BitVec.ofNat_add]
    rfl

/-- Whole words stay whole where the bytes after them are split off. -/
theorem halvesOfBytes_append {xs : List Byte} {n : Nat} (h : xs.length = 2 * n) (ys : List Byte) :
    halvesOfBytes (xs ++ ys) = halvesOfBytes xs ++ halvesOfBytes ys := by
  induction xs using halvesOfBytes.induct generalizing n with
  | case1 hi lo rest ih =>
    have hl : rest.length = 2 * (n - 1) := by
      simp only [List.length_cons] at h
      omega
    simp only [List.cons_append, halvesOfBytes, ih hl]
  | case2 xs hx =>
    match xs, h, hx with
    | [], _, _ => rfl
    | [_], h, _ => simp only [List.length_singleton] at h; omega
    | hi :: lo :: rest, _, hx => exact absurd rfl (hx hi lo rest)

/-- The bytes at pc are the operation word and the words after it (R60). -/
theorem halvesOfBytes_pc (s : State) (n : Nat) :
    halvesOfBytes ((byteAddrs s.pc (2 + n)).map fun x => s.byteAt x.toNat) = opWordAt s :: extWordsAt s n := by
  rw [byteAddrs_add]
  rfl

/-- The words after the operation word, cut after the first `k`. -/
theorem extWordsAt_add (s : State) (k l : Nat) :
    extWordsAt s (2 * (k + l)) = extWordsAt s (2 * k) ++
      halvesOfBytes ((byteAddrs (s.pc + 2 + BitVec.ofNat 32 (2 * k)) (2 * l)).map fun x => s.byteAt x.toNat) := by
  rw [extWordsAt, extWordsAt, Nat.mul_add, byteAddrs_add, List.map_append]
  exact halvesOfBytes_append (by rw [List.length_map, byteAddrs_length]) _

theorem extWordsAt_length (s : State) (k : Nat) : (extWordsAt s (2 * k)).length = k := by
  rw [extWordsAt, halvesOfBytes_length, List.length_map, byteAddrs_length]
  omega

/-- Plain bytes, cut after the first `m`. -/
theorem plainBytes_add {s : State} {a : Word} {m n : Nat} (h : PlainBytes s a (m + n)) :
    PlainBytes s a m ∧ PlainBytes s (a + BitVec.ofNat 32 m) n := by
  rw [PlainBytes, byteAddrs_add] at h
  exact ⟨fun x hx => h x (List.mem_append_left _ hx), fun x hx => h x (List.mem_append_right _ hx)⟩

@[simp] theorem earlyWords_blank (i : Instr) : earlyWords i.blank = earlyWords i := by
  cases i <;> simp [Instr.blank, earlyWords, Instr.words]

@[simp] theorem earlyWords_move (sz : Size) (src dst : Ea) : earlyWords (.move sz src dst) = src.words sz := by
  cases sz <;> rfl

theorem earlyWords_of_not_move {i : Instr} (h : i.isMove = false) : earlyWords i = i.words - 1 := by
  cases i with
  | moveB | moveL | moveW => cases h
  | _ => rfl

theorem runFetched_of_not_move {i : Instr} (h : i.isMove = false) (s : State) : runFetched i s = exec i s := by
  cases i with
  | moveB | moveL | moveW => cases h
  | _ => rfl

theorem runFetched_move (sz : Size) (src dst : Ea) (s : State) :
    runFetched (.move sz src dst) s = runMove sz src dst s := by cases sz <;> rfl

theorem exec_move (sz : Size) (src dst : Ea) (s : State) :
    exec (.move sz src dst) s = finish (1 + src.words sz + dst.words sz) (moveBody sz src dst (.ok dst) s) := by
  cases sz <;> rfl

@[simp] theorem baseIsAlsoData_blank (src dst : Ea) : baseIsAlsoData src dst.blank = baseIsAlsoData src dst := by
  cases src <;> cases dst <;> rfl

/-- Where the early words stand in plain memory, the fetch answers with what they decode to and changes nothing (R41,
R206). -/
theorem fetchInstr_plain {s : State} {i : Instr} (heven : s.pc.getLsbD 0 = false)
    (hp : PlainBytes s s.pc (2 + 2 * earlyWords i))
    (hd : decode (opWordAt s) (extWordsAt s (2 * earlyWords i)) = .ok i) (htop : s.pc.toNat + 2 * i.words ≤ 2 ^ 32) :
    fetchInstr s = .ok i s := by
  obtain ⟨hop, hext⟩ := plainBytes_add hp
  have hw : (valueAt s s.pc 2).setWidth 16 = opWordAt s := fetched_half s s.pc
  have hf : fetchExts (earlyWords i) s.ext s = ⟨extWordsAt s (2 * earlyWords i), none, s⟩ := fetchExts_plain hext
  have ht : ¬2 ^ 32 < s.pc.toNat + 2 * i.words := by omega
  simp only [fetchInstr, heven, readFault_plain hop, readValue_plain hop, hw, decode_nil hd, Instr.blank_words,
    earlyWords_blank, ht, hf, hd, if_false, Bool.false_eq_true]

/-- An instruction of plain memory runs as `exec` runs it, whether its words are fetched at once or, a MOVE's
destination's, on the way (R11, R206). -/
theorem step_plain {s : State} {i : Instr} (hrun : s.status = .running) (hrec : s.faultRecord = none)
    (heven : s.pc.getLsbD 0 = false) (hp : PlainBytes s s.pc (2 + 2 * (i.words - 1)))
    (hd : decode (opWordAt s) (extWordsAt s (2 * (i.words - 1))) = .ok i)
    (htop : s.pc.toNat + 2 * i.words ≤ 2 ^ 32) : step s = exec i s := by
  cases hm : i.isMove with
  | false =>
    rw [← earlyWords_of_not_move hm] at hp hd
    simp only [step, hrun, hrec, fetchInstr_plain heven hp hd htop, runFetched_of_not_move hm]
  | true =>
    obtain ⟨sz, src, dst, rfl⟩ := Instr.exists_move hm
    have hn : (Instr.move sz src dst).words - 1 = src.words sz + dst.words sz := by
      rw [Instr.words_move]
      omega
    rw [hn, extWordsAt_add] at hd
    rw [hn, Nat.mul_add, ← Nat.add_assoc] at hp
    obtain ⟨hearly, hlate⟩ := plainBytes_add hp
    obtain ⟨hd0, hdst⟩ := decode_move hd (extWordsAt_length s _)
    have hf : fetchInstr s = .ok (.move sz src dst.blank) s :=
      fetchInstr_plain heven (by simpa using hearly) (by simpa using hd0) (by simpa using htop)
    rw [BitVec.ofNat_add, ← BitVec.add_assoc] at hlate
    have hr : runMove sz src dst.blank s = exec (.move sz src dst) s := by
      rw [exec_move]
      exact runMove_plain (baseIsAlsoData_blank src dst) (dst.blank_words sz) hlate (by simpa using hdst)
    simp only [step, hrun, hrec, hf, runFetched_move, hr]

/-- Bytes that hold one instruction and nothing more are as many as its words say, and it is read from them. -/
theorem decodeBytes_eq_ok_nil {bs : List Byte} {i : Instr} (h : decodeBytes bs = .ok (i, [])) :
    bs.length = 2 + 2 * (i.words - 1) ∧ ∃ w xs, halvesOfBytes bs = w :: xs ∧ decode w xs = .ok i := by
  simp only [decodeBytes] at h
  split at h
  · cases h
  rename_i j rest hj
  obtain ⟨rfl, hdrop⟩ := Prod.mk.inj (Except.ok.inj h)
  obtain ⟨w, xs, hbs, hd, hle, _⟩ := decodeWords_eq_ok hj
  have hlen : bs.length / 2 = xs.length + 1 := by rw [← halvesOfBytes_length, hbs, List.length_cons]
  have hpos := j.words_pos
  have hall := List.drop_eq_nil_iff.mp hdrop
  exact ⟨by omega, w, xs, hbs, hd⟩

/-- Settles O7: the bytes at pc are the words that the step fetches. -/
theorem stepRunsDecodedInstruction : Obligations.StepRunsDecodedInstruction := by
  intro s bs i hrun hrec heven htop hp hbs hd
  obtain ⟨hl, w, xs, hw, hi⟩ := decodeBytes_eq_ok_nil hd
  rw [hl] at hp htop hbs
  rw [← hbs, halvesOfBytes_pc] at hw
  obtain ⟨rfl, rfl⟩ := List.cons.inj hw
  exact step_plain hrun hrec heven hp hi (by omega)
end Sys2Proof.Machine
end

section
/-! ### What a step can do: complete an instruction, or take an exception (R11, R200, R206) -/

namespace Sys2Proof.Machine

theorem Done.of_quiet {i : Instr} {s s' t : State} (hq : Quiet s s') (hd : Done i s' t) : Done i s t where
  mem := hq.mem.trans hd.mem
  sr := hd.sr.trans hq.sr
  status := hd.status.imp_left fun h => h.trans hq.status
  faultRecord := hd.faultRecord.trans hq.faultRecord

/-- A next state is the end of an instruction that completed, or the entry of an exception raised before any flag was
written. -/
theorem deliver_next_cases {i : Instr} {s t : State} {r : Res Unit} (hr : r.Post (fun _ => Done i s) (Quiet s))
    (h : deliver r = .next t) : Done i s t ∨ ∃ c u, Quiet s u ∧ takeException c u = .next t := by
  obtain rfl | ⟨c, u, rfl, hc⟩ := deliver_next h
  · exact .inl hr
  · exact .inr ⟨c, u, hr, hc⟩

/-- A fault is that of an exception raised before any flag was written. -/
theorem deliver_fault_cases {s : State} {r : Res Unit} {P : Unit → State → Prop} {f : Fault} (hr : r.Post P (Quiet s))
    (h : deliver r = .fault f) : ∃ c u, Quiet s u ∧ takeException c u = .fault f := by
  obtain ⟨c, u, rfl, hc⟩ := deliver_fault h
  exact ⟨c, u, hr, hc⟩

theorem exec_next {i : Instr} {s t : State} (h : exec i s = .next t) :
    Done i s t ∨ ∃ c u, Quiet s u ∧ takeException c u = .next t := by
  obtain ⟨r, he, hr⟩ := exec_outcome i s
  exact deliver_next_cases hr (he ▸ h)

theorem step_of_fetched {s s' : State} {i : Instr} (hrun : s.status = .running) (hrec : s.faultRecord = none)
    (h : fetchInstr s = .ok i s') : step s = runFetched i s' := by simp only [step, hrun, hrec, h]

theorem step_of_fetch_raised {s s' : State} {c : Cause} (hrun : s.status = .running) (hrec : s.faultRecord = none)
    (h : fetchInstr s = .raise c s') : step s = takeException c s' := by simp only [step, hrun, hrec, h]

theorem step_of_fetch_refused {s : State} {r : Refusal} (hrun : s.status = .running) (hrec : s.faultRecord = none)
    (h : fetchInstr s = .refuse r) : step s = .refused r := by simp only [step, hrun, hrec, h]

/-- Only a machine that runs, with no fault recorded, answers anything but a fault of its own name (R186, R200,
R217). -/
theorem running_of_step {s : State}
    (h : (∃ t, step s = .next t) ∨ ∃ r t, step s = .fault (.exception r t)) :
    s.status = .running ∧ s.faultRecord = none := by
  cases hs : s.status with
  | running =>
    cases hf : s.faultRecord with
    | none => exact ⟨rfl, rfl⟩
    | some r => simp [step, hs, hf] at h
  | halted => simp [step, hs] at h
  | faultOnFault => simp [step, hs] at h

/-- A step to a next state has fetched an instruction and completed it, or has entered an exception. -/
theorem step_next {s t : State} (h : step s = .next t) :
    (∃ i s', fetchInstr s = .ok i s' ∧ Done i s t) ∨ ∃ c u, Quiet s u ∧ takeException c u = .next t := by
  obtain ⟨hrun, hrec⟩ := running_of_step (.inl ⟨t, h⟩)
  have hf := fetchInstr_frame s
  cases hi : fetchInstr s with
  | ok i s' =>
    rw [hi] at hf
    have hq : Quiet s s' := AccessFrame.quiet hf
    obtain ⟨r, hr, hp⟩ := runFetched_outcome i s'
    rw [step_of_fetched hrun hrec hi, hr] at h
    obtain hd | ⟨c, u, hu, hc⟩ := deliver_next_cases hp h
    · exact .inl ⟨i, s', rfl, hd.of_quiet hq⟩
    · exact .inr ⟨c, u, hq.trans hu, hc⟩
  | raise c u =>
    rw [hi] at hf
    exact .inr ⟨c, u, AccessFrame.quiet hf, step_of_fetch_raised hrun hrec hi ▸ h⟩
  | refuse r =>
    rw [step_of_fetch_refused hrun hrec hi] at h
    cases h

/-- A step that ends in a recorded exception takes it before any flag is written (R208). -/
theorem step_fault {s t : State} {r : FaultRecord} (h : step s = .fault (.exception r t)) :
    ∃ c u, Quiet s u ∧ takeException c u = .fault (.exception r t) := by
  obtain ⟨hrun, hrec⟩ := running_of_step (.inr ⟨r, t, h⟩)
  have hf := fetchInstr_frame s
  cases hi : fetchInstr s with
  | ok i s' =>
    rw [hi] at hf
    obtain ⟨r', hr, hp⟩ := runFetched_outcome i s'
    rw [step_of_fetched hrun hrec hi, hr] at h
    obtain ⟨c, u, hu, hc⟩ := deliver_fault_cases hp h
    exact ⟨c, u, (AccessFrame.quiet hf).trans hu, hc⟩
  | raise c u =>
    rw [hi] at hf
    exact ⟨c, u, AccessFrame.quiet hf, step_of_fetch_raised hrun hrec hi ▸ h⟩
  | refuse e =>
    rw [step_of_fetch_refused hrun hrec hi] at h
    cases h

/-- What a step to a next state leaves of memory and parameters. -/
theorem step_next_memFrame {s t : State} (h : step s = .next t) : MemFrame s t := by
  obtain ⟨_, _, _, hd⟩ | ⟨c, u, hu, hc⟩ := step_next h
  · exact hd.mem
  · obtain ⟨_, hm, _⟩ := takeException_next hc
    exact hu.mem.trans hm

/-- A faulted state differs from the one the exception was raised in by the record alone (R200). -/
theorem step_fault_memFrame {s t : State} {r : FaultRecord} (h : step s = .fault (.exception r t)) : MemFrame s t := by
  obtain ⟨c, u, hu, hc⟩ := step_fault h
  obtain ⟨_, hf⟩ := takeException_fault hc
  cases hf
  exact hu.mem.trans (MemFrame.of_eq rfl rfl rfl rfl rfl)

/-! ### The invariant -/

/-- The invariant speaks of memory and the vector base register as `MemFrame` does, and of two bits of the status
register. -/
theorem Inv.of_memFrame {s t : State} (hi : Inv s) (hm : MemFrame s t) (hs : t.sr.s = true) (ht : t.sr.t = false) :
    Inv t where
  mem := hm.wf hi.mem
  range := by
    rw [hm.params]
    exact hm.range hi.range
  supervisor := hs
  trace := ht
  vbr := by
    rw [hm.vbr]
    exact hi.vbr

/-- Settles O14: an instruction leaves the status register's high byte, and an exception entry sets it as the invariant
asks. -/
theorem stepKeepsInv : Obligations.StepKeepsInv := by
  intro s t hi h
  have hmode : t.sr.s = true ∧ t.sr.t = false := by
    obtain ⟨_, _, _, hd⟩ | ⟨c, u, _, hc⟩ := step_next h
    · rw [hd.sr]
      exact ⟨hi.supervisor, hi.trace⟩
    · obtain ⟨_, _, _, _, hsr, _⟩ := takeException_next hc
      rw [hsr]
      exact ⟨rfl, rfl⟩
  exact hi.of_memFrame (step_next_memFrame h) hmode.1 hmode.2

/-- Settles O15: both kinds of outcome are within `MemFrame`. -/
theorem stepKeepsProgramText : Obligations.StepKeepsProgramText := by
  intro s t h
  have hm : MemFrame s t := by
    obtain h | ⟨r, h⟩ := h
    · exact step_next_memFrame h
    · exact step_fault_memFrame h
  exact ⟨hm.params, hm.vbr, hm.log, hm.draws, hm.bytes⟩

/-- Settles O13: after reset no byte is listed, and the launch premises name each part of the invariant. -/
theorem resetMeetsInv : Obligations.ResetMeetsInv := by
  refine ⟨⟨reset_mem_wf, nofun, rfl, rfl, by decide⟩, fun s hs => ?_⟩
  have hsr := hs.status_register
  refine ⟨hs.mem_canonical, hs.mem_in_range, by rw [hsr], by rw [hsr], ?_⟩
  rw [hs.vector_base]
  rfl

/-! ### Refusals before the extension words are fetched (R24, R80, R206) -/

/-- From plain memory the operation word is fetched with no change of state, and decoded before any other word is
read. -/
theorem fetchInstr_opWord {s : State} (heven : s.pc.getLsbD 0 = false) (hp : PlainBytes s s.pc 2) :
    (∀ e, decode (opWordAt s) [] = .error e → fetchInstr s = .refuse (.encoding e)) ∧
      ∀ i, decode (opWordAt s) [] = .ok i → 2 ^ 32 < s.pc.toNat + 2 * i.words → fetchInstr s = .refuse .wrapAround := by
  have hw : (valueAt s s.pc 2).setWidth 16 = opWordAt s := fetched_half s s.pc
  constructor
  · intro e he
    simp only [fetchInstr, heven, readFault_plain hp, readValue_plain hp, hw, he, Bool.false_eq_true, if_false]
  · intro i hi htop
    simp only [fetchInstr, heven, readFault_plain hp, readValue_plain hp, hw, hi, htop, Bool.false_eq_true, if_false,
      if_true]

/-- Settles O11: the fetch refuses on the operation word alone. -/
theorem refusedFetches : Obligations.RefusedFetches := by
  intro s hrun hrec heven hp
  obtain ⟨herr, htop⟩ := fetchInstr_opWord heven hp
  exact ⟨fun e he => step_of_fetch_refused hrun hrec (herr e he),
    fun i hi hw => step_of_fetch_refused hrun hrec (htop i hi hw)⟩

end Sys2Proof.Machine
end

section
/-! ### The one word that reads as HALT (R73, R186) -/

namespace Sys2Proof

theorem ite_eq_halt {c P : Prop} [Decidable c] {x y : Except DecodeError Instr} (hx : c → x = .ok .halt → P)
    (hy : y = .ok .halt → P) : (if c then x else y) = .ok .halt → P := by
  split_ifs with h
  · exact hx h
  · exact hy

theorem map_ne_halt {mode reg : BitVec 3} {sz : Size} {xs : List Half} {f : Ea → Instr} (hf : ∀ ea, f ea ≠ .halt) :
    (decodeEa mode reg sz xs).map f ≠ .ok .halt := by
  cases decodeEa mode reg sz xs with
  | error e => nofun
  | ok ea => exact fun h => hf ea (Except.ok.inj h)

theorem candidate0_ne_halt (r o m g : BitVec 3) (xs : List Half) : candidate0 r o m g xs ≠ .ok .halt :=
  ite_eq_halt (fun _ => nofun) <| ite_eq_halt (fun _ => map_ne_halt fun _ => by nofun) <|
    ite_eq_halt (fun _ => map_ne_halt fun _ => by nofun) nofun

theorem candidateMove_ne_halt (sz : Size) (r o m g : BitVec 3) (xs : List Half) :
    candidateMove sz (.move sz) r o m g xs ≠ .ok .halt := by
  intro h
  obtain ⟨src, dst, _, _, hi⟩ := candidateMove_eq_ok h
  have hm := Instr.isMove_move sz src dst
  rw [← hi] at hm
  cases hm

theorem candidate4_eq_halt {r o m g : BitVec 3} {xs : List Half} :
    candidate4 r o m g xs = .ok .halt → r = 5 ∧ o = 3 ∧ m = 1 ∧ g = 0 :=
  ite_eq_halt (fun _ => nofun) <| ite_eq_halt (fun h _ => h) <|
    ite_eq_halt (fun _ => (map_ne_halt fun _ => by nofun).elim) <|
    ite_eq_halt (fun _ => (map_ne_halt fun _ => by nofun).elim) <|
    ite_eq_halt (fun _ => (map_ne_halt fun _ => by nofun).elim) <|
    ite_eq_halt (fun _ => (map_ne_halt fun _ => by nofun).elim) <|
    ite_eq_halt (fun _ => (map_ne_halt fun _ => by nofun).elim) <|
    ite_eq_halt (fun _ => (map_ne_halt fun _ => by nofun).elim) nofun

theorem branchOf_ne_halt (cc : BitVec 4) (d : BranchDisp) : branchOf cc d ≠ .halt := by
  simp only [branchOf, ne_eq, apply_ite (· = Instr.halt), reduceCtorEq, ite_self, not_false_eq_true]

theorem candidate6_ne_halt (cc : BitVec 4) (d8 : Byte) (xs : List Half) : candidate6 cc d8 xs ≠ .ok .halt :=
  ite_eq_halt (fun _ h => branchOf_ne_halt _ _ (Except.ok.inj h)) fun h => branchOf_ne_halt _ _ (Except.ok.inj h)

theorem candidateAlu_ne_halt {toD : Ea → DReg → Instr} {toEa : DReg → Ea → Instr} (hD : ∀ ea dx, toD ea dx ≠ .halt)
    (hE : ∀ dy ea, toEa dy ea ≠ .halt) (r o m g : BitVec 3) (xs : List Half) :
    candidateAlu toD toEa r o m g xs ≠ .ok .halt :=
  ite_eq_halt (fun _ => map_ne_halt fun ea => hD ea _) <| ite_eq_halt (fun _ => map_ne_halt fun ea => hE _ ea) nofun

theorem candidateD_ne_halt (r o m g : BitVec 3) (xs : List Half) : candidateD r o m g xs ≠ .ok .halt :=
  ite_eq_halt (fun _ => nofun) <| ite_eq_halt (fun _ => map_ne_halt fun _ => by nofun) <|
    candidateAlu_ne_halt (fun _ _ => by nofun) (fun _ _ => by nofun) r o m g xs

theorem candidateE_ne_halt (r o m g : BitVec 3) : candidateE r o m g ≠ .ok .halt :=
  ite_eq_halt (fun _ => nofun) <| ite_eq_halt (fun _ => nofun) nofun

/-- HALT is one word, all of whose bits are fixed. -/
theorem candidate_eq_halt {w : Half} {xs : List Half} : candidate w xs = .ok .halt → w = 0x4AC8 := by
  have h4 (htop : w.extractLsb' 12 4 = 4) (h : candidate4 (w.extractLsb' 9 3) (w.extractLsb' 6 3) (w.extractLsb' 3 3)
      (w.extractLsb' 0 3) xs = .ok .halt) : w = 0x4AC8 := by
    obtain ⟨hr, ho, hm, hg⟩ := candidate4_eq_halt h
    rw [← opWord_eta w, htop, hr, ho, hm, hg]
    rfl
  exact
    ite_eq_halt (fun _ => (candidate0_ne_halt _ _ _ _ _).elim) <|
    ite_eq_halt (fun _ => (candidateMove_ne_halt .b _ _ _ _ _).elim) <|
    ite_eq_halt (fun _ => ite_eq_halt (fun _ => (map_ne_halt fun _ => by nofun).elim)
      (candidateMove_ne_halt .l _ _ _ _ _).elim) <|
    ite_eq_halt (fun _ => ite_eq_halt (fun _ => (map_ne_halt fun _ => by nofun).elim)
      (candidateMove_ne_halt .w _ _ _ _ _).elim) <|
    ite_eq_halt h4 <| ite_eq_halt (fun _ => (candidate6_ne_halt _ _ _).elim) <|
    ite_eq_halt (fun _ => ite_eq_halt (fun _ => nofun) nofun) <|
    ite_eq_halt (fun _ => (candidateAlu_ne_halt (fun _ _ => by nofun) (fun _ _ => by nofun) _ _ _ _ _).elim) <|
    ite_eq_halt (fun _ => ite_eq_halt (fun _ => (map_ne_halt fun _ => by nofun).elim) nofun) <|
    ite_eq_halt (fun _ => (candidateAlu_ne_halt (fun _ _ => by nofun) (fun _ _ => by nofun) _ _ _ _ _).elim) <|
    ite_eq_halt (fun _ => (candidateD_ne_halt _ _ _ _ _).elim) <|
    ite_eq_halt (fun _ => (candidateE_ne_halt _ _ _ _).elim) nofun

end Sys2Proof
end

section
/-! ### The status register's high byte and the run status -/

namespace Sys2Proof.Machine

/-- An instruction fetched through plain memory was decoded from the word that stands at pc (R41). -/
theorem fetchInstr_decodes {s s' : State} {i : Instr} (h : fetchInstr s = .ok i s') (hp : PlainBytes s s.pc 2) :
    ∃ xs, decode (opWordAt s) xs = .ok i := by
  have hw : (valueAt s s.pc 2).setWidth 16 = opWordAt s := fetched_half s s.pc
  simp only [fetchInstr, readFault_plain hp, readValue_plain hp, hw] at h
  split at h
  · cases h
  split at h
  · cases h
  split at h
  · cases h
  split at h
  · cases h
  · rename_i j hj
    split at h
    · cases h
      exact ⟨_, hj⟩
    · cases h

/-- What an instruction that completes, or the entry of an exception it raised, makes of a machine that runs: the
status register's high byte and the run status. -/
theorem modes_of_next {s t : State} {p : Prop} (hrun : s.status = .running)
    (h : (∃ i, Done i s t ∧ (i = .halt → p)) ∨ ∃ c u, Quiet s u ∧ takeException c u = .next t) :
    (t.sr = s.sr ∨ s.params.trapModel = .vectored ∧ t.sr = { s.sr with s := true, t := false }) ∧
      (t.status = .halted → p) ∧ (t.status = .faultOnFault → s.params.trapModel = .vectored) := by
  obtain ⟨i, hd, hp⟩ | ⟨c, u, hu, hc⟩ := h
  · refine ⟨.inl hd.sr, fun ht => ?_, fun ht => ?_⟩
    · obtain hs | ⟨hi, _⟩ := hd.status
      · rw [ht, hrun] at hs
        cases hs
      · exact hp hi
    · obtain hs | ⟨_, hs⟩ := hd.status <;> rw [ht] at hs
      · rw [hrun] at hs
        cases hs
      · cases hs
  · obtain ⟨hv, _, _, _, hsr, hst, _⟩ := takeException_next hc
    rw [hu.mem.params] at hv
    rw [hu.sr] at hsr
    refine ⟨.inr ⟨hv, hsr⟩, fun ht => ?_, fun _ => hv⟩
    rw [ht, hu.status, hrun] at hst
    obtain hst | hst := hst <;> cases hst

/-- Settles O16: the high byte changes by an exception's entry alone, and the word fetched for HALT is HALT's. -/
theorem modeChangesOnlyByException : Obligations.ModeChangesOnlyByException := by
  intro s t hrun
  constructor
  · intro i h
    exact modes_of_next hrun ((exec_next h).imp_left fun hd => ⟨i, hd, id⟩)
  · intro h
    refine modes_of_next hrun ((step_next h).imp_left ?_)
    rintro ⟨i, s', hf, hd⟩
    refine ⟨i, hd, ?_⟩
    rintro rfl hp
    obtain ⟨xs, hx⟩ := fetchInstr_decodes hf hp
    exact candidate_eq_halt (decode_eq_ok.mp hx).1

end Sys2Proof.Machine
end

section
namespace Sys2Proof

/-- CLR at a size (R157). -/
def Instr.clr : Size → Ea → Instr
  | .b => .clrB
  | .w => .clrW
  | .l => .clrL

end Sys2Proof

/-! ### A result at its size (R28) -/

namespace Sys2Proof.Machine

theorem replaceLow_getLsbD {m n k : Nat} (old v : Word) (hk : k < m + n) :
    (old.extractLsb' n m ++ v.setWidth n).getLsbD k = if k < n then v.getLsbD k else old.getLsbD k := by
  rw [BitVec.getLsbD_append]
  by_cases h : k < n
  · simp [h]
  · have hm : k - n < m := by omega
    simp [h, hm, Nat.add_sub_cancel' (Nat.le_of_not_lt h)]

/-- A value written to a register: its own bits below the size, the register's above (R28). -/
theorem merge_getLsbD (sz : Size) (old v : Word) {k : Nat} (hk : k < 32) :
    (merge sz old v).getLsbD k = if k < sz.bits then v.getLsbD k else old.getLsbD k := by
  cases sz with
  | b => exact replaceLow_getLsbD old v hk
  | w => exact replaceLow_getLsbD old v hk
  | l => rw [merge, Size.bits, if_pos hk]

/-- The bits from the size on are the register's. -/
theorem merge_getLsbD_high {sz : Size} {k : Nat} (hk : sz.bits ≤ k) (old v : Word) :
    (merge sz old v).getLsbD k = old.getLsbD k := by
  by_cases h : k < 32
  · rw [merge_getLsbD sz old v h, if_neg (by omega)]
  · rw [BitVec.getLsbD_of_ge _ _ (by omega), BitVec.getLsbD_of_ge _ _ (by omega)]

theorem merge_setWidth (sz : Size) (old v : Word) : (merge sz old v).setWidth sz.bits = v.setWidth sz.bits := by
  have hbits : sz.bits ≤ 32 := by cases sz <;> decide
  apply BitVec.eq_of_getLsbD_eq
  intro k hk
  rw [BitVec.getLsbD_setWidth, BitVec.getLsbD_setWidth, merge_getLsbD sz old v (by omega), if_pos hk]

/-- A zero written to a register is a mask of the bits above the size. -/
theorem merge_zero {sz : Size} {mask : Word} (hmask : ∀ k < 32, mask.getLsbD k = decide (sz.bits ≤ k)) (old : Word) :
    merge sz old 0 = old &&& mask := by
  apply BitVec.eq_of_getLsbD_eq
  intro k hk
  rw [merge_getLsbD sz old 0 hk, BitVec.getLsbD_and, hmask k hk]
  by_cases h : k < sz.bits
  · simp [h]
  · simp [h, Nat.le_of_not_lt h]

theorem trunc_setWidth (sz : Size) (v : Word) : (trunc sz v).setWidth sz.bits = v.setWidth sz.bits := by
  cases sz with
  | b | w => simp only [trunc, Size.bits]; bv_omega
  | l => rfl

/-- The flags of a value at its size, read from the register it came from. -/
theorem ccrLogic_trunc (old : Ccr) (sz : Size) (v : Word) :
    ccrLogic old sz (trunc sz v) = ⟨old.x, signBit sz v, v.setWidth sz.bits == 0#sz.bits, false, false⟩ := by
  have hz : (trunc sz v == 0) = (v.setWidth sz.bits == 0#sz.bits) := by
    rw [Bool.eq_iff_iff, beq_iff_eq, beq_iff_eq]
    cases sz with
    | b | w => simp only [trunc, Size.bits]; bv_omega
    | l => simp [Size.bits]
  have hn : signBit sz (trunc sz v) = signBit sz v := by cases sz <;> simp [signBit, Size.bits, trunc]
  rw [ccrLogic, hz, hn]

@[simp] theorem ccrLogic_zero (old : Ccr) (sz : Size) : ccrLogic old sz 0 = ⟨old.x, false, true, false, false⟩ := by
  cases sz <;> rfl

/-! ### MOVE (R119, R151) -/

/-- R120 speaks of one address register in both operands. -/
theorem baseIsAlsoData_eq_false {src dst : Ea} (h : ∀ n, src = .areg n → dst ≠ .postinc n ∧ dst ≠ .predec n) :
    baseIsAlsoData src dst = false := by
  cases src with
  | areg n =>
    obtain ⟨hpost, hpre⟩ := h n rfl
    cases dst with
    | postinc m => exact beq_false_of_ne fun hm => hpost (hm ▸ rfl)
    | predec m => exact beq_false_of_ne fun hm => hpre (hm ▸ rfl)
    | _ => rfl
  | _ => rfl

theorem exec_move_refused {src dst : Ea} (sz : Size) (h : baseIsAlsoData src dst = true) (s : State) :
    exec (.move sz src dst) s = .refused .baseIsAlsoData := by
  rw [exec_move, moveBody, if_pos h, finish_refuse]

/-- The three constructors of MOVE, by their size. -/
theorem eq_move_of_size {i : Instr} {sz : Size} {src dst : Ea}
    (h : sz = .b ∧ i = .moveB src dst ∨ sz = .w ∧ i = .moveW src dst ∨ sz = .l ∧ i = .moveL src dst) :
    i = .move sz src dst := by
  obtain ⟨rfl, rfl⟩ | ⟨rfl, rfl⟩ | ⟨rfl, rfl⟩ := h <;> rfl

/-- MOVE between plain operands: the source is read with its side effect, the destination written from that state. -/
theorem exec_move_plain {sz : Size} {src dst : Ea} {s : State} {x v : Word} (hb : baseIsAlsoData src dst = false)
    (hd : dst.isDataAlterable = true) (hs : EaReadable src sz (s.pc + 2) s)
    (hx : x = s.pc + 2 + BitVec.ofNat 32 (2 * src.words sz)) (hv : v = eaValue src sz (s.pc + 2) s)
    (hw : EaWritable dst sz x (stepEa src sz s)) :
    exec (.move sz src dst) s =
      .next (((eaWrite dst sz x v (stepEa src sz s)).setCcr (ccrLogic s.ccr sz v)).setPc
        (s.pc + BitVec.ofNat 32 (2 * (1 + src.words sz + dst.words sz)))) := by
  have hsrc : EaReadable src sz s.ext s := hs
  have hdst : EaWritable dst sz ((stepEa src sz s).ext + BitVec.ofNat 32 (2 * src.words sz)) (stepEa src sz s) := by
    rw [stepEa_ext, State.ext, ← hx]
    exact hw
  have hbody : moveBody sz src dst (.ok dst) s =
      .ok () ((eaWrite dst sz x v (stepEa src sz s)).setCcr (ccrLogic s.ccr sz v)) := by
    simp only [moveBody, hb, moveSource, withOperand_read hsrc, Res.bind_ok, withOperand_write hd hdst,
      forgetStepped_ok, eaWrite_ccr, stepEa_ccr, Bool.false_eq_true, if_false]
    rw [hx, hv, stepEa_ext, State.ext]
  simp only [exec_move, hbody, finish_ok, State.setCcr_pc, eaWrite_pc, stepEa_pc]

theorem moveB_source_ne_areg {src dst : Ea} (h : (Instr.moveB src dst).modesOk = true) (n : AReg) :
    src ≠ .areg n := by
  rintro rfl
  cases h

/-- Every MOVE that R151 admits has a data alterable destination. -/
theorem isDataAlterable_of_move {sz : Size} {src dst : Ea} (h : (Instr.move sz src dst).modesOk = true) :
    dst.isDataAlterable = true := by
  cases sz <;> simp only [Instr.move, Instr.modesOk, Bool.and_eq_true] at h
  · exact h.1.2
  · exact h.1
  · exact h.1

/-- MOVE to a data register from a plain source. -/
theorem exec_move_to_dreg {sz : Size} {src : Ea} {s : State} (n : DReg) (hs : EaReadable src sz (s.pc + 2) s) :
    ∃ t, exec (.move sz src (.dreg n)) s = .next t ∧
      t.getD n = merge sz (s.getD n) (eaValue src sz (s.pc + 2) s) ∧
      t.ccr = ccrLogic s.ccr sz (eaValue src sz (s.pc + 2) s) := by
  have hb : baseIsAlsoData src (.dreg n) = false := baseIsAlsoData_eq_false fun _ _ => ⟨nofun, nofun⟩
  refine ⟨_, exec_move_plain hb rfl hs rfl rfl ⟨rfl, nofun⟩, ?_, rfl⟩
  simp only [State.setPc_getD, State.setCcr_getD, eaWrite, State.setD_getD_same, stepEa_getD]

/-- MOVE between data registers moves the bits below the size and takes its flags from them. -/
theorem exec_move_dreg_dreg (sz : Size) (m n : DReg) (s : State) :
    ∃ t, exec (.move sz (.dreg m) (.dreg n)) s = .next t ∧
      (t.getD n).setWidth sz.bits = (s.getD m).setWidth sz.bits ∧
      t.ccr = ⟨s.ccr.x, signBit sz (s.getD m), (s.getD m).setWidth sz.bits == 0#sz.bits, false, false⟩ := by
  obtain ⟨t, ht, hn, hc⟩ := exec_move_to_dreg (src := .dreg m) (sz := sz) (s := s) n ⟨rfl, nofun⟩
  refine ⟨t, ht, ?_, ?_⟩
  · rw [hn, merge_setWidth, eaValue, trunc_setWidth]
  · rw [hc, eaValue, ccrLogic_trunc]

/-- Settles O35: one run of MOVE for the three sizes, and its flags and its register result at each size. -/
theorem moveResult : Obligations.MoveResult := by
  refine ⟨?_, ?_, ?_, ?_, ?_, ?_⟩
  · intro src dst s hm hs x v hw
    exact exec_move_plain (sz := .b) (baseIsAlsoData_eq_false fun n hn => (moveB_source_ne_areg hm n hn).elim)
      (isDataAlterable_of_move (sz := .b) hm) hs rfl rfl hw
  · intro src dst s hm hb hs x v hw
    exact exec_move_plain (sz := .w) (baseIsAlsoData_eq_false hb) (isDataAlterable_of_move (sz := .w) hm) hs rfl rfl hw
  · intro src dst s hm hb hs x v hw
    exact exec_move_plain (sz := .l) (baseIsAlsoData_eq_false hb) (isDataAlterable_of_move (sz := .l) hm) hs rfl rfl hw
  · intro i sz src n s hi _ hs
    obtain ⟨t, ht, hn, _⟩ := exec_move_to_dreg n hs
    refine ⟨t, eq_move_of_size hi ▸ ht, fun k hk => ?_⟩
    rw [hn, merge_getLsbD sz _ _ hk]
  · exact fun m n s => ⟨exec_move_dreg_dreg .b m n s, exec_move_dreg_dreg .w m n s⟩
  · intro n s
    have hpost : baseIsAlsoData (.areg n) (.postinc n) = true := beq_self_eq_true n
    have hpre : baseIsAlsoData (.areg n) (.predec n) = true := beq_self_eq_true n
    exact ⟨exec_move_refused .w hpost s, exec_move_refused .w hpre s, exec_move_refused .l hpost s,
      exec_move_refused .l hpre s⟩

/-! ### LEA (R156) -/

/-- A mode that names a place in memory has its effective address as operand. -/
theorem operandOf_memory {ea : Ea} (h : eaInMemory ea = true) (sz : Size) (x : Word) (s : State) :
    operandOf ea sz x s = .mem (effAddr ea sz x s) := by
  cases ea <;> first | rfl | cases h

/-- Control modes name a place in memory and step no register. -/
theorem eaInMemory_of_isControl {ea : Ea} (h : ea.isControl = true) : eaInMemory ea = true ∧ steppedReg ea = none := by
  cases ea <;> first | exact ⟨rfl, rfl⟩ | cases h

theorem exec_lea {ea : Ea} {s : State} (ax : AReg) (hc : ea.isControl = true)
    (hs : eaStop s.params ea (s.pc + 2) = none) :
    exec (.lea ea ax) s =
      .next ((s.setA ax (effAddr ea .l (s.pc + 2) s)).setPc (s.pc + BitVec.ofNat 32 (2 * (1 + ea.words .l)))) := by
  obtain ⟨hmem, hstep⟩ := eaInMemory_of_isControl hc
  have hstop : eaStop s.params ea s.ext = none := hs
  simp only [exec, execLea, withOperand_resolved hstop, operandOf_memory hmem, stepEa_none hstep, operandAddr,
    Res.bind_ok, forgetStepped_ok, finish_ok, State.setA_pc, Instr.words]
  rw [State.ext]

/-- The index words R114 lets through. -/
theorem indexStop_eq_none {p : Params} {e : IndexWord} (x : Word) (hr : e.reserved = false) (hl : e.long = true)
    (hs : e.scale ≠ 3 ∨ p.hasFpu = true) : indexStop p e x = none := by
  have hscale : ¬(e.scale = 3 ∧ p.hasFpu = false) := by
    rintro ⟨h3, hf⟩
    obtain h | h := hs
    · exact h h3
    · rw [hf] at h
      cases h
  simp only [indexStop, hr, hl, hscale, Bool.true_eq_false, Bool.false_eq_true, if_false]

/-- The scale as a factor (R114). -/
theorem indexValue_eq_mul (e : IndexWord) (s : State) :
    indexValue e s = s.getR e.xi * BitVec.ofNat 32 (2 ^ e.scale.toNat) := by
  apply BitVec.eq_of_toNat_eq
  simp [indexValue, Nat.shiftLeft_eq]

/-- Settles O40: the operand's address is the result, and the PC-relative modes are two of the control modes. -/
theorem leaResult : Obligations.LeaResult := by
  refine ⟨fun ea ax s hc hs => exec_lea ax hc hs, fun d ax s => exec_lea (ea := .pcDisp d) ax rfl rfl, ?_⟩
  intro e ax s hr hl hs
  have h := exec_lea (ea := .pcIndex e) (s := s) ax rfl (indexStop_eq_none _ hr hl hs)
  rw [effAddr, indexValue_eq_mul] at h
  exact h

/-! ### CLR (R157) -/

theorem exec_clr (sz : Size) (ea : Ea) (s : State) :
    exec (.clr sz ea) s = finish (1 + ea.words sz) (clrBody sz ea s) := by cases sz <;> rfl

/-- CLR of a plain destination. -/
theorem exec_clr_plain {sz : Size} {ea : Ea} {s : State} (hd : ea.isDataAlterable = true)
    (hw : EaWritable ea sz (s.pc + 2) s) :
    exec (.clr sz ea) s =
      .next (((eaWrite ea sz (s.pc + 2) 0 s).setCcr ⟨s.ccr.x, false, true, false, false⟩).setPc
        (s.pc + BitVec.ofNat 32 (2 * (1 + ea.words sz)))) := by
  have hdst : EaWritable ea sz s.ext s := hw
  simp only [exec_clr, clrBody, withOperand_write hd hdst, forgetStepped_ok, finish_ok, eaWrite_ccr, ccrLogic_zero,
    State.setCcr_pc, eaWrite_pc]
  rw [State.ext]

/-- Settles O41: a data register is a plain destination, whose merge with zero is a mask. -/
theorem clrResult : Obligations.ClrResult := by
  have hreg : ∀ (sz : Size) (n : DReg) (s : State), EaWritable (.dreg n) sz (s.pc + 2) s := fun _ _ _ => ⟨rfl, nofun⟩
  constructor
  · intro n s
    have hb : merge .b (s.getD n) 0 = s.getD n &&& 0xFFFFFF00 := merge_zero (by decide) _
    have hw : merge .w (s.getD n) 0 = s.getD n &&& 0xFFFF0000 := merge_zero (by decide) _
    rw [← hb, ← hw]
    exact ⟨exec_clr_plain (sz := .b) rfl (hreg .b n s), exec_clr_plain (sz := .w) rfl (hreg .w n s),
      exec_clr_plain (sz := .l) rfl (hreg .l n s)⟩
  · intro ea s hd
    exact ⟨exec_clr_plain (sz := .b) hd, exec_clr_plain (sz := .w) hd, exec_clr_plain (sz := .l) hd⟩

end Sys2Proof.Machine
end

section
/-! ### What operands leave as they were, where an instruction completes -/

namespace Sys2Proof.Machine

theorem AccessFrame.getD {s t : State} (h : AccessFrame s t) (n : DReg) : t.getD n = s.getD n := by
  simp only [State.getD, h.d]

theorem AccessFrame.getA {s t : State} (h : AccessFrame s t) (n : AReg) : t.getA n = s.getA n := by
  simp only [State.getA, h.a]

theorem byteAt_of_mem {s t : State} (h : t.mem = s.mem) (y : Nat) : t.byteAt y = s.byteAt y := by
  simp only [State.byteAt, h]

theorem d_eq_of_getD {s t : State} (h : ∀ n, t.getD n = s.getD n) : t.d = s.d :=
  Vector.ext fun i hi => h ⟨⟨i, hi⟩⟩

/-- What reading an operand may change: the register it steps, and the record of device accesses. -/
structure SourceFrame (ea : Ea) (s t : State) : Prop where
  d : t.d = s.d
  a : ∀ m, steppedReg ea ≠ some m → t.getA m = s.getA m
  ccr : t.ccr = s.ccr
  bytes : ∀ y, t.byteAt y = s.byteAt y

/-- What writing an operand whose bytes stand at `base` may change besides: a data register that it is, or those
bytes. -/
structure DestFrame (ea : Ea) (sz : Size) (base : Word) (s t : State) : Prop where
  d : ∀ m, ea ≠ .dreg m → t.getD m = s.getD m
  a : ∀ m, steppedReg ea ≠ some m → t.getA m = s.getA m
  ccr : t.ccr = s.ccr
  bytes : ∀ y, (eaInMemory ea = true → Outside y base sz.bytes) → t.byteAt y = s.byteAt y

theorem destFrame_setD (n : DReg) (sz : Size) (base : Word) (s : State) (v : Word) :
    DestFrame (.dreg n) sz base s (s.setD n v) :=
  ⟨fun _ hm => State.setD_getD_ne _ _ _ _ fun he => hm (he ▸ rfl), fun _ _ => rfl, rfl, fun _ _ => rfl⟩

/-- The bits of the data registers from a size on are kept (R28). -/
def HighBitsKept (sz : Size) (s t : State) : Prop :=
  ∀ m k, sz.bits ≤ k → (t.getD m).getLsbD k = (s.getD m).getLsbD k

theorem SourceFrame.getD {ea : Ea} {s t : State} (h : SourceFrame ea s t) (n : DReg) : t.getD n = s.getD n := by
  simp only [State.getD, h.d]

theorem sourceFrame_stepEa (ea : Ea) (sz : Size) (s : State) : SourceFrame ea s (stepEa ea sz s) :=
  ⟨stepEa_d ea sz s, fun _ hm => stepEa_getA_ne hm sz s, stepEa_ccr ea sz s, stepEa_byteAt ea sz s⟩

theorem SourceFrame.of_access {ea : Ea} {sz : Size} {s u : State} (h : AccessFrame (stepEa ea sz s) u)
    (hm : u.mem = (stepEa ea sz s).mem) : SourceFrame ea s u := by
  have h0 := sourceFrame_stepEa ea sz s
  exact ⟨h.d.trans h0.d, fun m hs => (h.getA m).trans (h0.a m hs), h.ccr.trans h0.ccr,
    fun y => (byteAt_of_mem hm y).trans (h0.bytes y)⟩

theorem SourceFrame.trans_dest {ea : Ea} {sz : Size} {a : Word} {s t u : State} (h : SourceFrame ea s t)
    (k : DestFrame ea sz a t u) : DestFrame ea sz a s u :=
  ⟨fun m hm => (k.d m hm).trans (h.getD m), fun m hm => (k.a m hm).trans (h.a m hm), k.ccr.trans h.ccr,
    fun y hy => (k.bytes y hy).trans (h.bytes y)⟩

theorem SourceFrame.highBits {ea : Ea} {sz : Size} {s t u : State} (h : SourceFrame ea s t) (k : HighBitsKept sz t u) :
    HighBitsKept sz s u := fun m b hb => by rw [k m b hb, h.getD]

/-- An operand that completes was resolved, and what follows it completed. -/
theorem withOperand_eq_ok {α : Type} {ea : Ea} {sz : Size} {x : Word} {s t : State} {k : Operand → State → Res α}
    {v : α} (h : withOperand ea sz x s k = .ok v t) : k (operandOf ea sz x s) (stepEa ea sz s) = .ok v t := by
  simp only [withOperand] at h
  obtain ⟨op, s', hr, hk⟩ := Res.bind_eq_ok h
  simp only [resolve] at hr
  split at hr
  · rename_i st _
    cases st <;> cases hr
  · cases hr
    exact forgetStepped_eq_ok hk

theorem memRead_eq_ok {a v : Word} {n : Nat} {s t : State} (h : memRead a n s = .ok v t) :
    AccessFrame s t ∧ t.mem = s.mem := by
  have hf := memRead_frame a n s
  have hm := memRead_mem a n s
  rw [h] at hf hm
  exact ⟨hf, hm⟩

theorem memWrite_eq_ok {a v : Word} {n : Nat} {w : Unit} {s t : State} (h : memWrite a n v s = .ok w t) :
    AccessFrame s t ∧ ∀ y, Outside y a n → t.byteAt y = s.byteAt y := by
  have hf := memWrite_frame a n v s
  rw [h] at hf
  refine ⟨hf, fun y hy => ?_⟩
  have ho := memWrite_outside (v := v) (s := s) hy
  rw [h] at ho
  exact ho

theorem readOp_eq_ok {op : Operand} {sz : Size} {v : Word} {s t : State} (h : readOp op sz s = .ok v t) :
    AccessFrame s t ∧ t.mem = s.mem := by
  cases op with
  | mem a => exact memRead_eq_ok h
  | dreg n | areg n | imm w =>
    cases h
    exact ⟨AccessFrame.refl s, rfl⟩

/-- An operand read is its side effect and an access. -/
theorem readSource_eq_ok {α : Type} {ea : Ea} {sz : Size} {x : Word} {s t : State} {k : Word → State → Res α} {v : α}
    (h : (withOperand ea sz x s fun op s1 => (readOp op sz s1).bind k) = .ok v t) :
    ∃ w u, AccessFrame (stepEa ea sz s) u ∧ SourceFrame ea s u ∧ k w u = .ok v t := by
  obtain ⟨w, u, hr, hk⟩ := Res.bind_eq_ok (withOperand_eq_ok h)
  obtain ⟨hf, hm⟩ := readOp_eq_ok hr
  exact ⟨w, u, hf, .of_access hf hm, hk⟩

/-- A data alterable mode is a data register or a place in memory (R115). -/
theorem dreg_or_memory {ea : Ea} (h : ea.isDataAlterable = true) : (∃ n, ea = .dreg n) ∨ eaInMemory ea = true := by
  cases ea <;> first | exact .inl ⟨_, rfl⟩ | exact .inr rfl | cases h

/-- A write to a resolved destination. -/
theorem writeOp_eq_ok {ea : Ea} {sz : Size} {x v : Word} {w : Unit} {s t u : State} (hd : ea.isDataAlterable = true)
    (h : writeOp (operandOf ea sz x s) sz v t = .ok w u) :
    DestFrame ea sz (effAddr ea sz x s) t u ∧ HighBitsKept sz t u := by
  obtain ⟨n, rfl⟩ | hm := dreg_or_memory hd
  · cases h
    refine ⟨destFrame_setD n sz _ t _, fun m k hk => ?_⟩
    rw [State.setD_getD]
    split
    · rename_i hmn
      rw [merge_getLsbD_high hk, hmn]
    · rfl
  · rw [operandOf_memory hm] at h
    obtain ⟨hf, ho⟩ := memWrite_eq_ok h
    exact ⟨⟨fun m _ => hf.getD m, fun m _ => hf.getA m, hf.ccr, fun y hy => ho y (hy hm)⟩,
      fun m k _ => by rw [hf.getD]⟩

/-- An operand written is its side effect and a write. -/
theorem writeDest_eq_ok {α : Type} {ea : Ea} {sz : Size} {x v : Word} {s t : State} {k : Unit → State → Res α} {r : α}
    (hd : ea.isDataAlterable = true)
    (h : (withOperand ea sz x s fun op s1 => (writeOp op sz v s1).bind k) = .ok r t) :
    ∃ u, DestFrame ea sz (effAddr ea sz x s) s u ∧ HighBitsKept sz s u ∧ k () u = .ok r t := by
  obtain ⟨w, u, hw, hk⟩ := Res.bind_eq_ok (withOperand_eq_ok h)
  obtain ⟨hf, hb⟩ := writeOp_eq_ok hd hw
  have h0 := sourceFrame_stepEa ea sz s
  exact ⟨u, h0.trans_dest hf, h0.highBits hb, hk⟩

/-- An operand read and written back is resolved once (R118). -/
theorem modifyDest_eq_ok {α : Type} {ea : Ea} {sz : Size} {x : Word} {s t : State} {f : Word → State → Word}
    {k : Word → State → Unit → State → Res α} {r : α} (hd : ea.isDataAlterable = true)
    (h : (withOperand ea sz x s fun op s1 => (readOp op sz s1).bind fun v s2 =>
      (writeOp op sz (f v s2) s2).bind (k v s2)) = .ok r t) :
    ∃ v u u', SourceFrame ea s u ∧ DestFrame ea sz (effAddr ea sz x s) s u' ∧ k v u () u' = .ok r t := by
  obtain ⟨v, u, hr, hk⟩ := Res.bind_eq_ok (withOperand_eq_ok h)
  obtain ⟨hf, hm⟩ := readOp_eq_ok hr
  obtain ⟨w, u', hw, hk⟩ := Res.bind_eq_ok hk
  have hs : SourceFrame ea s u := .of_access hf hm
  exact ⟨v, u, u', hs, hs.trans_dest (writeOp_eq_ok hd hw).1, hk⟩

theorem operandAddr_eq_ok {op : Operand} {a : Word} {s t : State} (h : operandAddr op s = .ok a t) :
    op = .mem a ∧ t = s := by
  cases op <;> cases h
  exact ⟨rfl, rfl⟩

/-! ### Where exceptions end the run, a next state is a completed instruction's (R200) -/

theorem exec_next_done {i : Instr} {s t : State} (ht : s.params.trapModel = .terminal) (h : exec i s = .next t) :
    Done i s t := by
  obtain hd | ⟨c, u, hu, hc⟩ := exec_next h
  · exact hd
  · obtain ⟨hv, _⟩ := takeException_next hc
    rw [hu.mem.params, ht] at hv
    cases hv

theorem exec_deliver_ok {i : Instr} {s t : State} {r : Res Unit} (hi : exec i s = deliver r)
    (ht : s.params.trapModel = .terminal) (h : exec i s = .next t) : r = .ok () t := by
  have hd := exec_next_done ht h
  rw [hi] at h
  obtain hr | ⟨c, u, _, hc⟩ := deliver_next h
  · exact hr
  · obtain ⟨hv, hm, _⟩ := takeException_next hc
    rw [← hm.params, hd.mem.params, ht] at hv
    cases hv

theorem exec_finish_ok {i : Instr} {s t : State} {n : Nat} {r : Res Unit} (hi : exec i s = finish n r)
    (ht : s.params.trapModel = .terminal) (h : exec i s = .next t) : ∃ u p, r = .ok () u ∧ t = u.setPc p := by
  obtain ⟨_, u, hr, hu⟩ := Res.bind_eq_ok (exec_deliver_ok hi ht h)
  cases hu
  exact ⟨u, _, hr, rfl⟩

/-- What the frame statements say of the rest of the state. -/
theorem exec_next_rest {i : Instr} {s t : State} (hi : i ≠ .halt) (ht : s.params.trapModel = .terminal)
    (h : exec i s = .next t) : t.sr = s.sr ∧ t.vbr = s.vbr ∧ t.status = s.status ∧ t.faultRecord = s.faultRecord := by
  have hd := exec_next_done ht h
  exact ⟨hd.sr, hd.mem.vbr, hd.status.resolve_right fun hh => hi hh.1, hd.faultRecord⟩

/-! ### ADD, SUB and AND -/

theorem aluToD_eq_ok {f : Word → Word → Word} {g : Ccr → Word → Word → Ccr} {ea : Ea} {dx : DReg} {s t : State}
    (h : aluToD f g ea dx s = .ok () t) :
    ∃ u v a b, SourceFrame ea s u ∧ t = (u.setD dx v).setCcr (g s.ccr a b) := by
  obtain ⟨w, u, _, hs, hk⟩ := readSource_eq_ok h
  cases hk
  exact ⟨u, _, _, _, hs, by rw [hs.ccr]⟩

theorem aluToEa_eq_ok {f : Word → Word → Word} {g : Ccr → Word → Word → Ccr} {dy : DReg} {ea : Ea} {s t : State}
    (hd : ea.isDataAlterable = true) (h : aluToEa f g dy ea s = .ok () t) :
    ∃ u a b, DestFrame ea .l (effAddr ea .l (s.pc + 2) s) s u ∧ t = u.setCcr (g s.ccr a b) := by
  obtain ⟨v, u, u', hs, hf, hk⟩ := modifyDest_eq_ok hd h
  cases hk
  exact ⟨u', _, _, hf, by rw [hs.ccr]⟩

/-- The three instructions of the form `<ea>y op Dx → Dx`; AND's flags leave X. -/
theorem exec_aluToD {i : Instr} {ea : Ea} {dx : DReg} (hi : i = .addToD ea dx ∨ i = .subToD ea dx ∨ i = .andToD ea dx)
    (s : State) : ∃ n f g, exec i s = finish n (aluToD f g ea dx s) ∧
      (i = .andToD ea dx → ∀ c a b, (g c a b).x = c.x) := by
  obtain rfl | rfl | rfl := hi
  · exact ⟨_, addRes, addFlags, rfl, nofun⟩
  · exact ⟨_, subRes, subFlags, rfl, nofun⟩
  · exact ⟨_, andRes, andFlags, rfl, fun _ _ _ _ => rfl⟩

/-- The three instructions of the form `Dy op <ea>x → <ea>x`; AND's flags leave X. -/
theorem exec_aluToEa {i : Instr} {dy : DReg} {ea : Ea}
    (hi : i = .addToEa dy ea ∨ i = .subToEa dy ea ∨ i = .andToEa dy ea) (s : State) :
    ∃ n f g, exec i s = finish n (aluToEa f g dy ea s) ∧ (i = .andToEa dy ea → ∀ c a b, (g c a b).x = c.x) := by
  obtain rfl | rfl | rfl := hi
  · exact ⟨_, addRes, addFlags, rfl, nofun⟩
  · exact ⟨_, subRes, subFlags, rfl, nofun⟩
  · exact ⟨_, andRes, andFlags, rfl, fun _ _ _ _ => rfl⟩

/-- Settles O55: a source, then one data register and the flags. -/
theorem frameOfRegisterResults : Obligations.FrameOfRegisterResults := by
  intro i ea dx s t hi ht h
  have hne : i ≠ .halt := by obtain rfl | rfl | rfl := hi <;> nofun
  obtain ⟨hsr, hvbr, hst, hrec⟩ := exec_next_rest hne ht h
  obtain ⟨n, f, g, he, hx⟩ := exec_aluToD hi s
  obtain ⟨w, p, hr, rfl⟩ := exec_finish_ok he ht h
  obtain ⟨u, v, a, b, hu, rfl⟩ := aluToD_eq_ok hr
  refine ⟨fun m hm => ?_, hu.a, fun hand => hx hand _ _ _, hsr, hvbr, hst, hrec, hu.bytes⟩
  rw [State.setPc_getD, State.setCcr_getD, State.setD_getD_ne _ _ _ _ hm, hu.getD]

theorem isDataAlterable_of_memory {ea : Ea} (h : ea.isMemoryAlterable = true) : ea.isDataAlterable = true := by
  cases ea <;> first | rfl | cases h

/-- Memory alterable modes name a place in memory. -/
theorem eaInMemory_of_isMemoryAlterable {ea : Ea} (h : ea.isMemoryAlterable = true) : eaInMemory ea = true := by
  cases ea <;> first | rfl | cases h

/-- Settles O57: a destination in memory, then the flags. -/
theorem frameOfArithmeticStores : Obligations.FrameOfArithmeticStores := by
  intro i ea dy s t hi hm ht h
  have hne : i ≠ .halt := by obtain rfl | rfl | rfl := hi <;> nofun
  have hdreg : ∀ m, ea ≠ .dreg m := by
    rintro m rfl
    cases hm
  obtain ⟨hsr, hvbr, hst, hrec⟩ := exec_next_rest hne ht h
  obtain ⟨n, f, g, he, hx⟩ := exec_aluToEa hi s
  obtain ⟨w, p, hr, rfl⟩ := exec_finish_ok he ht h
  obtain ⟨u, a, b, hu, rfl⟩ := aluToEa_eq_ok (isDataAlterable_of_memory hm) hr
  exact ⟨d_eq_of_getD fun m => hu.d m (hdreg m), hu.a, fun hand => hx hand _ _ _, hsr, hvbr, hst, hrec,
    fun y hy => hu.bytes y fun _ => hy⟩

/-! ### ADDA, MOVEA, LEA and CMPA -/

/-- What the instructions with an address register as destination do with their source's state: ADDA, MOVEA and LEA
write the register, CMPA the flags but X. -/
theorem exec_address_next {i : Instr} {ea : Ea} {ax : AReg} {s t : State}
    (hi : i = .adda ea ax ∨ i = .lea ea ax ∨ i = .cmpa ea ax ∨ ∃ sz, i = .movea sz ea ax)
    (ht : s.params.trapModel = .terminal) (h : exec i s = .next t) :
    ∃ u p, SourceFrame ea s u ∧ ((∃ v, i ≠ .cmpa ea ax ∧ t = (u.setA ax v).setPc p) ∨
      ∃ r, i = .cmpa ea ax ∧ t = (u.setCcr (ccrCompare s.ccr r)).setPc p) := by
  obtain rfl | rfl | rfl | ⟨sz, rfl⟩ := hi
  · obtain ⟨w, p, hr, rfl⟩ := exec_finish_ok rfl ht h
    obtain ⟨v, u, _, hu, hk⟩ := readSource_eq_ok hr
    cases hk
    exact ⟨u, p, hu, .inl ⟨_, nofun, rfl⟩⟩
  · obtain ⟨w, p, hr, rfl⟩ := exec_finish_ok rfl ht h
    obtain ⟨v, u, hv, hk⟩ := Res.bind_eq_ok (withOperand_eq_ok hr)
    obtain ⟨_, rfl⟩ := operandAddr_eq_ok hv
    cases hk
    exact ⟨_, p, sourceFrame_stepEa ea .l s, .inl ⟨_, nofun, rfl⟩⟩
  · obtain ⟨w, p, hr, rfl⟩ := exec_finish_ok rfl ht h
    obtain ⟨v, u, _, hu, hk⟩ := readSource_eq_ok hr
    cases hk
    exact ⟨u, p, hu, .inr ⟨_, rfl, by rw [hu.ccr]⟩⟩
  · obtain ⟨w, p, hr, rfl⟩ := exec_finish_ok rfl ht h
    obtain ⟨v, u, _, hu, hk⟩ := readSource_eq_ok hr
    cases hk
    exact ⟨u, p, hu, .inl ⟨_, nofun, rfl⟩⟩

/-- Settles O56: a source, then Ax or the flags. -/
theorem frameOfAddressResults : Obligations.FrameOfAddressResults := by
  intro i ea ax s t hi ht h
  have hne : i ≠ .halt := by obtain rfl | rfl | rfl | ⟨sz, rfl⟩ := hi <;> nofun
  obtain ⟨hsr, hvbr, hst, hrec⟩ := exec_next_rest hne ht h
  obtain ⟨u, p, hu, ⟨v, hc, rfl⟩ | ⟨r, hc, rfl⟩⟩ := exec_address_next hi ht h
  · have hccr : ((u.setA ax v).setPc p).ccr = s.ccr := hu.ccr
    refine ⟨hu.d, fun m hm hs => ?_, fun _ => hccr, by rw [hccr], hsr, hvbr, hst, hrec, hu.bytes⟩
    rw [State.setPc_getA, State.setA_getA_ne _ _ _ _ (hm.resolve_right hc), hu.a m hs]
  · exact ⟨hu.d, fun m _ hs => hu.a m hs, fun hne => (hne hc).elim, rfl, hsr, hvbr, hst, hrec, hu.bytes⟩

/-! ### CLR and BSET -/

theorem exec_clr_next {sz : Size} {ea : Ea} {s t : State} (hd : ea.isDataAlterable = true)
    (ht : s.params.trapModel = .terminal) (h : exec (.clr sz ea) s = .next t) :
    ∃ u p, DestFrame ea sz (effAddr ea sz (s.pc + 2) s) s u ∧ HighBitsKept sz s u ∧
      t = (u.setCcr (ccrLogic s.ccr sz 0)).setPc p := by
  obtain ⟨w, p, hr, rfl⟩ := exec_finish_ok (exec_clr sz ea s) ht h
  obtain ⟨u, hu, hb, hk⟩ := writeDest_eq_ok hd hr
  cases hk
  exact ⟨u, p, hu, hb, by rw [hu.ccr]⟩

/-- BSET writes one bit of its destination and the flag Z. -/
theorem bsetBody_eq_ok {b : Nat} {ea : Ea} {x : Word} {s t : State} (hd : ea.isDataAlterable = true)
    (h : bsetBody b ea x s = .ok () t) :
    ∃ u bit, DestFrame ea .b (effAddr ea .b x s) s u ∧ t = u.setCcr (ccrBitTest s.ccr bit) := by
  simp only [bsetBody] at h
  split at h
  · rename_i n
    cases h
    exact ⟨_, _, destFrame_setD n .b _ s _, rfl⟩
  · obtain ⟨v, u, u', _, hu, hk⟩ := modifyDest_eq_ok hd h
    cases hk
    exact ⟨u', _, hu, by rw [hu.ccr]⟩

theorem exec_bset_next {i : Instr} {n b : Nat} {ea : Ea} {x : Word} {s t : State}
    (hi : exec i s = finish n (bsetBody b ea x s)) (hd : ea.isDataAlterable = true)
    (ht : s.params.trapModel = .terminal) (h : exec i s = .next t) :
    ∃ u p bit, DestFrame ea .b (effAddr ea .b x s) s u ∧ t = (u.setCcr (ccrBitTest s.ccr bit)).setPc p := by
  obtain ⟨w, p, hr, rfl⟩ := exec_finish_ok hi ht h
  obtain ⟨u, bit, hu, rfl⟩ := bsetBody_eq_ok hd hr
  exact ⟨u, p, bit, hu, rfl⟩

theorem isDataAlterable_of_isBsetStatic {ea : Ea} (h : ea.isBsetStatic = true) : ea.isDataAlterable = true := by
  cases ea <;> first | rfl | cases h

/-- Settles O58: a destination, then the flags, of which BSET writes Z alone. -/
theorem frameOfClrAndBset : Obligations.FrameOfClrAndBset := by
  intro i sz ea x s t hi hm ht h
  have hframe : ∃ u p c, DestFrame ea sz (effAddr ea sz x s) s u ∧ t = (u.setCcr c).setPc p ∧ c.x = s.ccr.x ∧
      (i = .clrB ea ∨ i = .clrW ea → HighBitsKept sz s u) ∧
      ((∃ num, i = .bsetImm num ea) ∨ (∃ dy, i = .bsetReg dy ea) →
        c.n = s.ccr.n ∧ c.v = s.ccr.v ∧ c.c = s.ccr.c) := by
    obtain ⟨rfl, rfl, rfl⟩ | ⟨rfl, rfl, rfl⟩ | ⟨rfl, rfl, rfl⟩ | ⟨num, rfl, rfl, rfl⟩ | ⟨dy, rfl, rfl, rfl⟩ := hi
    · obtain ⟨u, p, hu, hb, rfl⟩ := exec_clr_next (sz := .b) hm ht h
      exact ⟨u, p, _, hu, rfl, rfl, fun _ => hb, by rintro (⟨_, h⟩ | ⟨_, h⟩) <;> cases h⟩
    · obtain ⟨u, p, hu, hb, rfl⟩ := exec_clr_next (sz := .w) hm ht h
      exact ⟨u, p, _, hu, rfl, rfl, fun _ => hb, by rintro (⟨_, h⟩ | ⟨_, h⟩) <;> cases h⟩
    · obtain ⟨u, p, hu, hb, rfl⟩ := exec_clr_next (sz := .l) hm ht h
      exact ⟨u, p, _, hu, rfl, rfl, fun _ => hb, by rintro (⟨_, h⟩ | ⟨_, h⟩) <;> cases h⟩
    · obtain ⟨u, p, bit, hu, rfl⟩ := exec_bset_next rfl (isDataAlterable_of_isBsetStatic hm) ht h
      exact ⟨u, p, _, hu, rfl, rfl, (by rintro (h | h) <;> cases h), fun _ => ⟨rfl, rfl, rfl⟩⟩
    · obtain ⟨u, p, bit, hu, rfl⟩ := exec_bset_next rfl hm ht h
      exact ⟨u, p, _, hu, rfl, rfl, (by rintro (h | h) <;> cases h), fun _ => ⟨rfl, rfl, rfl⟩⟩
  have hne : i ≠ .halt := by
    rintro rfl
    simp at hi
  obtain ⟨hsr, hvbr, hst, hrec⟩ := exec_next_rest hne ht h
  obtain ⟨u, p, c, hu, rfl, hx, hb, hbset⟩ := hframe
  exact ⟨hu.d, fun m k _ hclr hk => hb hclr m k hk, hu.a, hx, hbset, hsr, hvbr, hst, hrec, hu.bytes⟩

/-! ### MOVE -/

/-- An effective address depends on the registers alone. -/
theorem effAddr_congr {s t : State} (hd : t.d = s.d) (ha : t.a = s.a) (ea : Ea) (sz : Size) (x : Word) :
    effAddr ea sz x t = effAddr ea sz x s := by
  have hA : ∀ n, t.getA n = s.getA n := fun n => by simp only [State.getA, ha]
  have hX : ∀ e, indexValue e t = indexValue e s := fun e => by
    cases hxi : e.xi <;> simp only [indexValue, hxi, State.getR, State.getD, State.getA, hd, ha]
  cases ea <;> simp only [effAddr, hA, hX]

theorem moveBody_eq_ok {sz : Size} {src dst : Ea} {s t : State} (hd : dst.isDataAlterable = true)
    (h : moveBody sz src dst (.ok dst) s = .ok () t) :
    ∃ u u' v, SourceFrame src s u ∧
      DestFrame dst sz (effAddr dst sz (s.pc + 2 + BitVec.ofNat 32 (2 * src.words sz)) (stepEa src sz s)) u u' ∧
      HighBitsKept sz u u' ∧ t = u'.setCcr (ccrLogic s.ccr sz v) := by
  simp only [moveBody] at h
  split at h
  · cases h
  · obtain ⟨v, u, ha, hs, hk⟩ := readSource_eq_ok h
    obtain ⟨u', hu, hb, hk⟩ := writeDest_eq_ok hd hk
    cases hk
    have hx : u.ext = s.pc + 2 := by rw [State.ext, ha.pc, stepEa_pc]
    rw [effAddr_congr ha.d ha.a, hx] at hu
    exact ⟨u, u', v, hs, hu, hb, by rw [hu.ccr, hs.ccr]⟩

/-- Settles O59: a source, then a destination at the address the source's side effect leaves. -/
theorem frameOfMove : Obligations.FrameOfMove := by
  intro i sz src dst s t hi hm ht h
  obtain rfl := eq_move_of_size hi
  have hne : Instr.move sz src dst ≠ .halt := by cases sz <;> nofun
  obtain ⟨hsr, hvbr, hst, hrec⟩ := exec_next_rest hne ht h
  obtain ⟨w, p, hr, rfl⟩ := exec_finish_ok (exec_move sz src dst s) ht h
  obtain ⟨u, u', v, hs, hu, hb, rfl⟩ := moveBody_eq_ok (isDataAlterable_of_move hm) hr
  exact ⟨fun m hd => (hu.d m hd).trans (hs.getD m), fun m k _ hk => hs.highBits hb m k hk,
    fun m h1 h2 => (hu.a m h2).trans (hs.a m h1), rfl, rfl, rfl, hsr, hvbr, hst, hrec,
    fun y hy => (hu.bytes y hy).trans (hs.bytes y)⟩

/-! ### MOVEM, BSR and RTS -/

/-- The modes of MOVEM name a place in memory and step no register (R155). -/
theorem eaInMemory_of_isMovem {ea : Ea} (h : ea.isMovem = true) : eaInMemory ea = true ∧ steppedReg ea = none := by
  cases ea <;> first | exact ⟨rfl, rfl⟩ | cases h

/-- MOVEM's operand is its effective address, and nothing else is done before the transfers. -/
theorem withOperand_movem_eq_ok {ea : Ea} {x : Word} {s t : State} {k : Word → State → Res Unit}
    (hm : ea.isMovem = true)
    (h : (withOperand ea .l x s fun op s1 => (operandAddr op s1).bind k) = .ok () t) :
    k (effAddr ea .l x s) s = .ok () t := by
  obtain ⟨hmem, hstep⟩ := eaInMemory_of_isMovem hm
  have hk := withOperand_eq_ok h
  rw [operandOf_memory hmem, stepEa_none hstep] at hk
  exact hk

/-- Stores at ascending addresses are accesses, and keep every byte outside their longwords. -/
theorem storeAll_eq_ok {vs : List Word} {a : Word} {s t : State} (h : storeAll vs a s = .ok () t) :
    AccessFrame s t ∧ ∀ y, Outside y a (4 * vs.length) → t.byteAt y = s.byteAt y := by
  induction vs generalizing a s with
  | nil =>
    cases h
    exact ⟨AccessFrame.refl _, fun _ _ => rfl⟩
  | cons v vs ih =>
    obtain ⟨_, u, hw, hk⟩ := Res.bind_eq_ok h
    obtain ⟨hf, ho⟩ := memWrite_eq_ok hw
    obtain ⟨hf', ho'⟩ := ih hk
    refine ⟨hf.trans hf', fun y hy => ?_⟩
    have hsplit : byteAddrs a (4 * (v :: vs).length) = byteAddrs a 4 ++ byteAddrs (a + 4) (4 * vs.length) := by
      rw [List.length_cons, Nat.mul_succ, Nat.add_comm, byteAddrs_add]
      rfl
    rw [Outside, hsplit] at hy
    rw [ho' y fun x hx => hy x (List.mem_append_right _ hx), ho y fun x hx => hy x (List.mem_append_left _ hx)]

theorem setR_getR_ne {s : State} {r q : AnyReg} (v : Word) (h : q ≠ r) : (s.setR r v).getR q = s.getR q := by
  cases r with
  | d n =>
    cases q with
    | d m => exact State.setD_getD_ne _ _ _ _ fun he => h (he ▸ rfl)
    | a m => rfl
  | a n =>
    cases q with
    | d m => rfl
    | a m => exact State.setA_getA_ne _ _ _ _ fun he => h (he ▸ rfl)

theorem setR_ccr (s : State) (r : AnyReg) (v : Word) : (s.setR r v).ccr = s.ccr := by cases r <;> rfl

theorem setR_mem (s : State) (r : AnyReg) (v : Word) : (s.setR r v).mem = s.mem := by cases r <;> rfl

theorem AccessFrame.getR {s t : State} (h : AccessFrame s t) (r : AnyReg) : t.getR r = s.getR r := by
  cases r with
  | d n => exact h.getD n
  | a n => exact h.getA n

/-- Loads from ascending addresses change the listed registers alone. -/
theorem loadAll_eq_ok {rs : List AnyReg} {a : Word} {s t : State} (h : loadAll rs a s = .ok () t) :
    (∀ r, r ∉ rs → t.getR r = s.getR r) ∧ t.ccr = s.ccr ∧ t.mem = s.mem := by
  induction rs generalizing a s with
  | nil =>
    cases h
    exact ⟨fun _ _ => rfl, rfl, rfl⟩
  | cons q rs ih =>
    obtain ⟨v, u, hr, hk⟩ := Res.bind_eq_ok h
    obtain ⟨hf, hm⟩ := memRead_eq_ok hr
    obtain ⟨hregs, hccr, hmem⟩ := ih hk
    refine ⟨fun r hr => ?_, by rw [hccr, setR_ccr, hf.ccr], by rw [hmem, setR_mem, hm]⟩
    obtain ⟨hq, hrs⟩ := not_or.mp (List.mem_cons.not.mp hr)
    rw [hregs r hrs, setR_getR_ne v hq, hf.getR]

/-- Settles O60: the transfers one after another; the push and the pop of a call and a return are one access each. -/
theorem frameOfMovemAndCalls : Obligations.FrameOfMovemAndCalls := by
  intro mask ea disp s t ht
  refine ⟨fun hm h => ?_, fun hm h => ?_, fun h => ?_, fun h => ?_⟩
  · have hsr := (exec_next_done ht h).sr
    obtain ⟨w, p, hr, rfl⟩ := exec_finish_ok rfl ht h
    obtain ⟨hf, ho⟩ := storeAll_eq_ok (withOperand_movem_eq_ok hm hr)
    rw [List.length_map] at ho
    exact ⟨hf.d, hf.a, hf.ccr, hsr, ho⟩
  · have hsr := (exec_next_done ht h).sr
    obtain ⟨w, p, hr, rfl⟩ := exec_finish_ok rfl ht h
    obtain ⟨hregs, hccr, hmem⟩ := loadAll_eq_ok (withOperand_movem_eq_ok hm hr)
    refine ⟨fun r hr => ?_, hccr, hsr, byteAt_of_mem hmem⟩
    rw [← hregs r hr]
    cases r <;> rfl
  · have hsr := (exec_next_done ht h).sr
    obtain ⟨_, u, hw, hk⟩ := Res.bind_eq_ok (exec_deliver_ok rfl ht h)
    obtain ⟨hf, ho⟩ := memWrite_eq_ok hw
    cases hk
    exact ⟨hf.d, hf.a, hf.ccr, hsr, ho⟩
  · have hsr := (exec_next_done ht h).sr
    obtain ⟨v, u, hr, hk⟩ := Res.bind_eq_ok (exec_deliver_ok rfl ht h)
    obtain ⟨hf, hm⟩ := memRead_eq_ok hr
    cases hk
    refine ⟨hf.d, ?_, hf.ccr, hsr, byteAt_of_mem hm⟩
    simp only [State.setPc_a, State.setA, hf.a, hf.getA]

end Sys2Proof.Machine
end

section
/-! ### Accesses that stop at one of their bytes (R44, R47, R49, R55, R201) -/

namespace Sys2Proof.Machine

/-- The addresses of an access, cut at its byte `k`. -/
theorem byteAddrs_cut (a : Word) {n k : Nat} (hk : k < n) :
    ∃ rest, byteAddrs a n = byteAddrs a k ++ (a + BitVec.ofNat 32 k) :: rest := by
  obtain ⟨j, rfl⟩ := Nat.exists_eq_add_of_lt hk
  exact ⟨_, by rw [Nat.add_assoc, byteAddrs_add]; rfl⟩

/-- Some byte of an access is the first with a property that one of them has. -/
theorem exists_first_byte {P : Word → Prop} {a : Word} {n : Nat} (h : ∃ x ∈ byteAddrs a n, P x) :
    ∃ k < n, (∀ x ∈ byteAddrs a k, ¬P x) ∧ P (a + BitVec.ofNat 32 k) := by
  induction n with
  | zero =>
    obtain ⟨x, hx, _⟩ := h
    cases hx
  | succ n ih =>
    by_cases hn : ∃ x ∈ byteAddrs a n, P x
    · obtain ⟨k, hk, hfirst⟩ := ih hn
      exact ⟨k, Nat.lt_succ_of_lt hk, hfirst⟩
    · have hbefore : ∀ x ∈ byteAddrs a n, ¬P x := fun x hx hp => hn ⟨x, hx, hp⟩
      obtain ⟨x, hx, hp⟩ := h
      rw [byteAddrs_add, List.mem_append] at hx
      obtain hx | hx := hx
      · exact (hbefore x hx hp).elim
      · obtain rfl := List.mem_singleton.mp hx
        exact ⟨n, Nat.lt_succ_self n, hbefore, hp⟩

/-! ### The stops of single accesses -/

/-- A fetch or a read is not made because of its first byte outside every range (R49, R201). -/
theorem readFault_first {p : Params} {a : Word} {n k : Nat} (acc : Access) (hk : k < n)
    (hin : ∀ x ∈ byteAddrs a k, kindAt p x.toNat ≠ none) (hout : kindAt p (a + BitVec.ofNat 32 k).toNat = none) :
    readFault p acc (byteAddrs a n) = some (.accessError (a + BitVec.ofNat 32 k) acc false) := by
  obtain ⟨rest, hcut⟩ := byteAddrs_cut a hk
  have hbefore : (byteAddrs a k).find? (fun x => (kindAt p x.toNat).isNone) = none := by
    simpa [List.find?_eq_none] using hin
  simp only [readFault, hcut, List.find?_append, hbefore, Option.none_or, List.find?_cons, hout, Option.isNone_none,
    Option.map_some]

theorem readUnit_first {a : Word} {n k : Nat} {s : State} (acc : Access) (hk : k < n)
    (hin : ∀ x ∈ byteAddrs a k, kindAt s.params x.toNat ≠ none)
    (hout : kindAt s.params (a + BitVec.ofNat 32 k).toNat = none) :
    readUnit acc a n s = .raise (.accessError (a + BitVec.ofNat 32 k) acc false) s := by
  simp only [readUnit, readFault_first acc hk hin hout]

theorem byteWriteStop_ram {p : Params} {x : Word} (h : kindAt p x.toNat = some .ram) :
    byteWriteStop p x = if inCode p x.toNat then some (.refusal .storeToCode) else none := by
  simp only [byteWriteStop, h]

theorem byteWriteStop_device {p : Params} {x : Word} (h : kindAt p x.toNat = some .device) :
    byteWriteStop p x = if inCode p x.toNat then some (.refusal .storeToCode) else none := by
  simp only [byteWriteStop, h]

theorem byteWriteStop_rom {p : Params} {x : Word} (h : kindAt p x.toNat = some .rom) :
    byteWriteStop p x = some (.cause (.accessError x .write true)) := by
  simp only [byteWriteStop, h]

theorem byteWriteStop_outside {p : Params} {x : Word} (h : kindAt p x.toNat = none) :
    byteWriteStop p x = some (.cause (.accessError x .write false)) := by
  simp only [byteWriteStop, h]

/-- Nothing stops a store to ram outside the program text. -/
theorem byteWriteStop_writable {p : Params} {x : Word} (h : kindAt p x.toNat = some .ram ∧ inCode p x.toNat = false) :
    byteWriteStop p x = none := by
  rw [byteWriteStop_ram h.1, h.2, if_neg Bool.false_ne_true]

/-- A store is not made because of the first byte that stops it (R47, R49, R55; assumption 36). -/
theorem writeUnit_first {a v : Word} {n k : Nat} {s : State} {st : Stop} (hk : k < n)
    (hbefore : ∀ x ∈ byteAddrs a k, byteWriteStop s.params x = none)
    (hstop : byteWriteStop s.params (a + BitVec.ofNat 32 k) = some st) : writeUnit a n v s = st.toRes s := by
  obtain ⟨rest, hcut⟩ := byteAddrs_cut a hk
  have hnone : (byteAddrs a k).findSome? (byteWriteStop s.params) = none := List.findSome?_eq_none_iff.mpr hbefore
  simp only [writeUnit, writeStop, hcut, List.findSome?_append, hnone, Option.none_or, List.findSome?_cons, hstop]

/-! ### A data access by its alignment (R44) -/

theorem memRead_of_aligned {a : Word} {n : Nat} (h : aligned a n = true) (s : State) :
    memRead a n s = readUnit .read a n s := by
  rw [memRead, if_pos h]

theorem memRead_of_split {a : Word} {n : Nat} {s : State} (ha : aligned a n = false)
    (h : s.params.misaligned = .split) : memRead a n s = readSplit n a 0 s := by
  simp only [memRead, ha, h, Bool.false_eq_true, if_false]

theorem memRead_of_fault {a : Word} {n : Nat} {s : State} (ha : aligned a n = false)
    (h : s.params.misaligned = .fault) : memRead a n s = .raise (.addressError a (.data .read)) s := by
  simp only [memRead, ha, h, Bool.false_eq_true, if_false]

theorem memWrite_of_aligned {a : Word} {n : Nat} (h : aligned a n = true) (v : Word) (s : State) :
    memWrite a n v s = writeUnit a n v s := by
  rw [memWrite, if_pos h]

theorem memWrite_of_split {a : Word} {n : Nat} {s : State} (ha : aligned a n = false)
    (h : s.params.misaligned = .split) (v : Word) : memWrite a n v s = writeSplit (beBytes v n) a s := by
  simp only [memWrite, ha, h, Bool.false_eq_true, if_false]

theorem memWrite_of_fault {a : Word} {n : Nat} {s : State} (ha : aligned a n = false)
    (h : s.params.misaligned = .fault) (v : Word) :
    memWrite a n v s = .raise (.addressError a (.data .write)) s := by
  simp only [memWrite, ha, h, Bool.false_eq_true, if_false]

/-! ### A split access that stops on the way (R44, R206) -/

theorem add_ofNat_succ (a : Word) (k : Nat) : a + BitVec.ofNat 32 (k + 1) = a + 1 + BitVec.ofNat 32 k := by
  rw [Nat.add_comm, BitVec.ofNat_add, BitVec.add_assoc]
  rfl

/-- A split read of plain bytes and then a byte outside every range has changed nothing (R44, R49). -/
theorem readSplit_first {n k : Nat} {a acc : Word} {s : State} (hk : k < n) (hin : PlainBytes s a k)
    (hout : kindAt s.params (a + BitVec.ofNat 32 k).toNat = none) :
    readSplit n a acc s = .raise (.accessError (a + BitVec.ofNat 32 k) .read false) s := by
  induction k generalizing n a acc with
  | zero =>
    obtain ⟨n, rfl⟩ := Nat.exists_eq_succ_of_ne_zero (Nat.ne_of_gt hk)
    rw [readSplit, readUnit_first .read Nat.one_pos nofun hout, Res.bind_raise]
  | succ k ih =>
    obtain ⟨n, rfl⟩ := Nat.exists_eq_succ_of_ne_zero (Nat.ne_of_gt (Nat.zero_lt_of_lt hk))
    have hfirst : PlainBytes s a 1 := fun x hx => hin x (List.mem_cons.mpr (.inl (List.mem_singleton.mp hx)))
    rw [add_ofNat_succ] at hout ⊢
    rw [readSplit, readUnit_plain hfirst, Res.bind_ok]
    exact ih (Nat.lt_of_succ_lt_succ hk) (fun x hx => hin x (List.mem_cons_of_mem _ hx)) hout

/-- A split write of writable bytes and then one that stops it has placed the bytes before that one (R44, R208). -/
theorem writeSplit_first {n k : Nat} {a v : Word} {s : State} {st : Stop} (hk : k < n)
    (hin : ∀ x ∈ byteAddrs a k, kindAt s.params x.toNat = some .ram ∧ inCode s.params x.toNat = false)
    (hstop : byteWriteStop s.params (a + BitVec.ofNat 32 k) = some st) :
    writeSplit (beBytes v n) a s = st.toRes (placeBytes ((beBytes v n).take k) a s) := by
  induction k generalizing n a s with
  | zero =>
    obtain ⟨n, rfl⟩ := Nat.exists_eq_succ_of_ne_zero (Nat.ne_of_gt hk)
    rw [beBytes, writeSplit, writeUnit_first Nat.one_pos nofun hstop]
    cases st <;> rfl
  | succ k ih =>
    obtain ⟨n, rfl⟩ := Nat.exists_eq_succ_of_ne_zero (Nat.ne_of_gt (Nat.zero_lt_of_lt hk))
    have hfirst : Writable s a 1 :=
      ⟨fun x hx => hin x (List.mem_cons.mpr (.inl (List.mem_singleton.mp hx))), .inl (by simp [aligned, Nat.mod_one])⟩
    rw [add_ofNat_succ] at hstop
    rw [beBytes, writeSplit, writeUnit_plain hfirst.1, Res.bind_ok, ih (Nat.lt_of_succ_lt_succ hk)]
    · simp [beBytes, placeBytes]
    · simpa using fun x hx => hin x (List.mem_cons_of_mem _ hx)
    · simpa using hstop

/-! ### The faults of data accesses -/

theorem plainBytes_ne_none {s : State} {a : Word} {n : Nat} (h : PlainBytes s a n) :
    ∀ x ∈ byteAddrs a n, kindAt s.params x.toNat ≠ none := by
  intro x hx hn
  obtain h | h := h x hx <;> rw [hn] at h <;> cases h

/-- Where a read faults it raises the exception and changes nothing. -/
theorem memRead_faults {s : State} {a : Word} {n : Nat} {c : Cause} (h : ReadFaults s a n c) :
    memRead a n s = .raise c s := by
  obtain ⟨hal, k, hk, hin, hout, rfl⟩ | ⟨hm, ha, rfl⟩ := h
  · by_cases ha : aligned a n = true
    · rw [memRead_of_aligned ha, readUnit_first .read hk (plainBytes_ne_none hin) hout]
    · rw [memRead_of_split (Bool.eq_false_of_not_eq_true ha) (hal.resolve_left ha), readSplit_first hk hin hout]
  · exact memRead_of_fault ha hm

/-- Where a write faults it raises the exception and has written nothing. -/
theorem memWrite_faults {s : State} {a : Word} {n : Nat} {c : Cause} (h : WriteFaults s a n c) (v : Word) :
    memWrite a n v s = .raise c s := by
  obtain ⟨hal, k, hk, hwhole, hin, hbad⟩ | ⟨hm, ha, rfl⟩ := h
  · have hstop : byteWriteStop s.params (a + BitVec.ofNat 32 k) = some (.cause c) := by
      obtain ⟨hout, rfl⟩ | ⟨hrom, rfl⟩ := hbad
      · exact byteWriteStop_outside hout
      · exact byteWriteStop_rom hrom
    by_cases ha : aligned a n = true
    · rw [memWrite_of_aligned ha, writeUnit_first hk (fun x hx => byteWriteStop_writable (hin x hx)) hstop]
      rfl
    · obtain rfl := hwhole.resolve_right ha
      rw [memWrite_of_split (Bool.eq_false_of_not_eq_true ha) (hal.resolve_left ha), writeSplit_first hk hin hstop]
      rfl
  · exact memWrite_of_fault ha hm v

/-- Settles O21: under split the accesses before the one that stops are made. -/
theorem misalignedAccess : Obligations.MisalignedAccess := by
  constructor
  · intro s a v n hm ha
    exact ⟨memRead_of_fault ha hm, memWrite_of_fault ha hm v⟩
  · intro s a v n k hm ha _ hk hin hout
    constructor
    · rw [memRead_of_split ha hm, readSplit_first hk (fun x hx => .inl (hin x hx).1) hout]
    · rw [memWrite_of_split ha hm, writeSplit_first hk hin (byteWriteStop_outside hout)]
      rfl

/-- Settles O23: an aligned access stops at its first bad byte. -/
theorem accessErrors : Obligations.AccessErrors := by
  intro s a v n k ha hk
  refine ⟨fun hin hout => ?_, fun hin => ⟨fun hout => ?_, fun hrom => ?_⟩⟩
  · rw [memRead_of_aligned ha, readUnit_first .read hk hin hout]
  · exact memWrite_faults (.inl ⟨.inl ha, k, hk, .inr ha, hin, .inl ⟨hout, rfl⟩⟩) v
  · exact memWrite_faults (.inl ⟨.inl ha, k, hk, .inr ha, hin, .inr ⟨hrom, rfl⟩⟩) v

/-- Settles O24: the first byte in the program text stops the store, whole or split. -/
theorem storeToCodeIsRefused : Obligations.StoreToCodeIsRefused := by
  intro s a v n hal hram hcode
  obtain ⟨k, hk, hbefore, hc⟩ := exists_first_byte hcode
  obtain ⟨rest, hcut⟩ := byteAddrs_cut a hk
  rw [hcut] at hram
  have hin : ∀ x ∈ byteAddrs a k, kindAt s.params x.toNat = some .ram ∧ inCode s.params x.toNat = false :=
    fun x hx => ⟨hram x (List.mem_append_left _ hx), Bool.eq_false_of_not_eq_true (hbefore x hx)⟩
  have hstop : byteWriteStop s.params (a + BitVec.ofNat 32 k) = some (.refusal .storeToCode) := by
    rw [byteWriteStop_ram (hram _ (List.mem_append_right _ List.mem_cons_self)), if_pos hc]
  by_cases ha : aligned a n = true
  · rw [memWrite_of_aligned ha, writeUnit_first hk (fun x hx => byteWriteStop_writable (hin x hx)) hstop]
    rfl
  · rw [memWrite_of_split (Bool.eq_false_of_not_eq_true ha) (hal.resolve_left ha), writeSplit_first hk hin hstop]
    rfl

end Sys2Proof.Machine
end

section
/-! ### The value of an access and its bytes (R40, R42) -/

namespace Sys2Proof.Machine

/-- One byte more at the low end of a number. -/
theorem shiftLeft_or_byte {n : Nat} (x : BitVec n) (b : Byte) :
    (x.setWidth 32 <<< 8 ||| b.setWidth 32 : Word) = (x ++ b).setWidth 32 := by
  apply BitVec.eq_of_getLsbD_eq
  intro i hi
  simp only [BitVec.getLsbD_or, BitVec.getLsbD_shiftLeft, BitVec.getLsbD_setWidth, BitVec.getLsbD_append]
  by_cases h : i < 8
  · simp [h, hi]
  · have hsub : i - 8 < 32 := by omega
    simp [h, hi, hsub, BitVec.getLsbD_of_ge b i (Nat.le_of_not_lt h)]

theorem byteAddrs_four (a : Word) : byteAddrs a 4 = [a, a + 1, a + 2, a + 3] := by
  simp only [byteAddrs, BitVec.add_assoc]
  rfl

/-- The number in four bytes, the first the most significant (R40). -/
theorem valueAt_four (s : State) (a : Word) :
    valueAt s a 4 = s.byteAt a.toNat ++ s.byteAt (a + 1).toNat ++ s.byteAt (a + 2).toNat ++ s.byteAt (a + 3).toNat := by
  have hstep : valueAt s a 4 = (valueAt s a 2 <<< 8 ||| (s.byteAt (a + 2).toNat).setWidth 32) <<< 8 |||
      (s.byteAt (a + 3).toNat).setWidth 32 := by
    rw [valueAt, byteAddrs_four]
    rfl
  rw [hstep, valueAt_two, shiftLeft_or_byte, shiftLeft_or_byte, BitVec.setWidth_eq]

/-- Reading the low `n` bytes of a value after others: its own bits below, theirs above. -/
theorem foldl_beBytes_getLsbD (v acc : Word) {n i : Nat} (hi : i < 32) :
    ((beBytes v n).foldl (fun (w : Word) (b : Byte) => (w <<< 8) ||| b.setWidth 32) acc).getLsbD i =
      if i < 8 * n then v.getLsbD i else acc.getLsbD (i - 8 * n) := by
  induction n generalizing acc with
  | zero => rfl
  | succ n ih =>
    rw [beBytes, List.foldl_cons, ih]
    by_cases hlow : i < 8 * n
    · rw [if_pos hlow, if_pos (by omega)]
    · rw [if_neg hlow, BitVec.getLsbD_or, BitVec.getLsbD_shiftLeft]
      by_cases hbyte : i - 8 * n < 8
      · rw [if_pos (by omega)]
        simp [hbyte, show i - 8 * n < 32 by omega, Nat.add_sub_cancel' (Nat.le_of_not_lt hlow)]
      · rw [if_neg (by omega), Nat.mul_succ, Nat.sub_add_eq]
        simp [hbyte, show i - 8 * n < 32 by omega]

theorem trunc_getLsbD (sz : Size) (v : Word) {i : Nat} (hi : i < 32) :
    (trunc sz v).getLsbD i = (decide (i < sz.bits) && v.getLsbD i) := by
  cases sz with
  | b | w => simp only [trunc, Size.bits, BitVec.getLsbD_setWidth, hi, decide_true, Bool.true_and]; rfl
  | l => simp [Size.bits, hi]

/-- The bytes of a value give the value back, at their size (R40). -/
theorem beValue_beBytes (sz : Size) (v : Word) : beValue (beBytes v sz.bytes) = trunc sz v := by
  have hbits : 8 * sz.bytes = sz.bits := by cases sz <;> rfl
  apply BitVec.eq_of_getLsbD_eq
  intro i hi
  rw [beValue, foldl_beBytes_getLsbD v 0 hi, trunc_getLsbD sz v hi, hbits]
  by_cases h : i < sz.bits <;> simp [h]

/-- What was placed is what is read. -/
theorem valueAt_placeBytes (sz : Size) (a v : Word) (s : State) :
    valueAt (placeBytes (beBytes v sz.bytes) a s) a sz.bytes = trunc sz v := by
  have hread := placeBytes_byteAt (bs := beBytes v sz.bytes) (a := a) (s := s)
    (by rw [beBytes_length]; cases sz <;> decide)
  rw [beBytes_length] at hread
  rw [valueAt, hread, beValue_beBytes]

/-- Settles O20: the value of plain bytes, and of those a write has placed. -/
theorem dataIsBigEndian : Obligations.DataIsBigEndian := by
  refine ⟨fun s a h => ?_, fun s a h => ?_, fun s a h => ?_, fun s a v sz h => ?_⟩
  · rw [memRead_plain h, valueAt_one]
  · rw [memRead_plain h, valueAt_two]
  · rw [memRead_plain h, valueAt_four]
  · refine ⟨_, memWrite_plain h, ?_, placeBytes_eq _ _ _, fun y hy => ?_⟩
    · rw [memRead_plain (h.readable.of_eq (placeBytes_params _ _ _)), valueAt_placeBytes]
    · exact placeBytes_byteAt_outside (by rwa [beBytes_length])

/-- A part of a readable place is readable, if it is as well aligned as the whole. -/
theorem Readable.part {s : State} {a : Word} {n i m : Nat} (h : Readable s a n) (him : i + m ≤ n)
    (ha : aligned a n = true → aligned (a + BitVec.ofNat 32 i) m = true) :
    Readable s (a + BitVec.ofNat 32 i) m := by
  obtain ⟨j, rfl⟩ := Nat.exists_eq_add_of_le him
  obtain ⟨hin, hal⟩ := h
  exact ⟨(plainBytes_add (plainBytes_add hin).1).2, hal.imp_left ha⟩

/-- Bytes, words and longwords within an aligned longword are aligned. -/
theorem aligned_part {a : Word} {i m : Nat} (hi : i % m = 0) (hm : m ∣ 4) (h : aligned a 4 = true) :
    aligned (a + BitVec.ofNat 32 i) m = true := by
  have h4 : 4 ∣ a.toNat := Nat.dvd_of_mod_eq_zero (by simpa [aligned] using h)
  have hsum : m ∣ a.toNat + i := Nat.dvd_add (hm.trans h4) (Nat.dvd_of_mod_eq_zero hi)
  have hsp : m ∣ 2 ^ 32 := hm.trans (by decide)
  simp only [aligned, BitVec.toNat_add, BitVec.toNat_ofNat, Nat.add_mod_mod, beq_iff_eq]
  exact Nat.mod_eq_zero_of_dvd ((Nat.dvd_mod_iff hsp).mpr hsum)

/-- Settles O19: the four bytes placed, read one, two and four at a time. -/
theorem mixedWidthAccess : Obligations.MixedWidthAccess := by
  constructor
  · intro s a h
    have hlist : beBytes 0xAABBCCDD 4 = [0xAA, 0xBB, 0xCC, 0xDD] := by decide
    refine ⟨_, (memWrite_plain h).trans (by rw [hlist]), ?_⟩
    have hr : Readable (placeBytes [0xAA, 0xBB, 0xCC, 0xDD] a s) a 4 := h.readable.of_eq (placeBytes_params _ _ _)
    have hbytes : (byteAddrs a 4).map (fun x => (placeBytes [0xAA, 0xBB, 0xCC, 0xDD] a s).byteAt x.toNat) =
        [0xAA, 0xBB, 0xCC, 0xDD] := placeBytes_byteAt (by decide)
    generalize placeBytes [0xAA, 0xBB, 0xCC, 0xDD] a s = t at hr hbytes ⊢
    simp only [byteAddrs_four, List.map_cons, List.map_nil, List.cons.injEq, and_true] at hbytes
    obtain ⟨h0, h1, h2, h3⟩ := hbytes
    have hpart : ∀ i m, i + m ≤ 4 → i % m = 0 → m ∣ 4 →
        memRead (a + BitVec.ofNat 32 i) m t = .ok (valueAt t (a + BitVec.ofNat 32 i) m) t :=
      fun i m him hi hm => memRead_plain (hr.part him (aligned_part hi hm))
    have r01 := hpart 0 1 (by decide) (by decide) (by decide)
    have r02 := hpart 0 2 (by decide) (by decide) (by decide)
    have r31 : memRead (a + 3) 1 t = .ok (valueAt t (a + 3) 1) t := hpart 3 1 (by decide) (by decide) (by decide)
    have r22 : memRead (a + 2) 2 t = .ok (valueAt t (a + 2) 2) t := hpart 2 2 (by decide) (by decide) (by decide)
    have hnext : a + 2 + 1 = a + 3 := BitVec.add_assoc a 2 1
    simp only [valueAt_one, valueAt_two, BitVec.add_zero, hnext, h0, h1, h2, h3] at r01 r02 r31 r22
    exact ⟨r01, r31, r02, r22⟩
  · intro s m n h hb0 hb1 hb2 hb3
    obtain ⟨t, ht, hn, _⟩ := exec_move_to_dreg (src := .ind m) (sz := .l) (s := s) n ⟨rfl, fun _ => h⟩
    refine ⟨t, ht, ?_⟩
    have hv : eaValue (.ind m) .l (s.pc + 2) s = valueAt s (s.getA m) 4 := rfl
    rw [hn, hv, merge_l, valueAt_four, hb0, hb1, hb2, hb3]
    rfl

/-! ### Device accesses (R46, R47) -/

/-- Each byte read from a device is the next free value. -/
theorem readBytes_device {as : List Word} {s : State} (h : ∀ x ∈ as, isDevice s.params x.toNat = true) :
    readBytes as s = ((List.range as.length).map fun k => Config.deviceByte (s.draws + k),
      { s with draws := s.draws + as.length }) := by
  induction as generalizing s with
  | nil => rfl
  | cons x xs ih =>
    have hx : readByte x s = (Config.deviceByte s.draws, s.bump) := if_pos (h x List.mem_cons_self)
    have hrest := ih (s := s.bump) fun y hy => h y (List.mem_cons_of_mem _ hy)
    have hshift : ∀ k, s.bump.draws + k = s.draws + (k + 1) := fun k => by
      rw [State.bump_draws, Nat.add_assoc, Nat.add_comm 1]
    simp only [readBytes, hx, hrest, hshift, List.length_cons, List.range_succ_eq_map, List.map_cons, List.map_map]
    rfl

/-- Bytes sent to a device are not held. -/
theorem writeBytes_device {cs : List (Word × Byte)} {s : State} (h : ∀ c ∈ cs, isDevice s.params c.1.toNat = true) :
    writeBytes cs s = s := by
  induction cs with
  | nil => rfl
  | cons c cs ih =>
    obtain ⟨x, b⟩ := c
    have hx : isDevice s.params x.toNat = true := h (x, b) List.mem_cons_self
    rw [writeBytes, if_pos hx, ih fun d hd => h d (List.mem_cons_of_mem _ hd)]

/-- An access that touches a device is recorded. -/
theorem record_device {s : State} {a : Word} {n : Nat} (h : ∃ x ∈ byteAddrs a n, isDevice s.params x.toNat = true)
    (k : Access) (v : Word) : s.record k a n v = { s with deviceLog := s.deviceLog ++ [⟨k, a, n, v⟩] } := by
  rw [State.record, if_pos (List.any_eq_true.mpr h)]

/-- The mask that a recorded write's value is cut with keeps the bits of its size. -/
theorem and_mask_eq_trunc (sz : Size) (v : Word) : v &&& (1#32 <<< (8 * sz.bytes)) - 1#32 = trunc sz v := by
  apply BitVec.eq_of_getLsbD_eq
  intro i hi
  rw [BitVec.getLsbD_and, trunc_getLsbD sz v hi, Bool.and_comm]
  congr 1
  revert i
  cases sz <;> decide

/-- Settles O22: every byte of the access is a device's. -/
theorem deviceAccessesAreRecorded : Obligations.DeviceAccessesAreRecorded := by
  intro s a v sz ha h
  have hdev : ∀ x ∈ byteAddrs a sz.bytes, isDevice s.params x.toNat = true := fun x hx => by
    simp [isDevice, (h x hx).1]
  have hsome : ∃ x ∈ byteAddrs a sz.bytes, isDevice s.params x.toNat = true := by
    have hx : a ∈ byteAddrs a sz.bytes := by cases sz <;> exact List.mem_cons_self
    exact ⟨a, hx, hdev a hx⟩
  constructor
  · have hfault : readFault s.params .read (byteAddrs a sz.bytes) = none := by
      simp only [readFault, Option.map_eq_none_iff, List.find?_eq_none]
      intro x hx
      simp [(h x hx).1]
    rw [memRead_of_aligned ha]
    simp only [readUnit, hfault, readValue, readBytes_device hdev, byteAddrs_length]
    exact congrArg _ (record_device (s := { s with draws := s.draws + sz.bytes }) hsome _ _)
  · have hstop : writeStop s.params (byteAddrs a sz.bytes) = none := by
      refine List.findSome?_eq_none_iff.mpr fun x hx => ?_
      rw [byteWriteStop_device (h x hx).1, (h x hx).2, if_neg Bool.false_ne_true]
    have hw : writeBytes ((byteAddrs a sz.bytes).zip (beBytes v sz.bytes)) s = s :=
      writeBytes_device fun c hc => hdev c.1 (List.of_mem_zip (a := c.1) (b := c.2) hc).1
    rw [memWrite_of_aligned ha]
    simp only [writeUnit, hstop, hw, and_mask_eq_trunc]
    rw [record_device hsome]

/-! ### Absolute short addressing (R48, R109) -/

/-- Settles O26: the sign-extended halves are the addresses below 2^15 and the last 2^15. -/
theorem absoluteShortReach : Obligations.AbsoluteShortReach := by
  intro s sz x y
  have hres : ∀ a : Half, resolve (.absW a) sz x s = .ok (.mem (a.signExtend 32)) s := fun _ => rfl
  have hval : ∀ a : Half, (a.signExtend 32).toNat = if a.msb then a.toNat + 0xFFFF0000 else a.toNat := fun a => by
    rw [BitVec.toNat_signExtend, BitVec.toNat_setWidth]
    have := a.isLt
    split <;> omega
  constructor
  · rintro ⟨a, ha⟩
    rw [hres] at ha
    cases ha
    have := a.isLt
    rw [hval, BitVec.msb_eq_decide]
    simp only [decide_eq_true_eq]
    split <;> omega
  · intro hy
    refine ⟨y.setWidth 16, ?_⟩
    have heq : (y.setWidth 16).signExtend 32 = y := by
      apply BitVec.eq_of_toNat_eq
      have := y.isLt
      rw [hval, BitVec.msb_eq_decide, BitVec.toNat_setWidth]
      simp only [decide_eq_true_eq]
      split <;> omega
    rw [hres, heq]

end Sys2Proof.Machine
end

section
/-! ### Operands whose access faults (R114, R130, R208) -/

namespace Sys2Proof.Machine

theorem State.setA_setA (s : State) (n : AReg) (v w : Word) : (s.setA n v).setA n w = s.setA n w := by
  simp only [State.setA, Vector.set_set]

/-- What an operand's side effect did to its register is forgotten with it (R130). -/
@[simp] theorem unspecify_stepEa (ea : Ea) (sz : Size) (s : State) :
    unspecify ea (stepEa ea sz s) = unspecify ea s := by
  cases ea with
  | postinc n | predec n => simp only [unspecify, steppedReg, stepEa, State.setA_setA, State.setA_draws]
  | _ => rfl

theorem forgetStepped_raise {α : Type} (ea : Ea) (c : Cause) (s : State) :
    forgetStepped (steppedReg ea) (.raise c s : Res α) = .raise c (unspecify ea s) := by
  cases ea <;> rfl

theorem ReadFaults.of_eq {s t : State} {a : Word} {n : Nat} {c : Cause} (hp : t.params = s.params)
    (h : ReadFaults s a n c) : ReadFaults t a n c := by
  simpa only [ReadFaults, PlainBytes, hp] using h

theorem WriteFaults.of_eq {s t : State} {a : Word} {n : Nat} {c : Cause} (hp : t.params = s.params)
    (h : WriteFaults s a n c) : WriteFaults t a n c := by
  simpa only [WriteFaults, hp] using h

/-- An index word's check raises before its operand's register is stepped (R114). -/
theorem withOperand_stopped {α : Type} {ea : Ea} {sz : Size} {x : Word} {s : State} {c : Cause}
    (h : eaStop s.params ea x = some (.cause c)) (k : Operand → State → Res α) :
    withOperand ea sz x s k = .raise c s := by
  simp only [withOperand, resolve, h, Stop.toRes, Res.bind_raise]

theorem withOperand_read_faults {α : Type} {ea : Ea} {sz : Size} {x : Word} {s : State} {c : Cause}
    (hm : eaInMemory ea = true) (hs : eaStop s.params ea x = none) (h : ReadFaults s (effAddr ea sz x s) sz.bytes c)
    (k : Operand → Word → State → Res α) :
    (withOperand ea sz x s fun op s1 => (readOp op sz s1).bind (k op)) = .raise c (unspecify ea s) := by
  rw [withOperand_resolved hs, operandOf_memory hm, readOp, memRead_faults (h.of_eq (stepEa_params ea sz s)),
    Res.bind_raise, forgetStepped_raise, unspecify_stepEa]

theorem withOperand_write_faults {α : Type} {ea : Ea} {sz : Size} {x : Word} {s : State} {c : Cause}
    (hm : eaInMemory ea = true) (hs : eaStop s.params ea x = none) (h : WriteFaults s (effAddr ea sz x s) sz.bytes c)
    (v : Word) (k : Unit → State → Res α) :
    (withOperand ea sz x s fun op s1 => (writeOp op sz v s1).bind k) = .raise c (unspecify ea s) := by
  rw [withOperand_resolved hs, operandOf_memory hm, writeOp, memWrite_faults (h.of_eq (stepEa_params ea sz s)),
    Res.bind_raise, forgetStepped_raise, unspecify_stepEa]

/-- A destination that is read first and whose write then faults (R118). -/
theorem withOperand_modify_faults {α : Type} {ea : Ea} {sz : Size} {x : Word} {s : State} {c : Cause}
    (hm : eaInMemory ea = true) (hr : EaReadable ea sz x s) (h : WriteFaults s (effAddr ea sz x s) sz.bytes c)
    (f : Word → State → Word) (k : Word → State → Unit → State → Res α) :
    (withOperand ea sz x s fun op s1 => (readOp op sz s1).bind fun v s2 =>
      (writeOp op sz (f v s2) s2).bind (k v s2)) = .raise c (unspecify ea s) := by
  rw [withOperand_resolved hr.1, readOp_operandOf hr, Res.bind_ok, operandOf_memory hm, writeOp,
    memWrite_faults (h.of_eq (stepEa_params ea sz s)), Res.bind_raise, forgetStepped_raise, unspecify_stepEa]

/-! ### The operand an instruction reads or writes first -/

theorem baseIsAlsoData_of_memory {src : Ea} (h : eaInMemory src = true) (dst : Ea) :
    baseIsAlsoData src dst = false := by
  cases src <;> first | rfl | cases h

/-- MOVE from memory begins with its source, whatever gives its destination (R206). -/
theorem moveBody_of_memory {sz : Size} {src : Ea} (h : eaInMemory src = true) (dst : Ea) (getDst : State → Res Ea)
    (s : State) : ∃ k : Word → State → Res Unit, moveBody sz src dst getDst s =
      withOperand src sz (s.pc + 2) s fun op s1 => (readOp op sz s1).bind k :=
  ⟨_, if_neg (by rw [baseIsAlsoData_of_memory h]; exact Bool.false_ne_true)⟩

/-- MOVE from a plain source goes on with its destination (R119). -/
theorem moveBody_source_read {sz : Size} {src dst : Ea} {s : State} (hb : baseIsAlsoData src dst = false)
    (hs : EaReadable src sz (s.pc + 2) s) (getDst : State → Res Ea) :
    ∃ v k, moveBody sz src dst getDst s =
      forgetStepped (steppedReg src) ((getDst (stepEa src sz s)).bind fun ea s2 =>
        withOperand ea sz (s2.pc + 2 + BitVec.ofNat 32 (2 * src.words sz)) s2 fun op s3 =>
          (writeOp op sz v s3).bind k) := by
  have hsrc : EaReadable src sz s.ext s := hs
  refine ⟨eaValue src sz (s.pc + 2) s,
    fun _ t => .ok () (t.setCcr (ccrLogic t.ccr sz (eaValue src sz (s.pc + 2) s))), ?_⟩
  rw [moveBody, if_neg (by rw [hb]; exact Bool.false_ne_true), moveSource, withOperand_read hsrc]
  rfl

theorem bsetBody_of_memory {ea : Ea} (h : eaInMemory ea = true) (b : Nat) (x : Word) (s : State) :
    ∃ (f : Word → State → Word) (k : Word → State → Unit → State → Res Unit), bsetBody b ea x s =
      withOperand ea .b x s fun op s1 => (readOp op .b s1).bind fun v s2 =>
        (writeOp op .b (f v s2) s2).bind (k v s2) := by
  cases ea <;> first | exact ⟨_, _, rfl⟩ | cases h

/-- ADD, SUB and AND to memory and BSET read their destination and write it back (R118, R132, R173). -/
theorem exec_modifies {i : Instr} {sz : Size} {ea : Ea} {x : Word} {dy : DReg} {num : Half} {s : State}
    (hm : eaInMemory ea = true)
    (hi : sz = .l ∧ x = s.pc + 2 ∧ i ∈ [.addToEa dy ea, .subToEa dy ea, .andToEa dy ea] ∨
      sz = .b ∧ x = s.pc + 2 ∧ i = .bsetReg dy ea ∨ sz = .b ∧ x = s.pc + 2 + 2 ∧ i = .bsetImm num ea) :
    ∃ (n : Nat) (f : Word → State → Word) (k : Word → State → Unit → State → Res Unit), exec i s =
      finish n (withOperand ea sz x s fun op s1 => (readOp op sz s1).bind fun v s2 =>
        (writeOp op sz (f v s2) s2).bind (k v s2)) := by
  obtain ⟨rfl, rfl, hi⟩ | ⟨rfl, rfl, rfl⟩ | ⟨rfl, rfl, rfl⟩ := hi
  · simp only [List.mem_cons, List.not_mem_nil, or_false] at hi
    obtain rfl | rfl | rfl := hi <;> exact ⟨_, _, _, rfl⟩
  · obtain ⟨f, k, h⟩ := bsetBody_of_memory hm (s.getD dy).toNat (s.pc + 2) s
    exact ⟨_, f, k, congrArg (finish _) h⟩
  · obtain ⟨f, k, h⟩ := bsetBody_of_memory hm (num.setWidth 8).toNat (s.pc + 2 + 2) s
    exact ⟨_, f, k, congrArg (finish _) h⟩

/-- The instructions that begin with the read of an operand in memory. -/
theorem exec_reads {i : Instr} {sz : Size} {ea dst : Ea} {x : Word} {dx : DReg} {ax : AReg} {num : Half} {s : State}
    (hm : eaInMemory ea = true)
    (hi : sz = .l ∧ x = s.pc + 2 ∧ i ∈ [.addToD ea dx, .addToEa dx ea, .subToD ea dx, .subToEa dx ea, .andToD ea dx,
        .andToEa dx ea, .adda ea ax, .cmpa ea ax, .movea .l ea ax, .moveL ea dst] ∨
      sz = .w ∧ x = s.pc + 2 ∧ i ∈ [.movea .w ea ax, .moveW ea dst] ∨
      sz = .b ∧ x = s.pc + 2 ∧ i ∈ [.moveB ea dst, .bsetReg dx ea] ∨
      sz = .b ∧ x = s.pc + 2 + 2 ∧ i = .bsetImm num ea) :
    ∃ (n : Nat) (k : Operand → Word → State → Res Unit), exec i s =
      finish n (withOperand ea sz x s fun op s1 => (readOp op sz s1).bind (k op)) := by
  have hmove : ∀ sz, ∃ (n : Nat) (k : Operand → Word → State → Res Unit), exec (.move sz ea dst) s =
      finish n (withOperand ea sz (s.pc + 2) s fun op s1 => (readOp op sz s1).bind (k op)) := fun sz => by
    obtain ⟨k, h⟩ := moveBody_of_memory (sz := sz) hm dst (.ok dst) s
    exact ⟨_, fun _ => k, by rw [exec_move, h]⟩
  have hmod : ∀ {i sz x}, sz = .l ∧ x = s.pc + 2 ∧ i ∈ [.addToEa dx ea, .subToEa dx ea, .andToEa dx ea] ∨
      sz = .b ∧ x = s.pc + 2 ∧ i = .bsetReg dx ea ∨ sz = .b ∧ x = s.pc + 2 + 2 ∧ i = .bsetImm num ea →
      ∃ (n : Nat) (k : Operand → Word → State → Res Unit), exec i s =
        finish n (withOperand ea sz x s fun op s1 => (readOp op sz s1).bind (k op)) := fun hi => by
    obtain ⟨n, f, k, h⟩ := exec_modifies hm hi
    exact ⟨n, _, h⟩
  obtain ⟨rfl, rfl, hi⟩ | ⟨rfl, rfl, hi⟩ | ⟨rfl, rfl, hi⟩ | hi := hi
  · simp only [List.mem_cons, List.not_mem_nil, or_false] at hi
    obtain rfl | rfl | rfl | rfl | rfl | rfl | rfl | rfl | rfl | rfl := hi
    · exact ⟨_, _, rfl⟩
    · exact hmod (.inl ⟨rfl, rfl, by simp⟩)
    · exact ⟨_, _, rfl⟩
    · exact hmod (.inl ⟨rfl, rfl, by simp⟩)
    · exact ⟨_, _, rfl⟩
    · exact hmod (.inl ⟨rfl, rfl, by simp⟩)
    · exact ⟨_, _, rfl⟩
    · exact ⟨_, _, rfl⟩
    · exact ⟨_, _, rfl⟩
    · exact hmove .l
  · simp only [List.mem_cons, List.not_mem_nil, or_false] at hi
    obtain rfl | rfl := hi
    · exact ⟨_, _, rfl⟩
    · exact hmove .w
  · simp only [List.mem_cons, List.not_mem_nil, or_false] at hi
    obtain rfl | rfl := hi
    · exact hmove .b
    · exact hmod (.inr (.inl ⟨rfl, rfl, rfl⟩))
  · exact hmod (.inr (.inr hi))

/-! ### MOVEM's transfers up to one that faults (R155) -/

theorem placeBytes_append (bs cs : List Byte) (a : Word) (s : State) :
    placeBytes (bs ++ cs) a s = placeBytes cs (a + BitVec.ofNat 32 bs.length) (placeBytes bs a s) := by
  induction bs generalizing a s with
  | nil => rw [List.length_nil, BitVec.add_zero]; rfl
  | cons b bs ih => rw [List.cons_append, placeBytes, ih, placeBytes, List.length_cons, add_ofNat_succ]

/-- Longword `j + 1` at an address is longword `j` at the next. -/
theorem add_four_add_ofNat (a : Word) (j : Nat) :
    a + 4 + BitVec.ofNat 32 (4 * j) = a + BitVec.ofNat 32 (4 * (j + 1)) := by
  rw [Nat.mul_succ, Nat.add_comm, BitVec.ofNat_add, BitVec.add_assoc]
  rfl

/-- The stores before the one that faults stay done. -/
theorem storeAll_faults {k : Nat} {vs : List Word} {a : Word} {c : Cause} {s : State} (hk : k < vs.length)
    (hw : ∀ j < k, Writable s (a + BitVec.ofNat 32 (4 * j)) 4)
    (hf : WriteFaults s (a + BitVec.ofNat 32 (4 * k)) 4 c) :
    storeAll vs a s = .raise c (placeBytes ((vs.take k).flatMap fun v => beBytes v 4) a s) := by
  induction k generalizing vs a s with
  | zero =>
    obtain ⟨v, vs, rfl⟩ := List.exists_cons_of_length_pos hk
    rw [Nat.mul_zero, BitVec.add_zero] at hf
    rw [storeAll, memWrite_faults hf]
    rfl
  | succ k ih =>
    obtain ⟨v, vs, rfl⟩ := List.exists_cons_of_length_pos (Nat.zero_lt_of_lt hk)
    have hfirst := hw 0 (Nat.succ_pos k)
    rw [Nat.mul_zero, BitVec.add_zero] at hfirst
    have hp : (placeBytes (beBytes v 4) a s).params = s.params := placeBytes_params _ _ _
    have hrest := ih (vs := vs) (a := a + 4) (s := placeBytes (beBytes v 4) a s) (Nat.lt_of_succ_lt_succ hk)
      (fun j hj => add_four_add_ofNat a j ▸ (hw (j + 1) (Nat.succ_lt_succ hj)).of_eq hp)
      (add_four_add_ofNat a k ▸ hf.of_eq hp)
    rw [storeAll, memWrite_plain hfirst, Res.bind_ok, hrest, List.take_succ_cons, List.flatMap_cons, placeBytes_append,
      beBytes_length]
    rfl

theorem setR_params (s : State) (r : AnyReg) (v : Word) : (s.setR r v).params = s.params := by cases r <;> rfl

theorem valueAt_of_mem {s t : State} (h : t.mem = s.mem) (a : Word) (n : Nat) : valueAt t a n = valueAt s a n := by
  simp only [valueAt, byteAt_of_mem h]

/-- The loads before the one that faults stay done; `i` longwords at `a` have been transferred in `t`. -/
theorem loadAll_faults {k i : Nat} {rs : List AnyReg} {a : Word} {c : Cause} {s t : State} (hk : k < rs.length)
    (hp : t.params = s.params) (hm : t.mem = s.mem)
    (hr : ∀ j < k, Readable s (a + BitVec.ofNat 32 (4 * (i + j))) 4)
    (hf : ReadFaults s (a + BitVec.ofNat 32 (4 * (i + k))) 4 c) :
    loadAll rs (a + BitVec.ofNat 32 (4 * i)) t =
      .raise c (((rs.take k).zipIdx i).foldl
        (fun t r => t.setR r.1 (valueAt s (a + BitVec.ofNat 32 (4 * r.2)) 4)) t) := by
  induction k generalizing rs i t with
  | zero =>
    obtain ⟨r, rs, rfl⟩ := List.exists_cons_of_length_pos hk
    have hread : ReadFaults t (a + BitVec.ofNat 32 (4 * i)) 4 c := hf.of_eq hp
    rw [loadAll, memRead_faults hread]
    rfl
  | succ k ih =>
    obtain ⟨r, rs, rfl⟩ := List.exists_cons_of_length_pos (Nat.zero_lt_of_lt hk)
    have hnext : a + BitVec.ofNat 32 (4 * i) + 4 = a + BitVec.ofNat 32 (4 * (i + 1)) := by
      rw [Nat.mul_succ, BitVec.ofNat_add, BitVec.add_assoc]
      rfl
    have hread : Readable t (a + BitVec.ofNat 32 (4 * i)) 4 := (hr 0 (Nat.succ_pos k)).of_eq hp
    have hj : ∀ j, i + 1 + j = i + (j + 1) := fun j => by omega
    rw [loadAll, memRead_plain hread, Res.bind_ok, hnext, valueAt_of_mem hm]
    exact ih (Nat.lt_of_succ_lt_succ hk) ((setR_params _ _ _).trans hp) ((setR_mem _ _ _).trans hm)
      (fun j hlt => hj j ▸ hr (j + 1) (Nat.succ_lt_succ hlt)) (hj k ▸ hf)

/-- MOVEM's operand is its effective address, and it steps no register. -/
theorem withOperand_movem {ea : Ea} {x : Word} {s : State} (hm : ea.isMovem = true) (k : Word → State → Res Unit) :
    (withOperand ea .l x s fun op s1 => (operandAddr op s1).bind k) = k (effAddr ea .l x s) s := by
  have hstop : eaStop s.params ea x = none := by cases ea <;> first | rfl | cases hm
  obtain ⟨hmem, hstep⟩ := eaInMemory_of_isMovem hm
  rw [withOperand_resolved hstop, operandOf_memory hmem, stepEa_none hstep, hstep]
  rfl

/-! ### The fault is taken -/

theorem exec_clr_stopped {ea : Ea} {c : Cause} {s : State} (h : eaStop s.params ea (s.pc + 2) = some (.cause c))
    (sz : Size) : exec (.clr sz ea) s = takeException c s := by
  have hstop : eaStop s.params ea s.ext = some (.cause c) := h
  rw [exec_clr, clrBody, withOperand_stopped hstop, finish_raise]

theorem exec_clr_faults {sz : Size} {ea : Ea} {c : Cause} {s : State} (hm : eaInMemory ea = true)
    (hs : eaStop s.params ea (s.pc + 2) = none) (h : WriteFaults s (effAddr ea sz (s.pc + 2) s) sz.bytes c) :
    exec (.clr sz ea) s = takeException c (unspecify ea s) := by
  have hstop : eaStop s.params ea s.ext = none := hs
  rw [exec_clr, clrBody, withOperand_write_faults hm hstop h, finish_raise]

/-- A MOVE whose destination faults has made its source's step, and leaves both registers unspecified (R119, R130). -/
theorem exec_move_destination_faults {sz : Size} {src dst : Ea} {c : Cause} {s : State}
    (hb : baseIsAlsoData src dst = false) (hm : eaInMemory dst = true) (hs : EaReadable src sz (s.pc + 2) s) :
    let s1 := stepEa src sz s
    let x := s.pc + 2 + BitVec.ofNat 32 (2 * src.words sz)
    (eaStop s.params dst x = some (.cause c) → exec (.move sz src dst) s = takeException c (unspecify src s1)) ∧
      (eaStop s.params dst x = none → WriteFaults s1 (effAddr dst sz x s1) sz.bytes c →
        exec (.move sz src dst) s = takeException c (unspecify src (unspecify dst s1))) := by
  obtain ⟨v, k, hbody⟩ := moveBody_source_read hb hs (.ok dst)
  rw [Res.bind_ok, stepEa_pc] at hbody
  rw [← stepEa_params src sz s]
  constructor
  · intro hstop
    rw [exec_move, hbody, withOperand_stopped hstop, forgetStepped_raise, finish_raise]
  · intro hstop hw
    rw [exec_move, hbody, withOperand_write_faults hm hstop hw, forgetStepped_raise, finish_raise]

/-- A step of a MOVE whose source faults takes the exception before the destination's words are fetched (R206). -/
theorem step_move_source_faults {sz : Size} {src dst : Ea} {c : Cause} {s : State} (hrun : s.status = .running)
    (hrec : s.faultRecord = none) (hf : fetchInstr s = .ok (.move sz src dst) s) (hm : eaInMemory src = true)
    (hs : eaStop s.params src (s.pc + 2) = none) (h : ReadFaults s (effAddr src sz (s.pc + 2) s) sz.bytes c) :
    step s = takeException c (unspecify src s) := by
  rw [step_of_fetched hrun hrec hf, runFetched_move, runMove]
  obtain ⟨k, hk⟩ := moveBody_of_memory (sz := sz) hm dst
    (fetchDst sz dst (s.ext + BitVec.ofNat 32 (2 * src.words sz))) s
  rw [hk, withOperand_read_faults hm hs h fun _ => k, finish_raise]

/-- Settles O54: each access by the lemma of its instruction's form. -/
theorem operandFaultsAreTaken : Obligations.OperandFaultsAreTaken := by
  refine ⟨?_, ?_, ?_, ?_, ?_, ?_, ?_⟩
  · intro i sz ea x dst dx ax num c s hi hm
    obtain ⟨n, k, he⟩ := exec_reads hm hi
    refine ⟨fun hs => ?_, fun hs h => ?_⟩
    · rw [he, withOperand_stopped hs, finish_raise]
    · rw [he, withOperand_read_faults hm hs h, finish_raise]
  · intro ea c ax s hs
    have hstop : eaStop s.params ea s.ext = some (.cause c) := hs
    have hlea : exec (.lea ea ax) s = takeException c s := by
      rw [exec, execLea, withOperand_stopped hstop, finish_raise]
    exact ⟨hlea, exec_clr_stopped hs .b, exec_clr_stopped hs .w, exec_clr_stopped hs .l⟩
  · intro i sz ea x dy num c s hi hm hs h
    obtain ⟨rfl, rfl, rfl⟩ | ⟨rfl, rfl, rfl⟩ | ⟨rfl, rfl, rfl⟩ | ⟨hr, hi⟩ := hi
    · exact exec_clr_faults hm hs h
    · exact exec_clr_faults hm hs h
    · exact exec_clr_faults hm hs h
    · obtain ⟨n, f, k, he⟩ := exec_modifies hm hi
      rw [he, withOperand_modify_faults hm hr h, finish_raise]
  · intro i sz src dst c s hi hb hm hs
    obtain rfl := eq_move_of_size hi
    exact exec_move_destination_faults (baseIsAlsoData_eq_false hb) hm hs
  · intro mask ea k c s hm hk
    refine ⟨fun hw hf => ?_, fun hr hf => ?_⟩
    · have hstore := storeAll_faults (vs := (maskRegs mask).map s.getR) (by rwa [List.length_map]) hw hf
      rw [← List.map_take, List.flatMap_map] at hstore
      rw [exec, execMovemStore, withOperand_movem hm]
      exact congrArg _ hstore
    · have hload := loadAll_faults (i := 0) (t := s) hk rfl rfl (by simpa only [Nat.zero_add] using hr)
        (by simpa only [Nat.zero_add] using hf)
      rw [Nat.mul_zero, BitVec.add_zero] at hload
      rw [exec, execMovemLoad, withOperand_movem hm]
      exact congrArg _ hload
  · intro disp c s
    refine ⟨fun h => ?_, fun h => ?_⟩
    · rw [exec, execBsr, memWrite_faults (h.of_eq (State.setA_params _ _ _)), Res.bind_raise, deliver_raise]
    · rw [exec, execRts, memRead_faults h, Res.bind_raise, deliver_raise]
  · intro i sz src dst c s hrun hrec heven hp hd htop hi hm hs h
    obtain rfl := eq_move_of_size hi
    have hearly : earlyWords (.move sz src dst) = src.words sz := earlyWords_move sz src dst
    exact step_move_source_faults hrun hrec
      (fetchInstr_plain heven (by rwa [hearly]) (by rwa [hearly]) htop) hm hs h

end Sys2Proof.Machine
end

section
/-! ### Fetches that fault, and odd targets (R43, R49, R206) -/

namespace Sys2Proof.Machine

theorem fetchInstr_odd {s : State} (h : s.pc.getLsbD 0 = true) :
    fetchInstr s = .raise (.addressError s.pc .oddPc) s := by
  rw [fetchInstr, if_pos h]

/-- An operation word of which a byte is the first outside every range is not fetched (R49, R206). -/
theorem fetchInstr_opWord_outside {s : State} {k : Nat} (heven : s.pc.getLsbD 0 = false) (hk : k < 2)
    (hin : ∀ x ∈ byteAddrs s.pc k, kindAt s.params x.toNat ≠ none)
    (hout : kindAt s.params (s.pc + BitVec.ofNat 32 k).toNat = none) :
    fetchInstr s = .raise (.accessError (s.pc + BitVec.ofNat 32 k) .fetch false) s := by
  simp only [fetchInstr, heven, readFault_first .fetch hk hin hout, Bool.false_eq_true, if_false]

/-- Where the words before a missing early word are not refused, its exception is raised and nothing is changed
(R206). -/
theorem fetchInstr_missing {s : State} {i : Instr} {m : Nat} (heven : s.pc.getLsbD 0 = false)
    (hp : PlainBytes s s.pc (2 + m)) (hd : decode (opWordAt s) (extWordsAt s m) = .ok i)
    (htop : s.pc.toNat + 2 * i.words ≤ 2 ^ 32) (hm : m < 2 * earlyWords i)
    (hout : kindAt s.params (s.pc + 2 + BitVec.ofNat 32 m).toNat = none) :
    fetchInstr s = .raise (.accessError (s.pc + 2 + BitVec.ofNat 32 m) .fetch false) s := by
  obtain ⟨hop, hext⟩ := plainBytes_add hp
  have hw : (valueAt s s.pc 2).setWidth 16 = opWordAt s := fetched_half s s.pc
  have hf : fetchExts (earlyWords i) s.ext s =
      ⟨extWordsAt s m, some (.accessError (s.pc + 2 + BitVec.ofNat 32 m) .fetch false), s⟩ :=
    fetchExts_missing hext hm hout
  have ht : ¬2 ^ 32 < s.pc.toNat + 2 * i.words := Nat.not_lt.mpr htop
  simp only [fetchInstr, heven, readFault_plain hop, readValue_plain hop, hw, decode_nil hd, Instr.blank_words,
    earlyWords_blank, ht, hf, hd, if_false, Bool.false_eq_true]

/-- The words after the operation word, cut after the first `k` whole ones. -/
theorem extWordsAt_cut (s : State) (k r : Nat) :
    extWordsAt s (2 * k + r) = extWordsAt s (2 * k) ++
      halvesOfBytes ((byteAddrs (s.pc + 2 + BitVec.ofNat 32 (2 * k)) r).map fun x => s.byteAt x.toNat) := by
  rw [extWordsAt, extWordsAt, byteAddrs_add, List.map_append]
  exact halvesOfBytes_append (by rw [List.length_map, byteAddrs_length]) _

theorem fetchDst_missing {sz : Size} {dst : Ea} {x : Word} {s : State} {m : Nat} (hp : PlainBytes s x m)
    (hm : m < 2 * dst.words sz) (hout : kindAt s.params (x + BitVec.ofNat 32 m).toNat = none) :
    fetchDst sz dst x s = .raise (.accessError (x + BitVec.ofNat 32 m) .fetch false) s := by
  simp only [fetchDst, fetchExts_missing hp hm hout]

/-- R120's destinations have no words of their own. -/
theorem baseIsAlsoData_of_words {sz : Size} {dst : Ea} (h : 0 < dst.words sz) (src : Ea) :
    baseIsAlsoData src dst = false :=
  baseIsAlsoData_eq_false fun n _ => by
    constructor <;> rintro rfl <;> exact absurd h (Nat.lt_irrefl 0)

/-- A MOVE of which byte `r` of the destination's words is missing has read its source, and leaves the register that
the source stepped unspecified (R130, R206). -/
theorem step_move_missing {sz : Size} {src dst : Ea} {s : State} {r : Nat} (hrun : s.status = .running)
    (hrec : s.faultRecord = none) (hf : fetchInstr s = .ok (.move sz src dst) s) (hs : EaReadable src sz (s.pc + 2) s)
    (hp : PlainBytes s (s.pc + 2 + BitVec.ofNat 32 (2 * src.words sz)) r) (hr : r < 2 * dst.words sz)
    (hout : kindAt s.params (s.pc + 2 + BitVec.ofNat 32 (2 * src.words sz) + BitVec.ofNat 32 r).toNat = none) :
    step s = takeException
      (.accessError (s.pc + 2 + BitVec.ofNat 32 (2 * src.words sz) + BitVec.ofNat 32 r) .fetch false)
      (unspecify src s) := by
  have hpar : (stepEa src sz s).params = s.params := stepEa_params src sz s
  have hdst : fetchDst sz dst (s.ext + BitVec.ofNat 32 (2 * src.words sz)) (stepEa src sz s) = .raise _ _ :=
    fetchDst_missing (by rwa [PlainBytes, hpar]) hr (by rw [hpar]; exact hout)
  obtain ⟨v, k, hbody⟩ := moveBody_source_read (baseIsAlsoData_of_words (sz := sz) (dst := dst) (by omega) src) hs
    (fetchDst sz dst (s.ext + BitVec.ofNat 32 (2 * src.words sz)))
  rw [step_of_fetched hrun hrec hf, runFetched_move, runMove, hbody, hdst, Res.bind_raise, forgetStepped_raise,
    unspecify_stepEa, finish_raise]
  rfl

/-- Settles O9: the operation word, an early word, and a word of a MOVE's destination, which is fetched once its source
is read. -/
theorem fetchOutsideMemRaisesAccessError : Obligations.FetchOutsideMemRaisesAccessError := by
  intro s hrun hrec heven
  refine ⟨fun h0 => ?_, fun h0 h1 => ?_, fun i m hp hd htop hout => ?_⟩
  · have hf := fetchInstr_opWord_outside (k := 0) heven (by decide) nofun (by rwa [BitVec.add_zero])
    rw [BitVec.add_zero] at hf
    exact step_of_fetch_raised hrun hrec hf
  · have hin : ∀ x ∈ byteAddrs s.pc 1, kindAt s.params x.toNat ≠ none := fun x hx => by
      rw [List.mem_singleton.mp hx]
      exact h0
    exact step_of_fetch_raised hrun hrec (fetchInstr_opWord_outside (k := 1) heven (by decide) hin h1)
  · have hearly : m < 2 * earlyWords i →
        step s = takeException (.accessError (s.pc + 2 + BitVec.ofNat 32 m) .fetch false) s := fun hm =>
      step_of_fetch_raised hrun hrec (fetchInstr_missing heven hp hd htop hm hout)
    constructor
    · intro hnot hm
      have hi : i.isMove = false := by
        cases i with
        | moveB src dst | moveW src dst | moveL src dst => simpa using hnot src dst
        | _ => rfl
      exact hearly (by rwa [earlyWords_of_not_move hi])
    · intro sz src dst hi
      obtain rfl := eq_move_of_size hi
      refine ⟨fun hm => hearly (by rwa [earlyWords_move]), fun hge hm hs => ?_⟩
      obtain ⟨r, rfl⟩ := Nat.exists_eq_add_of_le hge
      rw [extWordsAt_cut] at hd
      obtain ⟨hd0, _⟩ := decode_move hd (extWordsAt_length s _)
      rw [← Nat.add_assoc] at hp
      obtain ⟨hp0, hp1⟩ := plainBytes_add hp
      have hf : fetchInstr s = .ok (.move sz src dst.blank) s :=
        fetchInstr_plain heven (by simpa using hp0) (by simpa using hd0) (by simpa using htop)
      rw [BitVec.ofNat_add, ← BitVec.add_assoc] at hout hp1 ⊢
      exact step_move_missing hrun hrec hf hs hp1 (by rw [Ea.blank_words]; omega) hout

/-! ### Branches to an odd target (R43, R181, R184, R185) -/

theorem branchIf_next (b : Bool) (disp : BranchDisp) (s : State) :
    ∃ t, branchIf b disp s = .next t ∧ (t.pc = branchTarget disp s ∨ t.pc = branchNext disp s) := by
  refine ⟨_, rfl, ?_⟩
  cases b with
  | true => exact .inl rfl
  | false => exact .inr rfl

/-- BRA and the conditional branches write pc and nothing else. -/
theorem exec_branch {i : Instr} {disp : BranchDisp}
    (hi : i ∈ [.bra disp, .bhi disp, .bls disp, .bcc disp, .bcs disp, .bne disp, .beq disp, .bvc disp, .bvs disp,
      .bpl disp, .bmi disp, .bge disp, .blt disp, .bgt disp, .ble disp]) (s : State) :
    ∃ b, exec i s = branchIf b disp s := by
  simp only [List.mem_cons, List.not_mem_nil, or_false] at hi
  obtain rfl | rfl | rfl | rfl | rfl | rfl | rfl | rfl | rfl | rfl | rfl | rfl | rfl | rfl | rfl := hi <;>
    exact ⟨_, rfl⟩

/-- Settles O8: a branch writes its target whatever its lowest bit, and the fetch checks that bit first. -/
theorem oddPcRaisesAddressError : Obligations.OddPcRaisesAddressError := by
  refine ⟨?_, ?_, ?_, ?_⟩
  · intro s hrun hrec hodd
    exact step_of_fetch_raised hrun hrec (fetchInstr_odd hodd)
  · intro i disp s move len hi
    obtain ⟨b, he⟩ := exec_branch hi s
    obtain ⟨t, ht, hpc⟩ := branchIf_next b disp s
    refine ⟨t, he.trans ht, ?_⟩
    cases disp <;> exact hpc
  · intro disp s h move
    have hpush := memWrite_plain (v := branchNext disp s) (h.of_eq (State.setA_params s .sp (s.getA .sp - 4)))
    refine ⟨_, by rw [exec, execBsr, hpush, Res.bind_ok, deliver_ok], ?_⟩
    cases disp <;> rfl
  · intro s h
    exact ⟨_, by rw [exec, execRts, memRead_plain h, Res.bind_ok, deliver_ok], rfl⟩

end Sys2Proof.Machine
end

section
/-! ### Faults in an exception's entry (R214, R217) -/

namespace Sys2Proof.Machine

/-- A longword is aligned where the low two bits of its address are zero. -/
theorem aligned_four_iff {a : Word} : aligned a 4 = true ↔ a &&& 3#32 = 0#32 := by
  have hmod : a.toNat &&& 3 = a.toNat % 4 := Nat.and_two_pow_sub_one_eq_mod a.toNat 2
  simp only [aligned, beq_iff_eq, ← BitVec.toNat_inj, BitVec.toNat_and, BitVec.toNat_ofNat, Nat.reducePow,
    Nat.reduceMod, hmod]

theorem aligned_four_add {a b : Word} (ha : aligned a 4 = true) (hb : aligned b 4 = true) :
    aligned (a + b) 4 = true := by
  simp only [aligned, beq_iff_eq, BitVec.toNat_add] at ha hb ⊢
  omega

/-- A frame starts at a longword (R214). -/
theorem aligned_frameAddr (sp : Word) : aligned (frameAddr sp) 4 = true := by
  rw [aligned_four_iff, frameAddr, BitVec.and_assoc]
  exact BitVec.and_zero

/-- So does every entry of the vector table (R31, R215). -/
theorem aligned_vectorEntry (s : State) (v : Byte) : aligned (s.vbrBase + 4 * v.setWidth 32) 4 = true := by
  have hbase : aligned s.vbrBase 4 = true := by
    rw [aligned_four_iff, State.vbrBase, BitVec.and_assoc]
    exact BitVec.and_zero
  have hindex : aligned (4 * v.setWidth 32) 4 = true := by
    have hfour : (4 : Word).toNat = 4 := rfl
    simp only [aligned, beq_iff_eq, BitVec.toNat_mul, hfour]
    omega
  exact aligned_four_add hbase hindex

/-- A longword that no store to it is made of: a byte of it stands outside `MEM` or in rom, and none in the program
text. -/
abbrev UnwritableLong (s : State) (a : Word) : Prop :=
  (∀ x ∈ byteAddrs a 4, inCode s.params x.toNat = false) ∧
    ∃ x ∈ byteAddrs a 4, kindAt s.params x.toNat = none ∨ kindAt s.params x.toNat = some .rom

/-- A store to such a longword raises an exception and writes nothing. -/
theorem memWrite_unwritable {s t : State} {a : Word} (ha : aligned a 4 = true) (hp : t.params = s.params)
    (h : UnwritableLong s a) (v : Word) : ∃ c, memWrite a 4 v t = .raise c t := by
  obtain ⟨hcode, hbad⟩ := h
  rw [← hp] at hcode hbad
  obtain ⟨k, hk, hbefore, hbad⟩ := exists_first_byte hbad
  have hnone : ∀ x ∈ byteAddrs a k, byteWriteStop t.params x = none := by
    obtain ⟨rest, hcut⟩ := byteAddrs_cut a hk
    intro x hx
    have hc : inCode t.params x.toNat = false := hcode x (hcut ▸ List.mem_append_left _ hx)
    obtain ⟨hin, hrom⟩ := not_or.mp (hbefore x hx)
    cases hkind : kindAt t.params x.toNat with
    | none => exact (hin hkind).elim
    | some kind =>
      cases kind with
      | ram => rw [byteWriteStop_ram hkind, hc, if_neg Bool.false_ne_true]
      | rom => exact (hrom hkind).elim
      | device => rw [byteWriteStop_device hkind, hc, if_neg Bool.false_ne_true]
  rw [memWrite_of_aligned ha]
  obtain hout | hrom := hbad
  · exact ⟨_, writeUnit_first hk hnone (byteWriteStop_outside hout)⟩
  · exact ⟨_, writeUnit_first hk hnone (byteWriteStop_rom hrom)⟩

/-- A read of a longword with a byte outside every range raises an exception and changes nothing. -/
theorem memRead_outside {s t : State} {a : Word} (ha : aligned a 4 = true) (hp : t.params = s.params)
    (h : ∃ x ∈ byteAddrs a 4, kindAt s.params x.toNat = none) : ∃ c, memRead a 4 t = .raise c t := by
  rw [← hp] at h
  obtain ⟨k, hk, hin, hout⟩ := exists_first_byte h
  exact ⟨_, (memRead_of_aligned ha t).trans (readUnit_first .read hk hin hout)⟩

/-- An entry whose frame's first longword is not written has written nothing. -/
theorem enter_raises_at_first {s : State} (h : UnwritableLong s (frameAddr (s.getA .sp))) (v : Byte) (fs : BitVec 4)
    (pcx : Word) (irq : Option (BitVec 3)) : ∃ c u, enter v fs pcx irq s = .raise c u ∧ u.mem = s.mem := by
  obtain ⟨c, hc⟩ := memWrite_unwritable (aligned_frameAddr _) (State.setSr_params s (entrySr s.sr irq)) h
    (frameWord (s.getA .sp) fs v s.srWord)
  exact ⟨c, _, by rw [enter, hc, Res.bind_raise], State.setSr_mem _ _⟩

/-- A write of writable memory completes, and leaves every other byte as it was. -/
theorem Writable.memWrite_ok {s t : State} {a : Word} {n : Nat} (h : Writable s a n) (hp : t.params = s.params)
    (v : Word) :
    ∃ u, memWrite a n v t = .ok () u ∧ AccessFrame t u ∧ ∀ y, Outside y a n → u.byteAt y = t.byteAt y := by
  have hok := memWrite_plain (v := v) (h.of_eq hp)
  obtain ⟨hf, ho⟩ := memWrite_eq_ok hok
  exact ⟨_, hok, hf, ho⟩

/-- An entry that stops at the frame's second longword, or at the vector table's entry, has written the frame alone. -/
theorem enter_raises_later {s : State} {v : Byte} (hw : Writable s (frameAddr (s.getA .sp)) 4)
    (h : UnwritableLong s (frameAddr (s.getA .sp) + 4) ∨ Writable s (frameAddr (s.getA .sp) + 4) 4 ∧
      ∃ x ∈ byteAddrs (s.vbrBase + 4 * v.setWidth 32) 4, kindAt s.params x.toNat = none)
    (fs : BitVec 4) (pcx : Word) (irq : Option (BitVec 3)) :
    ∃ c u, enter v fs pcx irq s = .raise c u ∧
      ∀ y, Outside y (frameAddr (s.getA .sp)) 8 → u.byteAt y = s.byteAt y := by
  have hcut : byteAddrs (frameAddr (s.getA .sp)) 8 =
      byteAddrs (frameAddr (s.getA .sp)) 4 ++ byteAddrs (frameAddr (s.getA .sp) + 4) 4 := byteAddrs_add _ 4 4
  obtain ⟨s1, h1, hf1, ho1⟩ := hw.memWrite_ok (State.setSr_params s (entrySr s.sr irq))
    (frameWord (s.getA .sp) fs v s.srWord)
  have hbytes1 : ∀ y, Outside y (frameAddr (s.getA .sp)) 8 → s1.byteAt y = s.byteAt y := fun y hy =>
    ho1 y fun x hx => hy x (hcut ▸ List.mem_append_left _ hx)
  obtain hbad | ⟨hw2, hvec⟩ := h
  · obtain ⟨c, hc⟩ := memWrite_unwritable (aligned_four_add (aligned_frameAddr (s.getA .sp)) (by decide)) hf1.params
      hbad pcx
    exact ⟨c, s1, by rw [enter, h1, Res.bind_ok, hc, Res.bind_raise], hbytes1⟩
  · obtain ⟨s2, h2, hf2, ho2⟩ := hw2.memWrite_ok hf1.params pcx
    have hbase : s2.vbrBase = s.vbrBase := by rw [State.vbrBase, hf2.vbr, hf1.vbr]; rfl
    obtain ⟨c, hc⟩ := memRead_outside (t := s2.setA .sp (frameAddr (s.getA .sp))) (aligned_vectorEntry s v)
      (hf2.params.trans hf1.params) hvec
    refine ⟨c, _, by rw [enter, h1, Res.bind_ok, h2, Res.bind_ok, hbase, hc, Res.bind_raise], fun y hy => ?_⟩
    exact (ho2 y fun x hx => hy x (hcut ▸ List.mem_append_right _ hx)).trans (hbytes1 y hy)

/-- An error in the entry of an access or address error halts the processor (R217). -/
theorem takeException_faultOnFault {c c' : Cause} {s u : State} (hv : s.params.trapModel = .vectored)
    (hc : c.isAccessOrAddress = true) (h : enter c.vector c.faultStatus s.pc none s = .raise c' u) :
    takeException c s = .next u.haltOnFault := by
  simp only [takeException_vectored hv, enterOrHalt, h, hc, if_true]

theorem step_haltOnFault (s : State) : step s.haltOnFault = .fault .faultOnFault := rfl

/-- Settles O52: each access of the entry, in order. -/
theorem faultOnFaultHalts : Obligations.FaultOnFaultHalts := by
  intro c s hv hc sp1 entry bad
  refine ⟨fun hbad => ?_, fun hw h => ?_⟩
  · obtain ⟨c', u, he, hmem⟩ := enter_raises_at_first hbad c.vector c.faultStatus s.pc none
    exact ⟨_, takeException_faultOnFault hv hc he, rfl, step_haltOnFault u, hmem⟩
  · obtain ⟨c', u, he, hbytes⟩ := enter_raises_later hw h c.faultStatus s.pc none
    exact ⟨_, takeException_faultOnFault hv hc he, rfl, step_haltOnFault u, hbytes⟩

end Sys2Proof.Machine
end

section
/-! ### The words an instruction is read from (R60 to R73) -/

namespace Sys2Proof

/-- If `ws` has as many words as the instruction, then it begins with the words of the instruction. -/
def Instr.Begins (i : Instr) (ws : List Half) : Prop :=
  (encode i).length ≤ ws.length → encode i <+: ws

theorem ok_of_ite {c P : Prop} [Decidable c] {x y : Except DecodeError Instr} {i : Instr} (hx : c → x = .ok i → P)
    (hy : ¬c → y = .ok i → P) : (if c then x else y) = .ok i → P := by
  split_ifs with h
  · exact hx h
  · exact hy h

theorem decodeEa_map_eq_ok {mode reg : BitVec 3} {sz : Size} {xs : List Half} {f : Ea → Instr} {i : Instr}
    (h : (decodeEa mode reg sz xs).map f = .ok i) : ∃ ea, decodeEa mode reg sz xs = .ok ea ∧ i = f ea := by
  cases he : decodeEa mode reg sz xs with
  | error e => rw [he] at h; cases h
  | ok ea =>
    rw [he] at h
    exact ⟨ea, rfl, (Except.ok.inj h).symm⟩

/-- An effective address is read from its own extension words (R62, R65, R66). -/
theorem exts_prefix_of_decodeEa {mode reg : BitVec 3} {sz : Size} {xs : List Half} {ea : Ea}
    (h : decodeEa mode reg sz xs = .ok ea) (hl : (ea.exts sz).length ≤ xs.length) : ea.exts sz <+: xs := by
  obtain ⟨_, _, he⟩ := decodeEa_eq_ok h
  rw [he (by simpa using hl)]
  exact List.take_prefix _ _

theorem begins_word {w : Half} {i : Instr} (h : encode i = [w]) (xs : List Half) : i.Begins (w :: xs) :=
  fun _ => h ▸ List.prefix_append [w] xs

/-- The words of an instruction with one effective address. -/
theorem begins_operand {t : BitVec 4} {r o m g : BitVec 3} {sz : Size} {xs : List Half} {f : Ea → Instr} {i : Instr}
    (hf : ∀ ea, encode (f ea) = opWord t r o ea.mode ea.reg :: ea.exts sz)
    (h : (decodeEa m g sz xs).map f = .ok i) : i.Begins (opWord t r o m g :: xs) := by
  obtain ⟨ea, he, rfl⟩ := decodeEa_map_eq_ok h
  obtain ⟨rfl, rfl, _⟩ := decodeEa_eq_ok he
  intro hl
  rw [hf, List.length_cons, List.length_cons, Nat.succ_le_succ_iff] at hl
  rw [hf, List.prefix_cons_inj]
  exact exts_prefix_of_decodeEa he hl

/-- The words of an instruction with an operand word before its effective address (R155, R173). -/
theorem begins_wordThenOperand {t : BitVec 4} {r o m g : BitVec 3} {sz : Size} {xs : List Half}
    {f : Half → Ea → Instr} {i : Instr}
    (hf : ∀ x ea, encode (f x ea) = opWord t r o ea.mode ea.reg :: x :: ea.exts sz)
    (h : (decodeEa m g sz (xs.drop 1)).map (f (xs.getD 0 0)) = .ok i) : i.Begins (opWord t r o m g :: xs) := by
  obtain ⟨ea, he, rfl⟩ := decodeEa_map_eq_ok h
  obtain ⟨rfl, rfl, _⟩ := decodeEa_eq_ok he
  intro hl
  cases xs with
  | nil => simp [hf] at hl
  | cons x xs =>
    simp only [hf, List.getD_cons_zero, List.length_cons, Nat.succ_le_succ_iff] at hl
    simp only [hf, List.getD_cons_zero, List.prefix_cons_inj]
    exact exts_prefix_of_decodeEa he hl

/-- A MOVE's words: the operation word, the source's and the destination's (R67, R69). -/
theorem candidateMove_begins {t : BitVec 4} {r o m g : BitVec 3} {sz : Size} {mk : Ea → Ea → Instr} {xs : List Half}
    {i : Instr} (h : candidateMove sz mk r o m g xs = .ok i)
    (hmk : ∀ src dst,
      encode (mk src dst) = opWord t dst.reg dst.mode src.mode src.reg :: (src.exts sz ++ dst.exts sz)) :
    i.Begins (opWord t r o m g :: xs) := by
  obtain ⟨src, dst, hs, hd, rfl⟩ := candidateMove_eq_ok h
  obtain ⟨rfl, rfl, _⟩ := decodeEa_eq_ok hs
  obtain ⟨rfl, rfl, _⟩ := decodeEa_eq_ok hd
  intro hl
  rw [hmk, List.length_cons, List.length_cons, Nat.succ_le_succ_iff, List.length_append] at hl
  obtain ⟨ys, rfl⟩ := exts_prefix_of_decodeEa hs (by omega)
  rw [List.drop_left' (Ea.exts_length src sz)] at hd
  rw [hmk, List.prefix_cons_inj, List.prefix_append_right_inj]
  exact exts_prefix_of_decodeEa hd (by simp only [List.length_append] at hl; omega)

theorem addi_begins (xs : List Half) (dx : DReg) :
    (Instr.addi (xs.getD 0 0 ++ xs.getD 1 0) dx).Begins (opWord 0 3 2 0 dx.bits :: xs) := by
  intro hl
  replace hl : 3 ≤ xs.length + 1 := hl
  obtain _ | ⟨x, _ | ⟨y, xs⟩⟩ := xs
  · contradiction
  · contradiction
  · simp only [encode, longWords_append, List.getD_cons_zero, List.getD_cons_succ]
    exact List.prefix_append [_, x, y] xs

theorem candidate0_begins {r o m g : BitVec 3} {xs : List Half} {i : Instr} :
    candidate0 r o m g xs = .ok i → i.Begins (opWord 0 r o m g :: xs) :=
  ok_of_ite (by rintro ⟨rfl, rfl, rfl⟩ ⟨⟩; exact addi_begins xs (DReg.ofBits g)) fun _ =>
    ok_of_ite (by rintro ⟨rfl, rfl⟩; exact begins_wordThenOperand fun _ _ => rfl) fun _ =>
    ok_of_ite (by rintro rfl; exact begins_operand fun _ => rfl) nofun

theorem candidate4_begins {r o m g : BitVec 3} {xs : List Half} {i : Instr} :
    candidate4 r o m g xs = .ok i → i.Begins (opWord 4 r o m g :: xs) :=
  ok_of_ite (by rintro ⟨rfl, rfl, rfl, rfl⟩ ⟨⟩; exact begins_word rfl xs) fun _ =>
    ok_of_ite (by rintro ⟨rfl, rfl, rfl, rfl⟩ ⟨⟩; exact begins_word rfl xs) fun _ =>
    ok_of_ite (by rintro rfl; exact begins_operand fun _ => rfl) fun _ =>
    ok_of_ite (by rintro ⟨rfl, rfl⟩; exact begins_operand fun _ => rfl) fun _ =>
    ok_of_ite (by rintro ⟨rfl, rfl⟩; exact begins_operand fun _ => rfl) fun _ =>
    ok_of_ite (by rintro ⟨rfl, rfl⟩; exact begins_operand fun _ => rfl) fun _ =>
    ok_of_ite (by rintro ⟨rfl, rfl⟩; exact begins_wordThenOperand fun _ _ => rfl) fun _ =>
    ok_of_ite (by rintro ⟨rfl, rfl⟩; exact begins_wordThenOperand fun _ _ => rfl) nofun

/-- Each condition field writes the branch it reads (R181). -/
theorem encode_branchOf (cc : BitVec 4) (d : BranchDisp) : encode (branchOf cc d) = branchWords cc d := by
  fin_cases cc <;> rfl

theorem candidate6_begins {cc : BitVec 4} {d8 : Byte} {xs : List Half} {i : Instr} :
    candidate6 cc d8 xs = .ok i → i.Begins ((0x6#4 ++ cc ++ d8) :: xs) := by
  refine ok_of_ite ?_ fun _ => ?_
  · rintro rfl ⟨⟩ hl
    rw [encode_branchOf] at hl ⊢
    match xs, hl with
    | x :: xs, _ => exact List.prefix_append [_, x] xs
    | [], hl => simp [branchWords] at hl
  · rintro ⟨⟩
    exact begins_word (encode_branchOf _ _) xs

theorem candidateAlu_begins {t : BitVec 4} {toD : Ea → DReg → Instr} {toEa : DReg → Ea → Instr}
    {r o m g : BitVec 3} {xs : List Half} {i : Instr} (h : candidateAlu toD toEa r o m g xs = .ok i)
    (hD : ∀ ea dx, encode (toD ea dx) = opWord t dx.bits 2 ea.mode ea.reg :: ea.exts .l)
    (hE : ∀ dy ea, encode (toEa dy ea) = opWord t dy.bits 6 ea.mode ea.reg :: ea.exts .l) :
    i.Begins (opWord t r o m g :: xs) := by
  revert h
  exact ok_of_ite (by rintro rfl; exact begins_operand fun ea => hD ea (DReg.ofBits r)) fun _ =>
    ok_of_ite (by rintro rfl; exact begins_operand fun ea => hE (DReg.ofBits r) ea) nofun

theorem candidateD_begins {r o m g : BitVec 3} {xs : List Half} {i : Instr} :
    candidateD r o m g xs = .ok i → i.Begins (opWord 13 r o m g :: xs) :=
  ok_of_ite (by rintro ⟨rfl, rfl⟩ ⟨⟩; exact begins_word rfl xs) fun _ =>
    ok_of_ite (by rintro rfl; exact begins_operand fun _ => rfl) fun _ =>
    fun h => candidateAlu_begins h (fun _ _ => rfl) fun _ _ => rfl

theorem candidateE_begins {r o m g : BitVec 3} (xs : List Half) {i : Instr} :
    candidateE r o m g = .ok i → i.Begins (opWord 14 r o m g :: xs) :=
  ok_of_ite (by rintro ⟨rfl, rfl⟩ ⟨⟩; exact begins_word rfl xs) fun _ =>
    ok_of_ite (by rintro ⟨rfl, rfl⟩ ⟨⟩; exact begins_word rfl xs) nofun

theorem candidateMovea_begins {t : BitVec 4} {sz : Size} {r o m g : BitVec 3} {xs : List Half} {i : Instr}
    (ho : o = 1) (h : candidateMovea sz r m g xs = .ok i)
    (henc : ∀ ea ax, encode (.movea sz ea ax) = opWord t ax.bits 1 ea.mode ea.reg :: ea.exts sz) :
    i.Begins (opWord t r o m g :: xs) :=
  ho ▸ begins_operand (fun ea => henc ea (AReg.ofBits r)) h

theorem cmpa_begins {r o m g : BitVec 3} {xs : List Half} {i : Instr} (ho : o = 7)
    (h : (decodeEa m g .l xs).map (fun ea => .cmpa ea (AReg.ofBits r)) = .ok i) : i.Begins (opWord 11 r o m g :: xs) :=
  ho ▸ begins_operand (fun _ => rfl) h

theorem moveq_begins {w : Half} {xs : List Half} {i : Instr} (ht : w.extractLsb' 12 4 = 7)
    (h8 : ¬w.getLsbD 8 = true) (h : Except.ok (ε := DecodeError)
      (Instr.moveq (w.extractLsb' 0 8) (DReg.ofBits (w.extractLsb' 9 3))) = .ok i) : i.Begins (w :: xs) := by
  cases h
  refine begins_word ?_ xs
  rw [encode, DReg.bits_ofBits, moveqWord_eta ht (by simpa using h8)]

/-- An operation word is put together from its top bits and its four other fields. -/
theorem begins_of_top {w : Half} {t : BitVec 4} {xs : List Half} {i : Instr} (ht : w.extractLsb' 12 4 = t)
    (h : i.Begins (opWord t (w.extractLsb' 9 3) (w.extractLsb' 6 3) (w.extractLsb' 3 3) (w.extractLsb' 0 3) :: xs)) :
    i.Begins (w :: xs) := by
  rwa [← ht, opWord_eta] at h

theorem begins_of_branchTop {w : Half} {xs : List Half} {i : Instr} (ht : w.extractLsb' 12 4 = 6)
    (h : i.Begins ((0x6#4 ++ w.extractLsb' 8 4 ++ w.extractLsb' 0 8) :: xs)) : i.Begins (w :: xs) := by
  rwa [branchWord_eta ht] at h

/-- Whatever row an operation word matches, the instruction's own words are those it was read from (R74, R75). -/
theorem candidate_begins {w : Half} {xs : List Half} {i : Instr} : candidate w xs = .ok i → i.Begins (w :: xs) :=
  ok_of_ite (fun ht h => begins_of_top ht (candidate0_begins h)) fun _ =>
  ok_of_ite (fun ht h => begins_of_top ht (candidateMove_begins h fun _ _ => rfl)) fun _ =>
  ok_of_ite (fun ht => ok_of_ite (fun ho h => begins_of_top ht (candidateMovea_begins ho h fun _ _ => rfl))
    fun _ h => begins_of_top ht (candidateMove_begins h fun _ _ => rfl)) fun _ =>
  ok_of_ite (fun ht => ok_of_ite (fun ho h => begins_of_top ht (candidateMovea_begins ho h fun _ _ => rfl))
    fun _ h => begins_of_top ht (candidateMove_begins h fun _ _ => rfl)) fun _ =>
  ok_of_ite (fun ht h => begins_of_top ht (candidate4_begins h)) fun _ =>
  ok_of_ite (fun ht h => begins_of_branchTop ht (candidate6_begins h)) fun _ =>
  ok_of_ite (fun ht => ok_of_ite nofun fun h8 => moveq_begins ht h8) fun _ =>
  ok_of_ite (fun ht h => begins_of_top ht (candidateAlu_begins h (fun _ _ => rfl) fun _ _ => rfl)) fun _ =>
  ok_of_ite (fun ht => ok_of_ite (fun ho h => begins_of_top ht (cmpa_begins ho h)) nofun) fun _ =>
  ok_of_ite (fun ht h => begins_of_top ht (candidateAlu_begins h (fun _ _ => rfl) fun _ _ => rfl)) fun _ =>
  ok_of_ite (fun ht h => begins_of_top ht (candidateD_begins h)) fun _ =>
  ok_of_ite (fun ht h => begins_of_top ht (candidateE_begins xs h)) nofun

/-- The words after the instruction, counted from the operation word. -/
theorem Instr.drop_words_pred (i : Instr) (w : Half) (xs : List Half) :
    xs.drop (i.words - 1) = (w :: xs).drop i.words := by
  rw [← List.drop_succ_cons (a := w), Nat.sub_add_cancel i.words_pos]

/-- Settles O3: the words an instruction is read from begin with its own, and the rest is what stands after them. -/
theorem encodeOfDecode : Obligations.EncodeOfDecode := by
  intro ws rest i h
  obtain ⟨w, xs, rfl, hd, hl, rfl⟩ := decodeWords_eq_ok h
  have hlen : (encode i).length = i.words := (Laws.WordCount.all i).1
  obtain ⟨ys, hys⟩ := candidate_begins (decode_eq_ok.mp hd).1 (by rw [hlen]; exact hl)
  rw [i.drop_words_pred w xs, ← hys, List.drop_left' hlen]

end Sys2Proof
end

section
/-! ### The instruction that is read from an encoding (R60 to R73) -/

namespace Sys2Proof

/-- From the words of the instruction and any words after them, the row its operation word matches reads it back. -/
def Instr.ReadsBack (i : Instr) : Prop :=
  ∀ rest, ∃ w xs, encode i ++ rest = w :: xs ∧ candidate w xs = .ok i

/-- The words left over are those after the encoding. -/
theorem decodeWords_encode {i : Instr} (h : i.ReadsBack) (hm : i.modesOk = true) (he : i.operandError = none)
    (rest : List Half) : decodeWords (encode i ++ rest) = .ok (i, rest) := by
  obtain ⟨hlen, hle⟩ := Laws.WordCount.all i
  obtain ⟨w, xs, hws, hc⟩ := h rest
  have hd : decode w xs = .ok i := decode_eq_ok.mpr ⟨hc, hm, hle hm, he⟩
  have hxs : xs.length + 1 = i.words + rest.length := by
    rw [← List.length_cons (a := w), ← hws, List.length_append, hlen]
  have hdrop : xs.drop (i.words - 1) = rest := by
    rw [i.drop_words_pred w xs, ← hws, List.drop_left' hlen]
  rw [hws]
  simp only [decodeWords, hd, hdrop]
  exact if_neg (by omega)

theorem decode_of_operandError {w : Half} {xs : List Half} {i : Instr} {e : DecodeError} (hc : candidate w xs = .ok i)
    (hm : i.modesOk = true) (he : i.operandError = some e) : decode w xs = .error e := by
  simp [decode, hc, hm, he, Nat.not_lt.mpr ((Laws.WordCount.all i).2 hm)]

/-- An encoding whose operand words the format reserves is refused by name (R65, R173). -/
theorem decodeWords_encode_of_operandError {i : Instr} {e : DecodeError} (h : i.ReadsBack) (hm : i.modesOk = true)
    (he : i.operandError = some e) : decodeWords (encode i) = .error e := by
  obtain ⟨w, xs, hws, hc⟩ := h []
  rw [List.append_nil] at hws
  simp only [hws, decodeWords, decode_of_operandError hc hm he]

/-! ### The rows of the opcode map (R74) -/

section
variable (r o m g : BitVec 3) (xs : List Half)

theorem candidate_opWord_0 : candidate (opWord 0 r o m g) xs = candidate0 r o m g xs := by
  simp [candidate, opWord_top, opWord_r, opWord_o, opWord_m, opWord_g]

theorem candidate_opWord_1 : candidate (opWord 1 r o m g) xs = candidateMove .b .moveB r o m g xs := by
  simp [candidate, opWord_top, opWord_r, opWord_o, opWord_m, opWord_g]

theorem candidate_opWord_2 : candidate (opWord 2 r o m g) xs =
    if o = 1 then candidateMovea .l r m g xs else candidateMove .l .moveL r o m g xs := by
  simp [candidate, opWord_top, opWord_r, opWord_o, opWord_m, opWord_g]

theorem candidate_opWord_3 : candidate (opWord 3 r o m g) xs =
    if o = 1 then candidateMovea .w r m g xs else candidateMove .w .moveW r o m g xs := by
  simp [candidate, opWord_top, opWord_r, opWord_o, opWord_m, opWord_g]

theorem candidate_opWord_4 : candidate (opWord 4 r o m g) xs = candidate4 r o m g xs := by
  simp [candidate, opWord_top, opWord_r, opWord_o, opWord_m, opWord_g]

theorem candidate_opWord_9 : candidate (opWord 9 r o m g) xs = candidateAlu .subToD .subToEa r o m g xs := by
  simp [candidate, opWord_top, opWord_r, opWord_o, opWord_m, opWord_g]

theorem candidate_opWord_11 : candidate (opWord 11 r 7 m g) xs =
    (decodeEa m g .l xs).map fun ea => .cmpa ea (AReg.ofBits r) := by
  simp [candidate, opWord_top, opWord_r, opWord_o, opWord_m, opWord_g]

theorem candidate_opWord_12 : candidate (opWord 12 r o m g) xs = candidateAlu .andToD .andToEa r o m g xs := by
  simp [candidate, opWord_top, opWord_r, opWord_o, opWord_m, opWord_g]

theorem candidate_opWord_13 : candidate (opWord 13 r o m g) xs = candidateD r o m g xs := by
  simp [candidate, opWord_top, opWord_r, opWord_o, opWord_m, opWord_g]

theorem candidate_opWord_14 : candidate (opWord 14 r o m g) xs = candidateE r o m g := by
  simp [candidate, opWord_top, opWord_r, opWord_o, opWord_m, opWord_g]

theorem candidate_branchWord (cc : BitVec 4) (d8 : Byte) : candidate (0x6#4 ++ cc ++ d8) xs = candidate6 cc d8 xs := by
  simp [candidate, branchWord_top, branchWord_cc, branchWord_disp]

theorem candidate_moveqWord (d : Byte) : candidate (0x7#4 ++ r ++ 0#1 ++ d) xs = .ok (.moveq d (DReg.ofBits r)) := by
  simp only [candidate, moveqWord_top, moveqWord_r, moveqWord_bit8, moveqWord_data]
  rfl

end

/-! ### Operands in the words after the operation word (R62, R65) -/

/-- Every number of 32 bits fits the two words of a longword immediate. -/
theorem Ea.immFits_long (ea : Ea) : ea.immFits .l = true := by
  cases ea with
  | imm v => exact decide_eq_true v.isLt
  | _ => rfl

theorem Ea.immFits_of_isDataAlterable {ea : Ea} (sz : Size) (h : ea.isDataAlterable = true) : ea.immFits sz = true := by
  cases ea with
  | imm v => cases h
  | _ => rfl

theorem Ea.immFits_of_isBsetStatic {ea : Ea} (sz : Size) (h : ea.isBsetStatic = true) : ea.immFits sz = true := by
  cases ea with
  | imm v => cases h
  | _ => rfl

theorem Ea.immFits_word_of_byte {ea : Ea} (h : ea.immFits .b = true) : ea.immFits .w = true := by
  cases ea with
  | imm v =>
    exact decide_eq_true ((of_decide_eq_true h).trans (by decide))
  | _ => rfl

/-- A byte immediate is read from a whole word, high byte and all (R65). -/
theorem decodeEa_exts_byte {ea : Ea} (h : ea.immFits .w = true) (rest : List Half) :
    decodeEa ea.mode ea.reg .b (ea.exts .b ++ rest) = .ok ea := by
  have hexts : ea.exts .b = ea.exts .w := by cases ea <;> rfl
  rw [hexts]
  exact decodeEa_exts h rest

theorem Ea.mode_ne_one_of_isDataAlterable {ea : Ea} (h : ea.isDataAlterable = true) : ea.mode ≠ 1 := by
  cases ea with
  | areg n => cases h
  | _ => simp [Ea.mode]

theorem Ea.mode_ne_zero_of_isMemoryAlterable {ea : Ea} (h : ea.isMemoryAlterable = true) : ea.mode ≠ 0 := by
  cases ea with
  | dreg n => cases h
  | _ => simp [Ea.mode]

/-! ### The formats read back -/

theorem readsBack_operand {t : BitVec 4} {r o : BitVec 3} {sz : Size} {ea : Ea} (f : Ea → Instr)
    (henc : encode (f ea) = opWord t r o ea.mode ea.reg :: ea.exts sz) (hfit : ea.immFits sz = true)
    (hc : ∀ xs, candidate (opWord t r o ea.mode ea.reg) xs = (decodeEa ea.mode ea.reg sz xs).map f) :
    (f ea).ReadsBack := by
  intro rest
  refine ⟨_, ea.exts sz ++ rest, by rw [henc, List.cons_append], ?_⟩
  rw [hc, decodeEa_exts hfit]
  rfl

theorem readsBack_wordThenOperand {t : BitVec 4} {r o : BitVec 3} {sz : Size} {x : Half} {ea : Ea}
    (f : Half → Ea → Instr) (henc : encode (f x ea) = opWord t r o ea.mode ea.reg :: x :: ea.exts sz)
    (hfit : ea.immFits sz = true) (hc : ∀ xs, candidate (opWord t r o ea.mode ea.reg) xs =
      (decodeEa ea.mode ea.reg sz (xs.drop 1)).map (f (xs.getD 0 0))) : (f x ea).ReadsBack := by
  intro rest
  refine ⟨_, x :: (ea.exts sz ++ rest), by rw [henc, List.cons_append, List.cons_append], ?_⟩
  rw [hc]
  exact congrArg (Except.map (f x)) (decodeEa_exts hfit rest)

/-- MOVE's source is read from the words it wrote, and its destination from those after them (R67). -/
theorem readsBack_move {t : BitVec 4} {sz : Size} {src dst : Ea} (mk : Ea → Ea → Instr)
    (henc : encode (mk src dst) = opWord t dst.reg dst.mode src.mode src.reg :: (src.exts sz ++ dst.exts sz))
    (hc : ∀ xs, candidate (opWord t dst.reg dst.mode src.mode src.reg) xs =
      candidateMove sz mk dst.reg dst.mode src.mode src.reg xs)
    (hsrc : ∀ rest, decodeEa src.mode src.reg sz (src.exts sz ++ rest) = .ok src)
    (hdst : dst.isDataAlterable = true) : (mk src dst).ReadsBack := by
  intro rest
  refine ⟨_, src.exts sz ++ (dst.exts sz ++ rest), by rw [henc, List.cons_append, List.append_assoc], ?_⟩
  rw [hc, candidateMove, hsrc]
  simp only [List.drop_left' (Ea.exts_length src sz), decodeEa_exts (Ea.immFits_of_isDataAlterable sz hdst)]
  rfl

theorem readsBack_moveB {src dst : Ea} (hsrc : src.immFits .w = true) (hdst : dst.isDataAlterable = true) :
    (Instr.moveB src dst).ReadsBack :=
  readsBack_move .moveB rfl (candidate_opWord_1 _ _ _ _) (decodeEa_exts_byte hsrc) hdst

theorem readsBack_moveL {src dst : Ea} (hdst : dst.isDataAlterable = true) : (Instr.moveL src dst).ReadsBack :=
  readsBack_move .moveL rfl
    (fun xs => (candidate_opWord_2 _ _ _ _ xs).trans (if_neg (Ea.mode_ne_one_of_isDataAlterable hdst)))
    (decodeEa_exts src.immFits_long) hdst

theorem readsBack_moveW {src dst : Ea} (hsrc : src.immFits .w = true) (hdst : dst.isDataAlterable = true) :
    (Instr.moveW src dst).ReadsBack :=
  readsBack_move .moveW rfl
    (fun xs => (candidate_opWord_3 _ _ _ _ xs).trans (if_neg (Ea.mode_ne_one_of_isDataAlterable hdst)))
    (decodeEa_exts hsrc) hdst

theorem readsBack_movea {sz : Size} {ea : Ea} (ax : AReg) (hsz : sz ≠ .b) (hfit : ea.immFits sz = true) :
    (Instr.movea sz ea ax).ReadsBack := by
  cases sz with
  | b => exact absurd rfl hsz
  | w => exact readsBack_operand (.movea .w · ax) rfl hfit fun xs => candidate_opWord_3 _ _ _ _ xs
  | l => exact readsBack_operand (.movea .l · ax) rfl hfit fun xs => candidate_opWord_2 _ _ _ _ xs

/-- ADDX's word has Mode 000, which is no destination in memory (R75). -/
theorem readsBack_addToEa (dy : DReg) {ea : Ea} (h : ea.isMemoryAlterable = true) : (Instr.addToEa dy ea).ReadsBack :=
  readsBack_operand (.addToEa dy) rfl ea.immFits_long fun xs =>
    (candidate_opWord_13 _ _ _ _ xs).trans <| by
      rw [candidateD, if_neg fun h0 => Ea.mode_ne_zero_of_isMemoryAlterable h h0.2]
      rfl

theorem readsBack_bsetImm (num : Half) {ea : Ea} (h : ea.isBsetStatic = true) : (Instr.bsetImm num ea).ReadsBack :=
  readsBack_wordThenOperand .bsetImm rfl (ea.immFits_of_isBsetStatic .b h) (candidate_opWord_0 _ _ _ _)

/-- Opmode 111 is LEA's in its row, whatever the register (R73). -/
theorem candidate4_lea (r m g : BitVec 3) (xs : List Half) :
    candidate4 r 7 m g xs = (decodeEa m g .l xs).map fun ea => .lea ea (AReg.ofBits r) := by
  simp [candidate4]

/-- Opmode 111 is the register form of BSET's in its row, whatever the register (R73). -/
theorem candidate0_bsetReg (r m g : BitVec 3) (xs : List Half) :
    candidate0 r 7 m g xs = (decodeEa m g .b xs).map fun ea => .bsetReg (DReg.ofBits r) ea := by
  simp [candidate0]

/-- A displacement byte of zero is no one-word branch (R181). -/
theorem readsBack_branch (cc : BitVec 4) {d : BranchDisp} (h : d.ok = true) : (branchOf cc d).ReadsBack := by
  intro rest
  rw [encode_branchOf]
  cases d with
  | short d8 =>
    have h0 : d8 ≠ 0x00 := by
      rintro rfl
      cases h
    exact ⟨_, _, rfl, (candidate_branchWord rest cc d8).trans (if_neg h0)⟩
  | word d => exact ⟨_, _, rfl, candidate_branchWord _ cc 0⟩

/-- Every well-formed instruction is read back from its words (R69 to R76). -/
theorem Instr.readsBack {i : Instr} (hm : i.modesOk = true) (ho : i.operandsOk = true) : i.ReadsBack := by
  cases i with
  | addx dy dx => exact fun rest => ⟨_, _, rfl, candidate_opWord_13 _ _ _ _ _⟩
  | addToD ea dx => exact readsBack_operand (.addToD · dx) rfl ea.immFits_long (candidate_opWord_13 _ _ _ _)
  | addToEa dy ea => exact readsBack_addToEa dy hm
  | adda ea ax => exact readsBack_operand (.adda · ax) rfl ea.immFits_long (candidate_opWord_13 _ _ _ _)
  | addi data dx =>
    refine fun rest => ⟨_, _, rfl, (candidate_opWord_0 _ _ _ _ _).trans ?_⟩
    exact congrArg (fun v => Except.ok (Instr.addi v dx)) (longWords_join data)
  | subToD ea dx => exact readsBack_operand (.subToD · dx) rfl ea.immFits_long (candidate_opWord_9 _ _ _ _)
  | subToEa dy ea => exact readsBack_operand (.subToEa dy) rfl ea.immFits_long (candidate_opWord_9 _ _ _ _)
  | cmpa ea ax => exact readsBack_operand (.cmpa · ax) rfl ea.immFits_long (candidate_opWord_11 _ _ _)
  | andToD ea dx => exact readsBack_operand (.andToD · dx) rfl ea.immFits_long (candidate_opWord_12 _ _ _ _)
  | andToEa dy ea => exact readsBack_operand (.andToEa dy) rfl ea.immFits_long (candidate_opWord_12 _ _ _ _)
  | movea sz ea ax =>
    simp only [modesOk, operandsOk, Bool.and_eq_true, bne_iff_ne] at hm ho
    obtain ⟨_, hfit⟩ := ho
    exact readsBack_movea ax hm hfit
  | moveB src dst =>
    simp only [modesOk, operandsOk, Bool.and_eq_true] at hm ho
    obtain ⟨⟨_, hfit⟩, _⟩ := ho
    obtain ⟨⟨_, hdst⟩, _⟩ := hm
    exact readsBack_moveB (Ea.immFits_word_of_byte hfit) hdst
  | moveL src dst =>
    simp only [modesOk, Bool.and_eq_true] at hm
    obtain ⟨hdst, _⟩ := hm
    exact readsBack_moveL hdst
  | moveW src dst =>
    simp only [modesOk, operandsOk, Bool.and_eq_true] at hm ho
    obtain ⟨⟨_, hfit⟩, _⟩ := ho
    obtain ⟨hdst, _⟩ := hm
    exact readsBack_moveW hfit hdst
  | moveq data dx => exact fun rest => ⟨_, _, rfl, candidate_moveqWord _ _ _⟩
  | movemStore mask ea =>
    exact readsBack_wordThenOperand .movemStore rfl ea.immFits_long (candidate_opWord_4 _ _ _ _)
  | movemLoad mask ea =>
    exact readsBack_wordThenOperand .movemLoad rfl ea.immFits_long (candidate_opWord_4 _ _ _ _)
  | lea ea ax =>
    exact readsBack_operand (.lea · ax) rfl ea.immFits_long fun xs =>
      (candidate_opWord_4 _ _ _ _ xs).trans (candidate4_lea _ _ _ xs)
  | clrB ea =>
    exact readsBack_operand .clrB rfl (Ea.immFits_of_isDataAlterable .b hm) (candidate_opWord_4 _ _ _ _)
  | clrW ea =>
    exact readsBack_operand .clrW rfl (Ea.immFits_of_isDataAlterable .w hm) (candidate_opWord_4 _ _ _ _)
  | clrL ea => exact readsBack_operand .clrL rfl ea.immFits_long (candidate_opWord_4 _ _ _ _)
  | asrImm count dx => exact fun rest => ⟨_, _, rfl, candidate_opWord_14 _ _ _ _ _⟩
  | asrReg dy dx => exact fun rest => ⟨_, _, rfl, candidate_opWord_14 _ _ _ _ _⟩
  | bsetImm num ea => exact readsBack_bsetImm num hm
  | bsetReg dy ea =>
    exact readsBack_operand (.bsetReg dy) rfl (Ea.immFits_of_isDataAlterable .b hm) fun xs =>
      (candidate_opWord_0 _ _ _ _ xs).trans (candidate0_bsetReg _ _ _ xs)
  | bra d => exact readsBack_branch 0 hm
  | bsr d => exact readsBack_branch 1 hm
  | bhi d => exact readsBack_branch 2 hm
  | bls d => exact readsBack_branch 3 hm
  | bcc d => exact readsBack_branch 4 hm
  | bcs d => exact readsBack_branch 5 hm
  | bne d => exact readsBack_branch 6 hm
  | beq d => exact readsBack_branch 7 hm
  | bvc d => exact readsBack_branch 8 hm
  | bvs d => exact readsBack_branch 9 hm
  | bpl d => exact readsBack_branch 10 hm
  | bmi d => exact readsBack_branch 11 hm
  | bge d => exact readsBack_branch 12 hm
  | blt d => exact readsBack_branch 13 hm
  | bgt d => exact readsBack_branch 14 hm
  | ble d => exact readsBack_branch 15 hm
  | rts => exact fun rest => ⟨0x4E75, rest, rfl, candidate_opWord_4 7 1 6 5 rest⟩
  | halt => exact fun rest => ⟨0x4AC8, rest, rfl, candidate_opWord_4 5 3 1 0 rest⟩

/-- The operand words that are refused by name are not well formed (R65, R173). -/
theorem Instr.operandError_of_operandsOk {i : Instr} (h : i.operandsOk = true) : i.operandError = none := by
  cases i with
  | moveB src dst =>
    simp only [operandsOk, Bool.and_eq_true] at h
    obtain ⟨⟨_, hfit⟩, _⟩ := h
    exact if_pos hfit
  | bsetImm num ea => exact if_pos (of_decide_eq_true h)
  | _ => rfl

/-- Settles O2: every well-formed instruction is read back, and none of its operand words is refused. -/
theorem decodeOfEncode : Obligations.DecodeOfEncode := by
  intro i rest h
  obtain ⟨hm, ho⟩ : i.modesOk = true ∧ i.operandsOk = true := Bool.and_eq_true_iff.mp h
  exact decodeWords_encode (Instr.readsBack hm ho) hm (Instr.operandError_of_operandsOk ho) rest

end Sys2Proof
end

section
/-! ### Words that are refused, and why (R65, R68, R80, R173) -/

namespace Sys2Proof

/-- The two reasons an operand word is refused by name. -/
theorem Instr.operandError_eq_some {i : Instr} {e : DecodeError} (h : i.operandError = some e) :
    e = .byteImmediateHighBits ∨ e = .reservedExtensionWord := by
  cases i with
  | moveB src dst =>
    simp only [operandError] at h
    split_ifs at h
    exact .inl (Option.some.inj h).symm
  | bsetImm num ea =>
    simp only [operandError] at h
    split_ifs at h
    exact .inr (Option.some.inj h).symm
  | _ => cases h

theorem decode_of_candidate_error {w : Half} {xs : List Half} {e : DecodeError} (h : candidate w xs = .error e) :
    decode w xs = .error .notSpecified := by
  simp only [decode, h]

theorem decode_of_modesOk_eq_false {w : Half} {xs : List Half} {i : Instr} (h : candidate w xs = .ok i)
    (hm : i.modesOk = false) : decode w xs = .error .notSpecified := by
  simp [decode, h, hm]

/-- Admitted modes leave room for every operand word (R68, R154), so only an operand word's reserved bits are left to
refuse. -/
theorem decode_of_modesOk {w : Half} {xs : List Half} {i : Instr} (h : candidate w xs = .ok i)
    (hm : i.modesOk = true) : decode w xs = .ok i ∨ decode w xs = .error .byteImmediateHighBits ∨
      decode w xs = .error .reservedExtensionWord := by
  cases he : i.operandError with
  | none => exact .inl (decode_eq_ok.mpr ⟨h, hm, (Laws.WordCount.all i).2 hm, he⟩)
  | some e =>
    have hd := decode_of_operandError h hm he
    obtain rfl | rfl := Instr.operandError_eq_some he
    · exact .inr (.inl hd)
    · exact .inr (.inr hd)

/-- The three reasons the decoder gives. -/
theorem decode_eq_error {w : Half} {xs : List Half} {e : DecodeError} (h : decode w xs = .error e) :
    e = .notSpecified ∨ e = .byteImmediateHighBits ∨ e = .reservedExtensionWord := by
  cases hc : candidate w xs with
  | error e' =>
    rw [decode_of_candidate_error hc] at h
    exact .inl (Except.error.inj h).symm
  | ok i =>
    cases hm : i.modesOk with
    | false =>
      rw [decode_of_modesOk_eq_false hc hm] at h
      exact .inl (Except.error.inj h).symm
    | true =>
      obtain hd | hd | hd := decode_of_modesOk hc hm <;> rw [hd] at h
      · cases h
      · exact .inr (.inl (Except.error.inj h).symm)
      · exact .inr (.inr (Except.error.inj h).symm)

/-- Settles O4: a refusal is of the operation word, or of an operand word's reserved bits. -/
theorem decodedModesAreAdmitted : Obligations.DecodedModesAreAdmitted := by
  intro w xs
  refine ⟨fun i h => ?_, fun h => ?_, fun h => ?_⟩
  · obtain ⟨_, hm, hw, _⟩ := decode_eq_ok.mp h
    exact ⟨hm, hw⟩
  · obtain he | he | he := decode_eq_error h <;> cases he
  · obtain he | he | he := decode_eq_error h <;> cases he

/-- What an operation word is read as differs only in the words after it, whatever they are (R68). -/
theorem exists_candidate_blank_eq {w : Half} {xs : List Half} {i : Instr} (h : candidate w xs = .ok i)
    (ys : List Half) : ∃ j, candidate w ys = .ok j ∧ j.blank = i.blank := by
  have hx := (candidate_format w).map_blank xs
  have hy := (candidate_format w).map_blank ys
  rw [← hx, h] at hy
  cases hj : candidate w ys with
  | error e => rw [hj] at hy; cases hy
  | ok j =>
    rw [hj] at hy
    exact ⟨j, rfl, Except.ok.inj hy⟩

/-- Settles O5: with other words after it the operation word is the same instruction but for its operand words, which
are allowed or refused by name. -/
theorem operationWordFixesLength : Obligations.OperationWordFixesLength := by
  intro w xs ys i h
  obtain ⟨hc, hm, _, _⟩ := decode_eq_ok.mp h
  obtain ⟨j, hj, hb⟩ := exists_candidate_blank_eq hc ys
  have hjm : j.modesOk = true := by rw [← Instr.blank_modesOk, hb, Instr.blank_modesOk, hm]
  have hjw : j.words = i.words := by rw [← Instr.blank_words, hb, Instr.blank_words]
  exact (decode_of_modesOk hj hjm).imp_left fun hd => ⟨j, hd, hjw⟩

/-! ### Operation words no row takes (R74, R80) -/

/-- A branch's displacement alone decides whether its form is admitted (R181). -/
theorem branchOf_modesOk (cc : BitVec 4) (d : BranchDisp) : (branchOf cc d).modesOk = d.ok := by
  fin_cases cc <;> rfl

/-- A displacement byte of 0xFF is that of no branch of this ISA (R181). -/
theorem decode_branch_ff {w : Half} (ht : w.extractLsb' 12 4 = 6) (hd : w.extractLsb' 0 8 = 0xFF) (xs : List Half) :
    decode w xs = .error .notSpecified := by
  refine decode_of_modesOk_eq_false (i := branchOf (w.extractLsb' 8 4) (.short 0xFF)) ?_ (branchOf_modesOk _ _)
  rw [← branchWord_eta ht, hd, candidate_branchWord, branchWord_cc]
  rfl

/-- Settles O6: no row takes such a word, or its displacement byte is not admitted; and the decoder reads back the other
two, but for the reserved bits of an operand word. -/
theorem refusedEncodings : Obligations.RefusedEncodings := by
  refine ⟨fun w xs h => ?_, fun v dst hlo hhi hm => ?_, fun num ea hnum hea => ?_⟩
  · obtain ht | ht | ht | ht | ⟨ht, hd⟩ | ⟨ht, h8⟩ := h
    · exact decode_of_candidate_error (e := .notSpecified) (by simp [candidate, ht])
    · exact decode_of_candidate_error (e := .notSpecified) (by simp [candidate, ht])
    · exact decode_of_candidate_error (e := .notSpecified) (by simp [candidate, ht])
    · exact decode_of_candidate_error (e := .notSpecified) (by simp [candidate, ht])
    · exact decode_branch_ff ht hd xs
    · exact decode_of_candidate_error (e := .notSpecified) (by simp [candidate, ht, h8])
  · have hdst : dst.isDataAlterable = true := by
      simp only [Instr.modesOk, Bool.and_eq_true] at hm
      obtain ⟨⟨_, hdst⟩, _⟩ := hm
      exact hdst
    have hbyte : ¬(Ea.imm v).immFits .b = true := fun h => hlo.not_gt (of_decide_eq_true h)
    exact decodeWords_encode_of_operandError (readsBack_moveB (decide_eq_true hhi) hdst) hm (if_neg hbyte)
  · exact decodeWords_encode_of_operandError (readsBack_bsetImm num hea) hea (if_neg hnum.not_gt)

/-- Settles O1: the decoder evaluates to the instruction on each of the printed words. -/
theorem sampleWordsDecode : Obligations.SampleWordsDecode :=
  ⟨rfl, rfl, rfl, rfl, rfl, rfl, rfl, rfl, rfl, rfl, rfl, rfl, rfl, rfl, rfl, rfl, rfl, rfl, rfl, rfl, rfl, rfl, rfl,
    rfl, rfl, rfl⟩

end Sys2Proof
end

section
/-! ### ADD, SUB and AND of plain operands (R118, R132, R135, R171) -/

namespace Sys2Proof.Machine

/-- A destination that can be written can be read first (R118). -/
theorem EaWritable.readable {ea : Ea} {sz : Size} {x : Word} {s : State} (h : EaWritable ea sz x s) :
    EaReadable ea sz x s := ⟨h.1, fun hm => (h.2 hm).readable⟩

/-- A destination that is read and written back is resolved once, and its register stepped once (R118). -/
theorem withOperand_modify {α : Type} {ea : Ea} {sz : Size} {x : Word} {s : State} (hd : ea.isDataAlterable = true)
    (h : EaWritable ea sz x s) (f : Word → State → Word) (k : Word → State → Unit → State → Res α) :
    (withOperand ea sz x s fun op s1 => (readOp op sz s1).bind fun v s2 =>
      (writeOp op sz (f v s2) s2).bind (k v s2)) =
      forgetStepped (steppedReg ea) (k (eaValue ea sz x s) (stepEa ea sz s) ()
        (eaWrite ea sz x (f (eaValue ea sz x s) (stepEa ea sz s)) s)) := by
  rw [withOperand_resolved h.1, readOp_operandOf h.readable, Res.bind_ok, writeOp_operandOf hd h, Res.bind_ok]

/-- `<ea>y op Dx → Dx` of a plain source. -/
theorem finish_aluToD_plain {ea : Ea} {s : State} (h : EaReadable ea .l (s.pc + 2) s) (n : Nat)
    (f : Word → Word → Word) (g : Ccr → Word → Word → Ccr) (dx : DReg) :
    finish n (aluToD f g ea dx s) =
      .next ((((stepEa ea .l s).setD dx (f (eaValue ea .l (s.pc + 2) s) (s.getD dx))).setCcr
        (g s.ccr (eaValue ea .l (s.pc + 2) s) (s.getD dx))).setPc (s.pc + BitVec.ofNat 32 (2 * n))) := by
  have hsrc : EaReadable ea .l s.ext s := h
  simp only [aluToD, withOperand_read hsrc, forgetStepped_ok, finish_ok, stepEa_getD, stepEa_ccr, State.setCcr_pc,
    State.setD_pc, stepEa_pc]
  rw [State.ext]

/-- `Dy op <ea>x → <ea>x` of a plain destination in memory. -/
theorem finish_aluToEa_plain {ea : Ea} {s : State} (hm : ea.isMemoryAlterable = true)
    (h : EaWritable ea .l (s.pc + 2) s) (n : Nat) (f : Word → Word → Word) (g : Ccr → Word → Word → Ccr) (dy : DReg) :
    finish n (aluToEa f g dy ea s) =
      .next (((eaWrite ea .l (s.pc + 2) (f (s.getD dy) (eaValue ea .l (s.pc + 2) s)) s).setCcr
        (g s.ccr (s.getD dy) (eaValue ea .l (s.pc + 2) s))).setPc (s.pc + BitVec.ofNat 32 (2 * n))) := by
  have hdst : EaWritable ea .l s.ext s := h
  simp only [aluToEa, withOperand_modify (isDataAlterable_of_memory hm) hdst fun v t => f (t.getD dy) v,
    forgetStepped_ok, finish_ok, stepEa_getD, stepEa_ccr, State.setCcr_pc, eaWrite_pc]
  rw [State.ext]

/-- Settles O29: both forms with AddC and its flags. -/
theorem addResult : Obligations.AddResult :=
  ⟨fun _ dx _ h => finish_aluToD_plain h _ addRes addFlags dx,
    fun dy _ _ hm h => finish_aluToEa_plain hm h _ addRes addFlags dy⟩

/-- Settles O32: both forms with SubB and its flags. -/
theorem subResult : Obligations.SubResult :=
  ⟨fun _ dx _ h => finish_aluToD_plain h _ subRes subFlags dx,
    fun dy _ _ hm h => finish_aluToEa_plain hm h _ subRes subFlags dy⟩

/-- Settles O42: both forms with the bitwise conjunction, whose sign is its bit 31. -/
theorem andResult : Obligations.AndResult :=
  ⟨fun _ dx _ _ h => finish_aluToD_plain h _ andRes andFlags dx,
    fun dy _ _ hm h => finish_aluToEa_plain hm h _ andRes andFlags dy⟩

/-! ### BSET of plain operands (R173) -/

/-- The bit number of either form, and where the words of its operand stand. -/
theorem exec_bset {i : Instr} {ea : Ea} {b : Nat} {x : Word} {s : State}
    (hi : (∃ num, i = .bsetImm num ea ∧ b = num.toNat % 256 ∧ x = s.pc + 2 + 2) ∨
      ∃ dy, i = .bsetReg dy ea ∧ b = (s.getD dy).toNat ∧ x = s.pc + 2) :
    exec i s = finish i.words (bsetBody b ea x s) := by
  obtain ⟨num, rfl, rfl, rfl⟩ | ⟨dy, rfl, rfl, rfl⟩ := hi
  · have hb : (num.setWidth 8).toNat = num.toNat % 256 := BitVec.toNat_setWidth 8 num
    rw [← hb]
    rfl
  · rfl

/-- BSET of a data register tests and sets a bit of the longword there. -/
theorem bsetBody_dreg (b : Nat) (n : DReg) (x : Word) (s : State) :
    bsetBody b (.dreg n) x s = .ok () ((s.setD n (s.getD n ||| BitVec.twoPow 32 (b % 32))).setCcr
      (ccrBitTest s.ccr ((s.getD n).getLsbD (b % 32)))) := rfl

/-- BSET in memory tests and sets a bit of the byte there. -/
theorem bsetBody_plain {ea : Ea} {x : Word} {s : State} (hm : ea.isMemoryAlterable = true)
    (h : EaWritable ea .b x s) (b : Nat) :
    bsetBody b ea x s = .ok () ((eaWrite ea .b x (eaValue ea .b x s ||| BitVec.twoPow 32 (b % 8)) s).setCcr
      (ccrBitTest s.ccr ((eaValue ea .b x s).getLsbD (b % 8)))) := by
  have hbody : bsetBody b ea x s = withOperand ea .b x s fun op s1 => (readOp op .b s1).bind fun v s2 =>
      (writeOp op .b (v ||| BitVec.twoPow 32 (b % 8)) s2).bind fun _ s3 =>
        .ok () (s3.setCcr (ccrBitTest s3.ccr (v.getLsbD (b % 8)))) := by
    cases ea <;> first | rfl | cases hm
  rw [hbody, withOperand_modify (isDataAlterable_of_memory hm) h fun v _ => v ||| BitVec.twoPow 32 (b % 8),
    forgetStepped_ok, eaWrite_ccr]

/-- Settles O44: a data register is tested and set as a longword, a place in memory as a byte. -/
theorem bsetResult : Obligations.BsetResult := by
  constructor
  · intro n b i s hi
    have hx : ∃ x, exec i s = finish i.words (bsetBody b (.dreg n) x s) := by
      obtain ⟨num, rfl, hb⟩ | ⟨dy, rfl, hb⟩ := hi
      · exact ⟨_, exec_bset (.inl ⟨num, rfl, hb, rfl⟩)⟩
      · exact ⟨_, exec_bset (.inr ⟨dy, rfl, hb, rfl⟩)⟩
    obtain ⟨x, he⟩ := hx
    rw [he, bsetBody_dreg, finish_ok, State.setCcr_pc, State.setD_pc, ccrBitTest]
  · intro ea b x i s hm hi hw
    rw [exec_bset hi, bsetBody_plain hm hw b, finish_ok, State.setCcr_pc, eaWrite_pc, ccrBitTest]

end Sys2Proof.Machine
end

section
/-! ### MOVE through one address register (R119) -/

namespace Sys2Proof.Machine

/-- The bytes of a longword, bit by bit (R40). -/
theorem beBytes_append (b0 b1 b2 b3 : Byte) : beBytes (b0 ++ b1 ++ b2 ++ b3 : Word) 4 = [b0, b1, b2, b3] := by
  simp only [beBytes, List.cons.injEq, and_true]
  refine ⟨?_, ?_, ?_, ?_⟩ <;> ext i hi <;> grind

/-- A longword's bytes are the bytes it was read from (R40). -/
theorem beBytes_valueAt_four (s : State) (a : Word) :
    beBytes (valueAt s a 4) 4 = (byteAddrs a 4).map fun x => s.byteAt x.toNat := by
  rw [valueAt_four, beBytes_append, byteAddrs_four]
  rfl

theorem State.setByte_byteAt_self (s : State) (x y : Nat) : (s.setByte x (s.byteAt x)).byteAt y = s.byteAt y := by
  rw [State.setByte_byteAt]
  split
  · next h => rw [h]
  · rfl

/-- Bytes placed where they already stand change no byte. -/
theorem placeBytes_byteAt_self {bs : List Byte} {a : Word} {s : State}
    (h : bs = (byteAddrs a bs.length).map fun x => s.byteAt x.toNat) (y : Nat) :
    (placeBytes bs a s).byteAt y = s.byteAt y := by
  induction bs generalizing a s with
  | nil => rfl
  | cons b bs ih =>
    simp only [List.length_cons, byteAddrs, List.map_cons, List.cons.injEq] at h
    obtain ⟨rfl, hbs⟩ := h
    rw [placeBytes, ih, State.setByte_byteAt_self]
    simpa only [State.setByte_byteAt_self] using hbs

/-- MOVE.L from (An)+ to a mode that steps the same register: the longword is written where the register, as the source
has left it, points. -/
theorem exec_moveL_postinc {n : AReg} {dst : Ea} {s : State} {a : Word} (hd : dst = .postinc n ∨ dst = .predec n)
    (ha : effAddr dst .l 0 (stepEa (.postinc n) .l s) = a) (hr : Readable s (s.getA n) 4) (hw : Writable s a 4) :
    ∃ t u, exec (.moveL (.postinc n) dst) s = .next t ∧
      t.getA n = (stepEa dst .l (stepEa (.postinc n) .l s)).getA n ∧
      t.mem = (placeBytes (beBytes (valueAt s (s.getA n) 4) 4) a u).mem ∧ ∀ y, u.byteAt y = s.byteAt y := by
  have hmodes : dst.isMemoryAlterable = true ∧ eaStop s.params dst (s.pc + 2) = none ∧
      effAddr dst .l (s.pc + 2) (stepEa (.postinc n) .l s) = a := by
    obtain rfl | rfl := hd <;> exact ⟨rfl, rfl, ha⟩
  obtain ⟨hm, hstop, haddr⟩ := hmodes
  have hdst : EaWritable dst .l (s.pc + 2) (stepEa (.postinc n) .l s) := by
    refine ⟨hstop, fun _ => ?_⟩
    rw [haddr]
    exact hw.of_eq (stepEa_params _ _ _)
  have hv : eaValue (.postinc n) .l (s.pc + 2) s = valueAt s (s.getA n) 4 := rfl
  refine ⟨_, stepEa dst .l (stepEa (.postinc n) .l s), exec_move_plain (sz := .l) rfl (isDataAlterable_of_memory hm)
    ⟨rfl, fun _ => hr⟩ (BitVec.add_zero _).symm rfl hdst, ?_, ?_, fun y => ?_⟩
  · rw [State.setPc_getA, State.setCcr_getA, eaWrite_memory (eaInMemory_of_isMemoryAlterable hm), placeBytes_getA]
  · rw [State.setPc_mem, State.setCcr_mem, eaWrite_memory (eaInMemory_of_isMemoryAlterable hm), haddr, hv]
    rfl
  · rw [stepEa_byteAt, stepEa_byteAt]

/-- Settles O36: the destination's address is taken from the register as the source has left it; -(An) brings it back,
and what is written there is what was read. -/
theorem moveThroughOneRegister : Obligations.MoveThroughOneRegister := by
  intro n s
  have hstepped : (stepEa (.postinc n) .l s).getA n = s.getA n + 4 := State.setA_getA_same _ _ _
  constructor
  · intro hr hw
    obtain ⟨t, u, ht, hreg, hmem, hu⟩ := exec_moveL_postinc (.inl rfl) hstepped hr hw
    refine ⟨t, ht, ?_, ?_, fun y hy => ?_⟩
    · rw [hreg, stepEa, State.setA_getA_same, hstepped, BitVec.add_assoc]
      rfl
    · rw [valueAt_of_mem hmem]
      exact valueAt_placeBytes .l _ _ _
    · rw [byteAt_of_mem hmem, placeBytes_byteAt_outside (by rwa [beBytes_length]), hu]
  · intro hw
    have hback : effAddr (.predec n) .l 0 (stepEa (.postinc n) .l s) = s.getA n := by
      rw [effAddr, hstepped]
      exact BitVec.add_sub_cancel _ _
    obtain ⟨t, u, ht, hreg, hmem, hu⟩ := exec_moveL_postinc (.inr rfl) hback hw.readable hw
    refine ⟨t, ht, ?_, fun y => ?_⟩
    · exact hreg.trans ((State.setA_getA_same _ _ _).trans hback)
    · have hheld : beBytes (valueAt s (s.getA n) 4) 4 =
          (byteAddrs (s.getA n) (beBytes (valueAt s (s.getA n) 4) 4).length).map fun x => u.byteAt x.toNat := by
        rw [beBytes_length, beBytes_valueAt_four]
        simp only [hu]
      rw [byteAt_of_mem hmem, placeBytes_byteAt_self hheld, hu]

end Sys2Proof.Machine
end

section
/-! ### The twelve addressing modes (R101 to R114) -/

namespace Sys2Proof.Machine

theorem resolve_resolved {ea : Ea} {x : Word} {s : State} (h : eaStop s.params ea x = none) (sz : Size) :
    resolve ea sz x s = .ok (operandOf ea sz x s) (stepEa ea sz s) := by
  rw [resolve, h]

theorem resolve_stopped {ea : Ea} {x : Word} {s : State} {st : Stop} (h : eaStop s.params ea x = some st) (sz : Size) :
    resolve ea sz x s = st.toRes s := by
  rw [resolve, h]

/-- The first check of an index word is of bit 8 (R114). -/
theorem indexStop_reserved {p : Params} {e : IndexWord} (x : Word) (hr : e.reserved = true) :
    indexStop p e x = some (.refusal (.encoding .reservedExtensionWord)) := if_pos hr

/-- The second is of W/L. -/
theorem indexStop_word {p : Params} {e : IndexWord} (x : Word) (hr : e.reserved = false) (hl : e.long = false) :
    indexStop p e x = some (.cause (.addressError x .index)) := by
  rw [indexStop, hr, if_neg Bool.false_ne_true, if_pos hl]

/-- The third is of Scale. -/
theorem indexStop_scale {p : Params} {e : IndexWord} (x : Word) (hr : e.reserved = false) (hl : e.long = true)
    (hs : e.scale = 3) (hf : p.hasFpu = false) : indexStop p e x = some (.cause (.addressError x .index)) := by
  rw [indexStop, hr, hl, if_neg Bool.false_ne_true, if_neg Bool.noConfusion, if_pos ⟨hs, hf⟩]

/-- Settles O25: the modes without an index word resolve as they stand, the two with one by what its checks answer. -/
theorem addressingModes : Obligations.AddressingModes := by
  intro s sz x dn n d a v e
  refine ⟨rfl, rfl, rfl, rfl, rfl, rfl, rfl, rfl, rfl, rfl, fun ea hea => ?_, fun hr hl hs => ?_⟩
  · have hstop : eaStop s.params ea x = indexStop s.params e x := by
      obtain rfl | rfl := hea <;> rfl
    refine ⟨fun hr => ?_, fun hr hl => ?_, fun hr hl hs hf => ?_⟩
    · exact resolve_stopped (hstop.trans (indexStop_reserved x hr)) sz
    · exact resolve_stopped (hstop.trans (indexStop_word x hr hl)) sz
    · exact resolve_stopped (hstop.trans (indexStop_scale x hr hl hs hf)) sz
  · have hstop := indexStop_eq_none x hr hl hs
    rw [← indexValue_eq_mul]
    exact ⟨resolve_resolved (ea := .index e n) hstop sz, resolve_resolved (ea := .pcIndex e) hstop sz⟩

end Sys2Proof.Machine
end

section
/-! ### The exceptions a step raises in supervisor mode (R130, R201, R203) -/

namespace Sys2Proof.Machine

theorem aluToD_errors (f : Word → Word → Word) (g : Ccr → Word → Word → Ccr) (ea : Ea) (dx : DReg) (s : State) :
    (aluToD f g ea dx s).Errors :=
  moveSource_errors fun _ _ => trivial

theorem aluToEa_errors (f : Word → Word → Word) (g : Ccr → Word → Word → Ccr) (dy : DReg) (ea : Ea) (s : State) :
    (aluToEa f g dy ea s).Errors :=
  withOperand_errors fun _ _ => (readOp_errors _ _ _).bind fun _ _ => (writeOp_errors _ _ _ _).bind fun _ _ => trivial

theorem clrBody_errors (sz : Size) (ea : Ea) (s : State) : (clrBody sz ea s).Errors :=
  withOperand_errors fun _ _ => (writeOp_errors _ _ _ _).bind fun _ _ => trivial

theorem bsetBody_errors (b : Nat) (ea : Ea) (x : Word) (s : State) : (bsetBody b ea x s).Errors := by
  simp only [bsetBody]
  split
  · trivial
  · exact withOperand_errors fun _ _ => (readOp_errors _ _ _).bind fun _ _ =>
      (writeOp_errors _ _ _ _).bind fun _ _ => trivial

/-- An operand of which only the address is used raises no more than its index word does. -/
theorem withOperand_addr_errors {α : Type} {ea : Ea} {sz : Size} {x : Word} {s : State} {k : Word → State → Res α}
    (hk : ∀ a t, (k a t).Errors) : (withOperand ea sz x s fun op s1 => (operandAddr op s1).bind k).Errors :=
  withOperand_errors fun _ _ => (operandAddr_errors _ _).bind hk

/-- A fetch raises an address error for an odd pc, and else access errors alone (R43, R49). -/
theorem fetchInstr_errors (s : State) : (fetchInstr s).Errors := by
  simp only [fetchInstr]
  split
  · rfl
  split
  next hc =>
    obtain ⟨_, _, rfl⟩ := Option.map_eq_some_iff.mp hc
    rfl
  split
  · trivial
  split
  · trivial
  split
  · trivial
  split
  · trivial
  next hc => exact fetchExts_errors hc

/-- An outcome of the machine that is the end of an instruction which raises access and address errors alone. -/
def DeliversErrors (o : Host.Outcome State Fault Refusal) : Prop := ∃ r : Res Unit, o = deliver r ∧ r.Errors

theorem deliversErrors_finish {n : Nat} {r : Res Unit} (h : r.Errors) : DeliversErrors (finish n r) :=
  ⟨_, rfl, h.bind fun _ _ => trivial⟩

/-- An instruction that only writes the state raises nothing. -/
theorem deliversErrors_next (s : State) : DeliversErrors (.next s) := ⟨.ok () s, rfl, trivial⟩

/-- No arithmetic, move, logic or control instruction has an exception of its own; HALT's needs user mode (R186). -/
theorem exec_deliversErrors (i : Instr) {s : State} (hs : s.sr.s = true) : DeliversErrors (exec i s) := by
  cases i with
  | addx dy dx => exact deliversErrors_next _
  | addToD ea dx => exact deliversErrors_finish (aluToD_errors _ _ ea dx s)
  | addToEa dy ea => exact deliversErrors_finish (aluToEa_errors _ _ dy ea s)
  | adda ea ax => exact deliversErrors_finish (moveSource_errors fun _ _ => trivial)
  | addi data dx => exact deliversErrors_next _
  | subToD ea dx => exact deliversErrors_finish (aluToD_errors _ _ ea dx s)
  | subToEa dy ea => exact deliversErrors_finish (aluToEa_errors _ _ dy ea s)
  | cmpa ea ax => exact deliversErrors_finish (moveSource_errors fun _ _ => trivial)
  | andToD ea dx => exact deliversErrors_finish (aluToD_errors _ _ ea dx s)
  | andToEa dy ea => exact deliversErrors_finish (aluToEa_errors _ _ dy ea s)
  | movea sz ea ax => exact deliversErrors_finish (moveSource_errors fun _ _ => trivial)
  | moveB src dst => exact deliversErrors_finish (moveBody_errors fun _ => trivial)
  | moveL src dst => exact deliversErrors_finish (moveBody_errors fun _ => trivial)
  | moveW src dst => exact deliversErrors_finish (moveBody_errors fun _ => trivial)
  | moveq data dx => exact deliversErrors_next _
  | movemStore mask ea => exact deliversErrors_finish (withOperand_addr_errors fun _ _ => storeAll_errors _ _ _)
  | movemLoad mask ea => exact deliversErrors_finish (withOperand_addr_errors fun _ _ => loadAll_errors _ _ _)
  | lea ea ax => exact deliversErrors_finish (withOperand_addr_errors fun _ _ => trivial)
  | clrB ea => exact deliversErrors_finish (clrBody_errors _ ea s)
  | clrW ea => exact deliversErrors_finish (clrBody_errors _ ea s)
  | clrL ea => exact deliversErrors_finish (clrBody_errors _ ea s)
  | asrImm count dx => exact deliversErrors_next _
  | asrReg dy dx => exact deliversErrors_next _
  | bsetImm num ea => exact deliversErrors_finish (bsetBody_errors _ ea _ s)
  | bsetReg dy ea => exact deliversErrors_finish (bsetBody_errors _ ea _ s)
  | bsr disp => exact ⟨_, rfl, (memWrite_errors _ _ _ _).bind fun _ _ => trivial⟩
  | rts => exact ⟨_, rfl, (memRead_errors _ _ _).bind fun _ _ => trivial⟩
  | halt =>
    have he : exec .halt s = .next { s with status := .halted } := by
      simp only [exec, execHalt, hs, Bool.true_or, if_true, deliver_ok]
    exact he ▸ deliversErrors_next _
  | _ => exact deliversErrors_next _ -- the branches, taken or not

theorem runFetched_deliversErrors (i : Instr) {s : State} (hs : s.sr.s = true) : DeliversErrors (runFetched i s) := by
  have hm : ∀ sz src dst, DeliversErrors (runMove sz src dst s) := fun sz src dst =>
    deliversErrors_finish (moveBody_errors fun t => fetchDst_errors sz dst _ t)
  simp only [runFetched]
  split
  · exact hm _ _ _
  · exact hm _ _ _
  · exact hm _ _ _
  · exact exec_deliversErrors _ hs

theorem DeliversErrors.isAccessOrAddress {r : FaultRecord} {t : State}
    (h : DeliversErrors (.fault (.exception r t))) : r.cause.isAccessOrAddress = true := by
  obtain ⟨x, hx, he⟩ := h
  obtain ⟨c, u, rfl, hc⟩ := deliver_fault hx.symm
  obtain ⟨_, hf⟩ := takeException_fault hc
  cases hf
  exact he

/-- The fetch leaves supervisor mode on, and neither it nor the instruction raises anything else. -/
theorem step_deliversErrors {s : State} (hrun : s.status = .running) (hrec : s.faultRecord = none)
    (hs : s.sr.s = true) : DeliversErrors (step s) := by
  have hf := fetchInstr_frame s
  have he := fetchInstr_errors s
  cases hi : fetchInstr s with
  | ok i u =>
    rw [hi] at hf
    have hu : u.sr.s = true := by rw [AccessFrame.sr hf, hs]
    rw [step_of_fetched hrun hrec hi]
    exact runFetched_deliversErrors i hu
  | raise c u =>
    rw [hi] at he
    exact ⟨.raise c u, step_of_fetch_raised hrun hrec hi, he⟩
  | refuse e => exact ⟨.refuse e, step_of_fetch_refused hrun hrec hi, trivial⟩

theorem isAccessOrAddress_iff (c : Cause) :
    c.isAccessOrAddress = true ↔ (∃ info on, c = .addressError info on) ∨ ∃ info k rom, c = .accessError info k rom := by
  cases c <;> simp [Cause.isAccessOrAddress]

/-- Settles O18: the fetch and every instruction raise the two errors alone, HALT's privilege violation being user
mode's. -/
theorem onlyAddressAndAccessErrors : Obligations.OnlyAddressAndAccessErrors := by
  intro s t r hs h
  obtain ⟨hrun, hrec⟩ := running_of_step (.inr ⟨r, t, h⟩)
  have hd : DeliversErrors (.fault (.exception r t)) := h ▸ step_deliversErrors hrun hrec hs
  exact (isAccessOrAddress_iff _).mp hd.isAccessOrAddress

end Sys2Proof.Machine
end

section
/-! ### ADDX, ADDI, ADDA and CMPA (R131, R133, R134, R136) -/

namespace Sys2Proof.Machine

/-- Z is only cleared, by a result that is not zero (R131). -/
theorem ccrAddx_eq (old : Ccr) (r : Alu) :
    ccrAddx old r = ⟨r.carry, r.res.msb, old.z && r.res == 0, r.overflow, r.carry⟩ := by
  have hz : (if r.res = 0 then old.z else false) = (old.z && r.res == 0) := by
    split
    next h => rw [beq_iff_eq.mpr h, Bool.and_true]
    next h => rw [beq_eq_false_iff_ne.mpr h, Bool.and_false]
  rw [ccrAddx, hz]

/-- Settles O28: the model's flags, with Z as a conjunction. -/
theorem addxResult : Obligations.AddxResult := by
  intro dy dx s r
  rw [← ccrAddx_eq]
  rfl

/-- Settles O31: the meaning of ADDI has no access, and its length is fixed. -/
theorem addiResult : Obligations.AddiResult := fun _ _ _ => rfl

/-- An instruction that reads a plain source and then changes anything but pc. -/
theorem finish_source_plain {ea : Ea} {s : State} (h : EaReadable ea .l (s.pc + 2) s) (n : Nat)
    {f : Word → State → State} (hpc : ∀ v t, (f v t).pc = t.pc) :
    finish n (withOperand ea .l s.ext s fun op s1 => (readOp op .l s1).bind fun v s2 => .ok () (f v s2)) =
      .next ((f (eaValue ea .l (s.pc + 2) s) (stepEa ea .l s)).setPc (s.pc + BitVec.ofNat 32 (2 * n))) := by
  have hsrc : EaReadable ea .l s.ext s := h
  rw [withOperand_read hsrc, forgetStepped_ok, finish_ok, hpc, stepEa_pc, State.ext]

/-- Settles O30: the sum is taken in the state the source's side effect leaves. -/
theorem addaResult : Obligations.AddaResult := fun _ ax _ h =>
  finish_source_plain h _ (f := fun v t => t.setA ax (t.getA ax + v)) fun _ _ => rfl

theorem subB_res (s d : Word) : (subB s d false).res = d - s := BitVec.sub_zero _

/-- Without a borrow coming in, the borrow orders the unsigned numbers. -/
theorem subB_carry (s d : Word) : (subB s d false).carry = decide (d.toNat < s.toNat) := rfl

/-- The difference's sign, corrected by the overflow, orders the signed numbers: a difference that does not fit a word
has the other sign. -/
theorem subB_msb_bne_overflow (s d : Word) :
    ((subB s d false).res.msb != (subB s d false).overflow) = decide (d.toInt < s.toInt) := by
  have hv := subB_overflow s d false
  have hr : (subB s d false).res.toInt = (d.toInt - s.toInt).bmod (2 ^ 32) := by rw [subB_res, BitVec.toInt_sub]
  have hs := s.le_toInt
  have hs' := s.toInt_lt
  have hd := d.le_toInt
  have hd' := d.toInt_lt
  rw [BitVec.msb_eq_toInt]
  simp only [Int.bmod_def, Bool.toNat_false] at hr hv
  cases ho : (subB s d false).overflow <;>
    simp only [ho, true_iff, Bool.true_eq_false, false_iff, Bool.bne_false, Bool.bne_true, ← decide_not,
      decide_eq_decide] at hv ⊢ <;> omega

/-- CMPA's flags are a comparison: Z of equal operands, C of unsigned ones in order. -/
theorem ccrCompare_subB (old : Ccr) (s d : Word) :
    ccrCompare old (subB s d false) =
      ⟨old.x, (d - s).msb, d == s, (subB s d false).overflow, decide (d.toNat < s.toNat)⟩ := by
  have hz : (d - s == 0) = (d == s) := by
    rw [Bool.eq_iff_iff, beq_iff_eq, beq_iff_eq]
    exact sub_eq_zero
  rw [ccrCompare, subB_res, subB_carry, hz]

/-- Settles O33: V is SubB's overflow, which with N gives the signed order. -/
theorem cmpaResult : Obligations.CmpaResult := by
  intro ea ax s h
  have hexec := finish_source_plain h (Instr.cmpa ea ax).words
    (f := fun v t => t.setCcr (ccrCompare t.ccr (subB v (t.getA ax) false))) fun _ _ => rfl
  rw [ccrCompare_subB, stepEa_ccr] at hexec
  refine ⟨_, _, hexec, rfl, ?_⟩
  rw [← subB_res]
  exact subB_msb_bne_overflow _ _

end Sys2Proof.Machine
end

section
/-! ### A sum of two longwords each (R131, R132) -/

namespace Sys2Proof.Machine

theorem toNat_append_word (hi lo : Word) : (hi ++ lo).toNat = 2 ^ 32 * hi.toNat + lo.toNat := by
  rw [BitVec.toNat_append, Nat.shiftLeft_eq, Nat.mul_comm, Nat.two_pow_add_eq_or_of_lt lo.isLt]

/-- The sum of the high longwords takes the carry of the low ones, and its own carry is bit 64 of the whole sum. -/
theorem addC_addC_toNat (hi lo hi' lo' : Word) :
    let l := addC lo lo' false
    let h := addC hi hi' l.carry
    (h.res ++ l.res).toNat + (if h.carry then 2 ^ 64 else 0) = (hi ++ lo).toNat + (hi' ++ lo').toNat := by
  intro l h
  have hlow : l.res.toNat + (if l.carry then 2 ^ 32 else 0) = lo.toNat + lo'.toNat := addC_toNat lo lo' false
  have hhigh : h.res.toNat + (if h.carry then 2 ^ 32 else 0) = hi.toNat + hi'.toNat + l.carry.toNat :=
    addC_toNat hi hi' l.carry
  simp only [toNat_append_word]
  cases hl : l.carry <;> cases hh : h.carry <;>
    simp only [hl, hh, Bool.toNat_true, Bool.toNat_false, Bool.false_eq_true, if_true, if_false] at hlow hhigh ⊢ <;>
    omega

theorem addC_append_addC (hi lo hi' lo' : Word) :
    (addC hi hi' (addC lo lo' false).carry).res ++ (addC lo lo' false).res = (hi ++ lo) + (hi' ++ lo') := by
  have h := addC_addC_toNat hi lo hi' lo'
  have hlt := ((addC hi hi' (addC lo lo' false).carry).res ++ (addC lo lo' false).res).isLt
  apply BitVec.eq_of_toNat_eq
  rw [BitVec.toNat_add, ← h]
  split <;> omega

theorem addC_addC_carry (hi lo hi' lo' : Word) :
    (addC hi hi' (addC lo lo' false).carry).carry = decide (2 ^ 64 ≤ (hi ++ lo).toNat + (hi' ++ lo').toNat) := by
  have h := addC_addC_toNat hi lo hi' lo'
  have hlt := ((addC hi hi' (addC lo lo' false).carry).res ++ (addC lo lo' false).res).isLt
  rw [Bool.eq_iff_iff, decide_eq_true_iff, ← h]
  split
  next hc => exact iff_of_true hc (by omega)
  next hc => exact iff_of_false hc (by omega)

/-- A pair of longwords is zero where both are. -/
theorem append_beq_zero (hi lo : Word) : (hi ++ lo == 0#64) = (lo == 0 && hi == 0) := by
  have h := toNat_append_word hi lo
  rw [Bool.eq_iff_iff, Bool.and_eq_true, beq_iff_eq, beq_iff_eq, beq_iff_eq]
  bv_omega

theorem exec_addToD_dreg (dy dx : DReg) (s : State) :
    let r := addC (s.getD dy) (s.getD dx) false
    ∃ t, exec (.addToD (.dreg dy) dx) s = .next t ∧ (∀ n, t.getD n = if n = dx then r.res else s.getD n) ∧
      t.ccr = ⟨r.carry, r.res.msb, r.res == 0, r.overflow, r.carry⟩ :=
  ⟨_, addResult.1 (.dreg dy) dx s ⟨rfl, nofun⟩, fun n => State.setD_getD s dx n _, rfl⟩

theorem exec_addx_dreg (dy dx : DReg) (s : State) :
    let r := addC (s.getD dy) (s.getD dx) s.ccr.x
    ∃ t, exec (.addx dy dx) s = .next t ∧ (∀ n, t.getD n = if n = dx then r.res else s.getD n) ∧
      t.ccr = ⟨r.carry, r.res.msb, s.ccr.z && r.res == 0, r.overflow, r.carry⟩ :=
  ⟨_, addxResult dy dx s, fun n => State.setD_getD s dx n _, rfl⟩

/-- Settles O34: ADDX takes the X flag that ADD left, and keeps Z only where ADD set it. -/
theorem multiplePrecisionSum : Obligations.MultiplePrecisionSum := by
  intro s lo hi lo' hi' _ hll hlh hhl hhh hlo
  obtain ⟨t, ht, htd, htc⟩ := exec_addToD_dreg lo lo' s
  obtain ⟨u, hu, hud, huc⟩ := exec_addx_dreg hi hi' t
  have hhi : t.getD hi = s.getD hi := (htd hi).trans (if_neg hhl)
  have hhi' : t.getD hi' = s.getD hi' := (htd hi').trans (if_neg hlo.symm)
  simp only [hhi, hhi', htc] at hud huc
  have hsum := addC_append_addC (s.getD hi) (s.getD lo) (s.getD hi') (s.getD lo')
  refine ⟨t, u, ht, hu, ?_, ?_, ?_, ?_, ?_, ?_, ?_⟩
  · rw [hud, hud, if_pos rfl, if_neg hlo, htd, if_pos rfl, hsum]
  · rw [huc]
    exact addC_addC_carry _ _ _ _
  · rw [huc]
  · rw [huc, ← hsum, BitVec.msb_append]
    rfl
  · rw [huc, ← hsum, append_beq_zero]
  · rw [hud, if_neg hlh, htd, if_neg hll]
  · rw [hud, if_neg hhh, hhi]

end Sys2Proof.Machine
end

section
/-! ### MOVEA and MOVEQ (R152, R153) -/

namespace Sys2Proof.Machine

/-- MOVEA of a plain source: the register is written after the source's side effect, and no flag is (R152). -/
theorem exec_movea_plain {sz : Size} {ea : Ea} {s : State} (h : EaReadable ea sz (s.pc + 2) s) (ax : AReg) :
    exec (.movea sz ea ax) s =
      .next (((stepEa ea sz s).setA ax (sext sz (eaValue ea sz (s.pc + 2) s))).setPc
        (s.pc + BitVec.ofNat 32 (2 * (1 + ea.words sz)))) := by
  have hsrc : EaReadable ea sz s.ext s := h
  rw [exec, execMovea, moveSource, withOperand_read hsrc, forgetStepped_ok, finish_ok, State.setA_pc, stepEa_pc,
    State.ext, Instr.words]

/-- The flags of a sign-extended byte are the byte's: its sign, and whether it is zero. -/
theorem ccrLogic_signExtend (old : Ccr) (data : Byte) :
    ccrLogic old .l (data.signExtend 32) = ⟨old.x, data.msb, data == 0, false, false⟩ := by
  have hn : signBit .l (data.signExtend 32) = data.msb :=
    (BitVec.msb_eq_getLsbD_last _).symm.trans BitVec.msb_signExtend
  have hz : (data.signExtend 32 == 0) = (data == 0) := by
    rw [Bool.eq_iff_iff, beq_iff_eq, beq_iff_eq, ← BitVec.toInt_inj, ← BitVec.toInt_inj,
      BitVec.toInt_signExtend_of_le (by decide)]
    rfl
  rw [ccrLogic, hn, hz]

/-- Settles O37: MOVEA by its size; MOVEQ has no access, and its flags are the byte's. -/
theorem moveaAndMoveqResult : Obligations.MoveaAndMoveqResult := by
  refine ⟨fun _ ax _ h => exec_movea_plain h ax, fun _ ax _ h => exec_movea_plain h ax, fun data dx s => ?_⟩
  rw [exec, execMoveq, ccrLogic_signExtend, finish_ok]
  rfl

end Sys2Proof.Machine
end

section
/-! ### MOVEM's register list (R155) -/

namespace Sys2Proof.Machine

theorem maskReg_castAdd (n : Fin 8) : maskReg (Fin.castAdd 8 n) = .d ⟨n⟩ := dif_pos n.isLt

theorem maskReg_natAdd (n : Fin 8) : maskReg (Fin.natAdd 8 n) = .a ⟨n⟩ := by
  have h : ¬(Fin.natAdd 8 n).val < 8 := Nat.not_lt.mpr (Nat.le_add_right 8 n)
  have hn : (Fin.natAdd 8 n).val - 8 = n.val := Nat.add_sub_cancel_left _ _
  rw [maskReg, dif_neg h]
  simp only [hn]

theorem mem_maskRegs_iff (mask : Half) (r : AnyReg) :
    r ∈ maskRegs mask ↔ ∃ i : Fin 16, mask.getLsbD i = true ∧ maskReg i = r := by
  simp only [maskRegs, List.mem_map, List.mem_filter, List.mem_finRange, true_and]

/-- The listed bits below `k`, counted among the register numbers. -/
theorem length_filter_take_finRange {k : Nat} (hk : k ≤ 16) (p : Nat → Bool) :
    (((List.finRange 16).take k).filter fun i => p i.val).length = ((List.range k).filter p).length := by
  have hr : List.range k = ((List.finRange 16).take k).map Fin.val := by
    rw [List.map_take, List.map_coe_finRange_eq_range, List.take_range, Nat.min_eq_left hk]
  rw [hr, List.filter_map, List.length_map]
  rfl

/-- An element that passes a filter stands after the ones before it that do. -/
theorem getElem?_filter_take_length {α : Type} {p : α → Bool} {l : List α} {i : Nat} (hi : i < l.length)
    (h : p l[i] = true) : (l.filter p)[((l.take i).filter p).length]? = some l[i] := by
  have hl : l.filter p = (l.take i).filter p ++ l[i] :: (l.drop (i + 1)).filter p := by
    rw [← List.filter_cons_of_pos h, ← List.filter_append, ← List.drop_eq_getElem_cons hi, List.take_append_drop]
  rw [hl, List.getElem?_append_right (Nat.le_refl _), Nat.sub_self]
  rfl

/-- A listed register stands at the number of listed bits below its own (R155). -/
theorem maskRegs_getElem?_below (mask : Half) (i : Fin 16) (h : mask.getLsbD i = true) :
    (maskRegs mask)[((List.range i).filter fun j => mask.getLsbD j).length]? = some (maskReg i) := by
  have hi : i.val < (List.finRange 16).length := i.isLt.trans_eq List.length_finRange.symm
  have hget : (List.finRange 16)[i.val] = i := List.getElem_finRange hi
  have hpos := getElem?_filter_take_length (p := fun i : Fin 16 => mask.getLsbD i) hi (by rwa [hget])
  rw [maskRegs, List.getElem?_map, ← length_filter_take_finRange i.isLt.le, hpos, hget]
  rfl

theorem maskRegs_length (mask : Half) :
    (maskRegs mask).length = ((List.range 16).filter fun j => mask.getLsbD j).length := by
  rw [maskRegs, List.length_map, ← length_filter_take_finRange (Nat.le_refl 16),
    List.take_of_length_le List.length_finRange.le]

end Sys2Proof.Machine
end

section
/-! ### MOVEM's transfers where none faults (R155) -/

namespace Sys2Proof.Machine

/-- Longwords stored at ascending addresses are one run of bytes. -/
theorem storeAll_plain {vs : List Word} {a : Word} {s : State}
    (h : ∀ k < vs.length, Writable s (a + BitVec.ofNat 32 (4 * k)) 4) :
    storeAll vs a s = .ok () (placeBytes (vs.flatMap fun v => beBytes v 4) a s) := by
  induction vs generalizing a s with
  | nil => rfl
  | cons v vs ih =>
    have hfirst := h 0 (Nat.succ_pos _)
    rw [Nat.mul_zero, BitVec.add_zero] at hfirst
    have hrest := ih (a := a + 4) (s := placeBytes (beBytes v 4) a s) fun k hk =>
      add_four_add_ofNat a k ▸ (h (k + 1) (Nat.succ_lt_succ hk)).of_eq (placeBytes_params _ _ _)
    rw [storeAll, memWrite_plain hfirst, Res.bind_ok, hrest, List.flatMap_cons, placeBytes_append, beBytes_length]
    rfl

/-- Longwords loaded from ascending addresses are those of the state before the first; `i` longwords at `a` have been
transferred in `t`. -/
theorem loadAll_plain {i : Nat} {rs : List AnyReg} {a : Word} {s t : State} (hp : t.params = s.params)
    (hm : t.mem = s.mem) (h : ∀ k < rs.length, Readable s (a + BitVec.ofNat 32 (4 * (i + k))) 4) :
    loadAll rs (a + BitVec.ofNat 32 (4 * i)) t =
      .ok () ((rs.zipIdx i).foldl (fun t r => t.setR r.1 (valueAt s (a + BitVec.ofNat 32 (4 * r.2)) 4)) t) := by
  induction rs generalizing i t with
  | nil => rfl
  | cons r rs ih =>
    have hread : Readable t (a + BitVec.ofNat 32 (4 * i)) 4 := (h 0 (Nat.succ_pos _)).of_eq hp
    have hnext : a + BitVec.ofNat 32 (4 * i) + 4 = a + BitVec.ofNat 32 (4 * (i + 1)) :=
      (add_right_comm _ _ _).trans (add_four_add_ofNat a i)
    have hrest : ∀ k < rs.length, Readable s (a + BitVec.ofNat 32 (4 * (i + 1 + k))) 4 := fun k hk => by
      rw [Nat.add_assoc, Nat.add_comm 1 k]
      exact h (k + 1) (Nat.succ_lt_succ hk)
    rw [loadAll, memRead_plain hread, Res.bind_ok, hnext, valueAt_of_mem hm]
    exact ih ((setR_params _ _ _).trans hp) ((setR_mem _ _ _).trans hm) hrest

/-- MOVEM to memory, where every store is made. -/
theorem exec_movemStore_plain {mask : Half} {ea : Ea} {s : State} (hm : ea.isMovem = true)
    (h : ∀ k < (maskRegs mask).length, Writable s (effAddr ea .l (s.pc + 2 + 2) s + BitVec.ofNat 32 (4 * k)) 4) :
    exec (.movemStore mask ea) s =
      .next ((placeBytes ((maskRegs mask).flatMap fun r => beBytes (s.getR r) 4) (effAddr ea .l (s.pc + 2 + 2) s)
        s).setPc (s.pc + BitVec.ofNat 32 (2 * (2 + ea.words .l)))) := by
  have hstore := storeAll_plain (vs := (maskRegs mask).map s.getR) (by rwa [List.length_map])
  rw [exec, execMovemStore, withOperand_movem hm, State.ext, hstore, finish_ok, placeBytes_pc, List.flatMap_map,
    Instr.words]

/-- Settles O38: the stores one after another, and the list's order by the bit a register stands for. -/
theorem movemStoreResult : Obligations.MovemStoreResult := by
  refine ⟨fun _ _ _ hm h => exec_movemStore_plain hm h, fun mask r => ?_,
    fun mask => ⟨maskRegs_length mask, ?_, ?_⟩⟩
  · rw [mem_maskRegs_iff]
    constructor
    · rintro ⟨i, hi, rfl⟩
      induction i using Fin.addCases (m := 8) (n := 8) with
      | left n => exact .inl ⟨⟨n⟩, maskReg_castAdd n, hi⟩
      | right n => exact .inr ⟨⟨n⟩, maskReg_natAdd n, hi⟩
    · rintro (⟨n, rfl, hn⟩ | ⟨n, rfl, hn⟩)
      · exact ⟨Fin.castAdd 8 n.num, hn, maskReg_castAdd _⟩
      · exact ⟨Fin.natAdd 8 n.num, hn, maskReg_natAdd _⟩
  · intro n hn
    rw [← maskReg_castAdd n.num]
    exact maskRegs_getElem?_below mask (Fin.castAdd 8 n.num) hn
  · intro n hn
    rw [← maskReg_natAdd n.num]
    exact maskRegs_getElem?_below mask (Fin.natAdd 8 n.num) hn

theorem setR_pc (s : State) (r : AnyReg) (v : Word) : (s.setR r v).pc = s.pc := by cases r <;> rfl

/-- Loads write registers alone. -/
theorem foldl_setR_pc (v : AnyReg × Nat → Word) (rs : List (AnyReg × Nat)) (s : State) :
    (rs.foldl (fun t r => t.setR r.1 (v r)) s).pc = s.pc := by
  induction rs generalizing s with
  | nil => rfl
  | cons r rs ih => rw [List.foldl_cons, ih, setR_pc]

/-- Settles O39: no load changes memory, so each register gets the longword the state before held. -/
theorem movemLoadResult : Obligations.MovemLoadResult := by
  intro mask ea s hm a h
  have hload := loadAll_plain (i := 0) (t := s) rfl rfl (by simpa only [Nat.zero_add] using h)
  rw [Nat.mul_zero, BitVec.add_zero] at hload
  rw [exec, execMovemLoad, withOperand_movem hm, State.ext, hload, finish_ok, foldl_setR_pc, Instr.words]

end Sys2Proof.Machine
end

section
/-! ### ASR (R172) -/

namespace Sys2Proof.Machine

/-- A shift by a word's length or more leaves the sign bit at every position: the model's two cases are one shift. -/
theorem asrResult_eq_sshiftRight (v : Word) (n : Nat) : asrResult v n = v.sshiftRight n := by
  unfold asrResult
  split
  next => rfl
  next hn =>
    ext i hi
    have hin : ¬n + i < 32 := by omega
    rw [BitVec.getElem_sshiftRight, dif_neg hin]
    cases v.msb
    · exact BitVec.getElem_zero hi
    · exact BitVec.getElem_allOnes i hi

/-- Past a word's length the last bit out is the sign bit, bit 31. -/
theorem asrLast_eq_getLsbD (v : Word) (n : Nat) : asrLast v n = v.getLsbD (min (n - 1) 31) := by
  unfold asrLast
  split
  next hn => rw [Nat.min_eq_left (by omega)]
  next hn => rw [Nat.min_eq_right (by omega), BitVec.msb_eq_getLsbD_last]

/-- A count of 0 shifts no bit out: C is cleared and X stays. -/
theorem ccrShift_eq (old : Ccr) (v : Word) (n : Nat) :
    ccrShift old v n =
      ⟨if n = 0 then old.x else v.getLsbD (min (n - 1) 31), (v.sshiftRight n).msb, v.sshiftRight n == 0, false,
        if n = 0 then false else v.getLsbD (min (n - 1) 31)⟩ := by
  rw [← asrLast_eq_getLsbD, ← asrResult_eq_sshiftRight, ccrShift]
  split <;> rfl

/-- A constant count shifts some bit out, and never past the sign bit. -/
theorem asrCount_bounds (count : BitVec 3) : 1 ≤ asrCount count ∧ asrCount count ≤ 8 := by
  have hlt := count.isLt
  unfold asrCount
  split
  next => omega
  next h0 =>
    have hpos : 0 < count.toNat := Nat.pos_of_ne_zero fun h => h0 (BitVec.eq_of_toNat_eq h)
    omega

/-- ASR by any count is the library's arithmetic shift, and is one word long. -/
theorem finish_asrBody (n : Nat) (dx : DReg) (s : State) :
    finish 1 (asrBody n dx s) =
      .next (((s.setD dx ((s.getD dx).sshiftRight n)).setCcr (ccrShift s.ccr (s.getD dx) n)).setPc (s.pc + 2)) := by
  rw [asrBody, asrResult_eq_sshiftRight, finish_ok]
  rfl

end Sys2Proof.Machine

namespace Sys2Proof
open Machine

/-- Settles O43: both forms are one shift by a count; a constant count is 1 to 8, so its last bit out is bit `n - 1`.
(In `Sys2Proof.Machine` the name is the model's function.) -/
theorem asrResult : Obligations.AsrResult := by
  constructor
  · intro count dx s n r
    obtain ⟨hpos, hle⟩ : 1 ≤ n ∧ n ≤ 8 := asrCount_bounds count
    have hn : n ≠ 0 := by omega
    have hmin : min (n - 1) 31 = n - 1 := by omega
    have hexec : exec (.asrImm count dx) s = finish 1 (asrBody n dx s) := rfl
    rw [hexec, finish_asrBody, ccrShift_eq, if_neg hn, if_neg hn, hmin]
  · intro dy dx s n r last
    have hexec : exec (.asrReg dy dx) s = finish 1 (asrBody n dx s) := rfl
    rw [hexec, finish_asrBody, ccrShift_eq]

end Sys2Proof
end

section
/-! ### A machine that is stopped (R186, R200, R217) -/

namespace Sys2Proof.Machine

theorem step_of_halted {s : State} (h : s.status = .halted) : step s = .fault .halted := by simp only [step, h]

theorem step_of_faultOnFault {s : State} (h : s.status = .faultOnFault) : step s = .fault .faultOnFault := by
  simp only [step, h]

theorem step_of_recorded {s : State} {r : FaultRecord} (hrun : s.status = .running) (hrec : s.faultRecord = some r) :
    step s = .fault (.alreadyFaulted r) := by simp only [step, hrun, hrec]

/-- Settles O10: the run status is asked first, then the fault record. -/
theorem stoppedMachineTakesNoStep : Obligations.StoppedMachineTakesNoStep := fun _ =>
  ⟨step_of_halted, step_of_faultOnFault, fun _ => step_of_recorded⟩

end Sys2Proof.Machine
end

section
/-! ### Branches and HALT (R181, R182, R186) -/

namespace Sys2Proof.Machine

/-- A branch with a displacement byte is one word long. -/
theorem branchNext_short (d : Byte) (s : State) : branchNext (.short d) s = s.pc + 2 := rfl

/-- A branch with a displacement word is two words long. -/
theorem branchNext_word (d : Half) (s : State) : branchNext (.word d) s = s.pc + 4 := rfl

theorem branchIf_eq (b : Bool) (disp : BranchDisp) (s : State) :
    branchIf b disp s = .next (s.setPc (if b then branchTarget disp s else branchNext disp s)) := rfl

/-- Settles O45: each branch is `branchIf` at its row of the condition table. -/
theorem branchResult : Obligations.BranchResult := by
  intro disp s move len go
  have hgo (b : Bool) : branchIf b disp s = go b := by
    rw [branchIf_eq]
    cases disp with
    | short d => rw [branchNext_short]; rfl
    | word d => rw [branchNext_word]; rfl
  have hcond (c : Cond) : branchIf (c.holds s.ccr) disp s = go (c.holds s.ccr) := hgo _
  exact ⟨hgo true, hcond .hi, hcond .ls, hcond .cc, hcond .cs, hcond .ne, hcond .eq, hcond .vc, hcond .vs, hcond .pl,
    hcond .mi, hcond .ge, hcond .lt, hcond .gt, hcond .le⟩

/-- Settles O48: HALT asks for supervisor mode or the debug control bit. -/
theorem haltResult : Obligations.HaltResult := by
  intro s
  constructor
  · intro h
    have hmay : (s.sr.s || s.params.userHalt) = true := Bool.or_eq_true_iff.mpr h
    rw [exec, execHalt, if_pos hmay, deliver_ok]
  · intro hs hu
    have hmay : ¬(s.sr.s || s.params.userHalt) = true := by simp [hs, hu]
    rw [exec, execHalt, if_neg hmay, deliver_raise]

end Sys2Proof.Machine
end

section
/-! ### Call and return (R184, R185, R245) -/

namespace Sys2Proof.Machine

/-- BSR with a plain stack, its return address and its target by the model's names. -/
theorem exec_bsr_plain {s : State} (h : Writable s (s.getA .sp - 4) 4) (disp : BranchDisp) :
    exec (.bsr disp) s =
      .next ((placeBytes (beBytes (branchNext disp s) 4) (s.getA .sp - 4)
        (s.setA .sp (s.getA .sp - 4))).setPc (branchTarget disp s)) := by
  rw [exec, execBsr, memWrite_plain (h.of_eq (State.setA_params s .sp (s.getA .sp - 4))), Res.bind_ok, deliver_ok]

theorem exec_rts_plain {s : State} (h : Readable s (s.getA .sp) 4) :
    exec .rts s = .next ((s.setA .sp (s.getA .sp + 4)).setPc (valueAt s (s.getA .sp) 4)) := by
  rw [exec, execRts, memRead_plain h, Res.bind_ok, deliver_ok]

/-- Settles O46: BSR by the form of its displacement; RTS is one access. -/
theorem callAndReturnResult : Obligations.CallAndReturnResult := by
  refine ⟨fun disp s h => ?_, fun s h => exec_rts_plain h⟩
  rw [exec_bsr_plain h]
  cases disp with
  | short d => rw [branchNext_short]; rfl
  | word d => rw [branchNext_word]; rfl

/-- The number in some bytes depends on those bytes only. -/
theorem valueAt_congr {s t : State} {a : Word} {n : Nat}
    (h : ∀ x ∈ byteAddrs a n, s.byteAt x.toNat = t.byteAt x.toNat) : valueAt s a n = valueAt t a n :=
  congrArg beValue (List.map_congr_left h)

/-- The longword that RTS pops is the address that BSR pushed, and the two steps of A7 cancel. -/
theorem exec_rts_of_pushed {u s : State} {r : Word} (h : Readable u (s.getA .sp - 4) 4)
    (hsp : u.getA .sp = s.getA .sp - 4) (hr : valueAt u (s.getA .sp - 4) 4 = r) :
    ∃ v, exec .rts u = .next v ∧ v.pc = r ∧ v.getA .sp = s.getA .sp := by
  refine ⟨_, exec_rts_plain (hsp ▸ h), ?_, ?_⟩
  · rw [State.setPc_pc, hsp, hr]
  · rw [State.setPc_getA, State.setA_getA_same, hsp, BitVec.sub_add_cancel]

/-- Settles O47: the subprogram has kept what RTS reads, A7 and the four bytes at it. -/
theorem returnFollowsCall : Obligations.ReturnFollowsCall := by
  intro disp s h move len
  have hnext : branchNext disp s = s.pc + len := by
    cases disp with
    | short d => exact branchNext_short d s
    | word d => exact branchNext_word d s
  refine ⟨_, exec_bsr_plain h disp, ?_, fun u hp hsp hbytes => ?_⟩
  · rw [State.setPc_pc]
    cases disp <;> rfl
  · rw [State.setPc_params, placeBytes_params, State.setA_params] at hp
    rw [State.setPc_getA, placeBytes_getA, State.setA_getA_same] at hsp hbytes
    refine exec_rts_of_pushed (h.readable.of_eq hp) hsp ?_
    rw [valueAt_congr hbytes, valueAt_of_mem (State.setPc_mem _ _), ← hnext]
    exact valueAt_placeBytes .l _ _ _

end Sys2Proof.Machine
end

section
/-! ### A fault under TRAP_MODEL = terminal (R200, R201, R208, R215, R216) -/

namespace Sys2Proof.Machine

/-- An instruction that ends in a recorded exception takes it before any flag is written (R208). -/
theorem exec_fault {i : Instr} {s t : State} {r : FaultRecord} (h : exec i s = .fault (.exception r t)) :
    ∃ c u, Quiet s u ∧ takeException c u = .fault (.exception r t) := by
  obtain ⟨_, he, hr⟩ := exec_outcome i s
  exact deliver_fault_cases hr (he ▸ h)

/-- Settles O17: the exception is taken in a state that has the pc, the flags and the status register of the one before
the instruction, and the faulted state adds the record alone. -/
theorem faultsArePrecise : Obligations.FaultsArePrecise := by
  intro s t r h
  obtain ⟨c, u, hq, hc⟩ : ∃ c u, Quiet s u ∧ takeException c u = .fault (.exception r t) := by
    obtain h | ⟨i, h⟩ := h
    · exact step_fault h
    · exact exec_fault h
  obtain ⟨hterm, hf⟩ := takeException_fault hc
  cases hf
  exact ⟨hq.pc, rfl, hq.pc, hq.ccr, hq.sr, hq.status, hq.mem.params ▸ hterm⟩

/-- Settles O49: the faulted state still runs, so it is not final, and its record is what stops the next step. -/
theorem terminalExceptionRecords : Obligations.TerminalExceptionRecords := by
  intro c s hterm hrun
  refine ⟨_, takeException_terminal hterm, rfl, fun hfinal => ?_, step_of_recorded hrun rfl⟩
  have hhalted : s.status = .halted := hfinal
  rw [hrun] at hhalted
  cases hhalted

/-- Settles O51: each is the row of its cause in the two tables. -/
theorem vectorsAndFaultStatus : Obligations.VectorsAndFaultStatus := fun _ _ _ _ =>
  ⟨rfl, rfl, rfl, rfl, rfl, rfl, rfl, rfl, rfl, rfl, rfl, rfl, rfl⟩

end Sys2Proof.Machine
end

section
/-! ### Exception entry under TRAP_MODEL = vectored, and the return (R30, R214, R217) -/

namespace Sys2Proof.Machine

/-! #### The status register -/

/-- The flags are the low bits of the status register (R26, R30). -/
theorem State.setSrWord_srWord_ccr (s t : State) : (t.setSrWord s.srWord).ccr = s.ccr := by
  simp only [State.setSrWord, State.srWord, State.setCcr_ccr, BitVec.getLsbD_append]
  simp

/-- The interrupt mask stands above the low byte (R30). -/
theorem State.srWord_mask (s : State) : s.srWord.extractLsb' 8 3 = s.sr.i := by
  rw [State.srWord]
  iterate 6 rw [BitVec.extractLsb'_append_eq_of_le (by decide)]
  exact BitVec.extractLsb'_append_eq_right

/-- T, S, M and I are in its high byte; the bits that R30 gives as zero hold nothing. -/
theorem State.setSrWord_srWord_sr (s t : State) : (t.setSrWord s.srWord).sr = s.sr := by
  rw [State.setSrWord, State.setCcr_sr, State.setSr_sr, State.srWord_mask]
  simp only [State.srWord, BitVec.getLsbD_append]
  simp

/-- The register is a function of its fields. -/
theorem State.srWord_congr {s t : State} (hsr : t.sr = s.sr) (hccr : t.ccr = s.ccr) : t.srWord = s.srWord := by
  rw [State.srWord, hsr, hccr, State.srWord]

/-! #### The frame's first longword -/

theorem and_three_toNat (a : Word) : (a &&& 3#32).toNat = a.toNat % 4 :=
  (BitVec.toNat_and a 3#32).trans (Nat.and_two_pow_sub_one_eq_mod a.toNat 2)

/-- The low two bits of an address, as the mask and as the field. -/
theorem and_three_eq (a : Word) : a &&& 3#32 = (a.extractLsb' 0 2).setWidth 32 := by
  apply BitVec.eq_of_toNat_eq
  rw [and_three_toNat, BitVec.toNat_setWidth, BitVec.extractLsb'_toNat, Nat.shiftRight_zero]
  omega

/-- The format is 4 to 7: a field 01 above the low two bits of the old stack pointer (R214). -/
theorem frameFormat_eq : ∀ x : BitVec 2, 4#4 + x.setWidth 4 = 1#2 ++ x := by decide

/-- The first longword of a frame as a number, each field at its place (R214). -/
theorem frameWord_eq_or (sp : Word) (fs : BitVec 4) (v : Byte) (sr : Half) :
    frameWord sp fs v sr =
      ((4#32 + (sp &&& 3#32)) <<< 28) ||| ((fs.extractLsb' 2 2).setWidth 32 <<< 26) ||| (v.setWidth 32 <<< 18) |||
        ((fs.extractLsb' 0 2).setWidth 32 <<< 16) ||| sr.setWidth 32 := by
  have hwide : ∀ x : BitVec 2, (4#4 + x.setWidth 4).setWidth 32 = 4#32 + x.setWidth 32 := by decide
  rw [← BitVec.setWidth_eq (frameWord sp fs v sr), frameWord, and_three_eq, ← hwide]
  simp only [BitVec.setWidth_append_eq_shiftLeft_setWidth_or, BitVec.shiftLeft_or_distrib, ← BitVec.shiftLeft_add]

/-- Its format field is one the return accepts (R217). -/
theorem frameWord_format (sp : Word) (fs : BitVec 4) (v : Byte) (sr : Half) :
    (frameWord sp fs v sr).getLsbD 31 = false ∧ (frameWord sp fs v sr).getLsbD 30 = true := by
  rw [frameWord, frameFormat_eq]
  simp only [BitVec.getLsbD_append]
  simp

theorem frameWord_statusRegister (sp : Word) (fs : BitVec 4) (v : Byte) (sr : Half) :
    (frameWord sp fs v sr).extractLsb' 0 16 = sr :=
  BitVec.extractLsb'_append_eq_right

theorem frameWord_stackBits (sp : Word) (fs : BitVec 4) (v : Byte) (sr : Half) :
    (frameWord sp fs v sr).extractLsb' 28 2 = sp.extractLsb' 0 2 := by
  rw [frameWord, frameFormat_eq]
  iterate 4 rw [BitVec.extractLsb'_append_eq_of_le (by decide)]
  exact BitVec.extractLsb'_append_eq_right

/-- The frame's address with its size and the low two bits added is the old stack pointer (R217). -/
theorem frameAddr_add (sp : Word) : frameAddr sp + 8 + (sp.extractLsb' 0 2).setWidth 32 = sp := by
  have hlow : (sp - 8) &&& 3#32 = sp &&& 3#32 := by
    apply BitVec.eq_of_toNat_eq
    rw [and_three_toNat, and_three_toNat]
    bv_omega
  have hsplit : frameAddr sp + ((sp - 8) &&& 3#32) = sp - 8 := by
    rw [BitVec.add_eq_or_of_and_eq_zero, frameAddr, ← BitVec.and_or_distrib_left]
    · exact BitVec.and_allOnes
    · rw [BitVec.and_comm (sp - 8), ← BitVec.and_assoc, aligned_four_iff.mp (aligned_frameAddr sp), BitVec.zero_and]
  calc frameAddr sp + 8 + (sp.extractLsb' 0 2).setWidth 32
    _ = frameAddr sp + ((sp - 8) &&& 3#32) + 8 := by
      rw [← and_three_eq, hlow, BitVec.add_assoc, BitVec.add_comm 8, BitVec.add_assoc]
    _ = sp := by rw [hsplit, BitVec.sub_add_cancel]

/-! #### The entry -/

/-- Placing bytes asks nothing of the status register. -/
theorem placeBytes_setSr (bs : List Byte) (a : Word) (s : State) (h : SrHigh) :
    placeBytes bs a (s.setSr h) = (placeBytes bs a s).setSr h := by
  induction bs generalizing a s with
  | nil => rfl
  | cons b bs ih => exact ih (a + 1) (s.setByte a.toNat b)

/-- The two longwords of a frame, in memory order (R214). -/
def frameBytes (v : Byte) (fs : BitVec 4) (pcx : Word) (s : State) : List Byte :=
  beBytes (frameWord (s.getA .sp) fs v s.srWord) 4 ++ beBytes pcx 4

/-- The state with the frame on the stack, and nothing else done. -/
def stackFrame (v : Byte) (fs : BitVec 4) (pcx : Word) (s : State) : State :=
  placeBytes (frameBytes v fs pcx s) (frameAddr (s.getA .sp)) s

/-- The frame is its two longwords, stacked one after the other. -/
theorem stackFrame_eq (v : Byte) (fs : BitVec 4) (pcx : Word) (s : State) :
    stackFrame v fs pcx s =
      placeBytes (beBytes pcx 4) (frameAddr (s.getA .sp) + 4)
        (placeBytes (beBytes (frameWord (s.getA .sp) fs v s.srWord) 4) (frameAddr (s.getA .sp)) s) := by
  rw [stackFrame, frameBytes, placeBytes_append, beBytes_length]
  rfl

/-- The state that an entry gives where no access of it raises an error (R214). -/
def entered (v : Byte) (fs : BitVec 4) (pcx : Word) (irq : Option (BitVec 3)) (s : State) : State :=
  (((stackFrame v fs pcx s).setSr (entrySr s.sr irq)).setA .sp (frameAddr (s.getA .sp))).setPc
    (valueAt (stackFrame v fs pcx s) (s.vbrBase + 4 * v.setWidth 32) 4)

section
variable (v : Byte) (fs : BitVec 4) (pcx : Word) (irq : Option (BitVec 3)) (s : State)

@[simp] theorem entered_sr : (entered v fs pcx irq s).sr = entrySr s.sr irq := by
  rw [entered, State.setPc_sr, State.setA_sr, State.setSr_sr]

@[simp] theorem entered_sp : (entered v fs pcx irq s).getA .sp = frameAddr (s.getA .sp) := by
  rw [entered, State.setPc_getA, State.setA_getA_same]

@[simp] theorem entered_mem : (entered v fs pcx irq s).mem = (stackFrame v fs pcx s).mem := by
  rw [entered, State.setPc_mem, State.setA_mem, State.setSr_mem]

@[simp] theorem entered_params : (entered v fs pcx irq s).params = s.params := by
  rw [entered, State.setPc_params, State.setA_params, State.setSr_params, stackFrame, placeBytes_params]

end

/-- The entry over plain memory: two stores and one load. -/
theorem enter_plain {v : Byte} {s : State} (hw : Writable s (frameAddr (s.getA .sp)) 4)
    (hw' : Writable s (frameAddr (s.getA .sp) + 4) 4) (hr : Readable s (s.vbrBase + 4 * v.setWidth 32) 4)
    (fs : BitVec 4) (pcx : Word) (irq : Option (BitVec 3)) :
    enter v fs pcx irq s = .ok () (entered v fs pcx irq s) := by
  have hbase : ((stackFrame v fs pcx s).setSr (entrySr s.sr irq)).vbrBase = s.vbrBase :=
    congrArg (· &&& 0xFFF00000) (placeBytes_vbr _ _ _)
  have hp : (((stackFrame v fs pcx s).setSr (entrySr s.sr irq)).setA .sp (frameAddr (s.getA .sp))).params =
      s.params := by
    rw [State.setA_params, State.setSr_params, stackFrame, placeBytes_params]
  rw [enter, memWrite_plain (hw.of_eq (State.setSr_params _ _)), Res.bind_ok, placeBytes_setSr,
    memWrite_plain (hw'.of_eq ((State.setSr_params _ _).trans (placeBytes_params _ _ _))), Res.bind_ok,
    placeBytes_setSr, ← stackFrame_eq, hbase, memRead_plain (hr.of_eq hp), Res.bind_ok]
  rfl

/-- An exception whose entry raises no error (R214). -/
theorem takeException_entered {c : Cause} {s : State} (hv : s.params.trapModel = .vectored)
    (hw : Writable s (frameAddr (s.getA .sp)) 4) (hw' : Writable s (frameAddr (s.getA .sp) + 4) 4)
    (hr : Readable s (s.vbrBase + 4 * c.vector.setWidth 32) 4) :
    takeException c s = .next (entered c.vector c.faultStatus s.pc none s) := by
  rw [takeException_vectored hv, enterOrHalt, enter_plain hw hw' hr]

/-- Settles O50: the entry's three accesses meet plain memory, and the frame's format word is the number that R214's
fields make. -/
theorem vectoredExceptionEntry : Obligations.VectoredExceptionEntry := by
  intro c s hv sp0 sp1 fs frame stacked entry hw hw' hr
  have hframe : stackFrame c.vector fs s.pc s = stacked := by
    rw [stackFrame, frameBytes, frameWord_eq_or]
    rfl
  rw [takeException_entered hv hw hw' hr, entered, hframe]
  rfl

/-! #### The return -/

/-- The first longword of a stacked frame is below the bytes of the second. -/
theorem stackFrame_first (v : Byte) (fs : BitVec 4) (pcx : Word) (s : State) :
    valueAt (stackFrame v fs pcx s) (frameAddr (s.getA .sp)) 4 = frameWord (s.getA .sp) fs v s.srWord := by
  have hbelow : ∀ x ∈ byteAddrs (frameAddr (s.getA .sp)) 4, Outside x.toNat (frameAddr (s.getA .sp) + 4) 4 := by
    intro x hx y hy hxy
    obtain rfl := BitVec.eq_of_toNat_eq hxy
    rw [mem_byteAddrs (by decide)] at hx hy
    bv_omega
  rw [stackFrame_eq, valueAt_congr fun x hx => placeBytes_byteAt_outside (by
    rw [beBytes_length]
    exact hbelow x hx)]
  exact valueAt_placeBytes .l _ _ _

theorem stackFrame_second (v : Byte) (fs : BitVec 4) (pcx : Word) (s : State) :
    valueAt (stackFrame v fs pcx s) (frameAddr (s.getA .sp) + 4) 4 = pcx := by
  rw [stackFrame_eq]
  exact valueAt_placeBytes .l _ _ _

/-- The return from a frame at A7 that an entry made, in supervisor mode (R217). -/
theorem returnFromException_frame {t : State} {sp p : Word} {fs : BitVec 4} {v : Byte} {sr : Half}
    (hs : t.sr.s = true) (hr : Readable t (t.getA .sp) 4) (hr' : Readable t (t.getA .sp + 4) 4)
    (hf : valueAt t (t.getA .sp) 4 = frameWord sp fs v sr) (hp : valueAt t (t.getA .sp + 4) 4 = p) :
    returnFromException t =
      .ok () (((t.setSrWord sr).setPc p).setA .sp (t.getA .sp + 8 + (sp.extractLsb' 0 2).setWidth 32)) := by
  rw [returnFromException, hs, if_neg Bool.noConfusion]
  dsimp only
  rw [memRead_plain hr, Res.bind_ok, memRead_plain hr', Res.bind_ok,
    hf, hp, if_pos (frameWord_format sp fs v sr), frameWord_statusRegister, frameWord_stackBits]

/-- The return after an entry, where the frame stands in plain memory. -/
theorem returnFromException_entered {v : Byte} {s : State} (hw : Writable s (frameAddr (s.getA .sp)) 4)
    (hw' : Writable s (frameAddr (s.getA .sp) + 4) 4) (fs : BitVec 4) (pcx : Word) :
    returnFromException (entered v fs pcx none s) =
      .ok () ((((entered v fs pcx none s).setSrWord s.srWord).setPc pcx).setA .sp (s.getA .sp)) := by
  have hsp := entered_sp v fs pcx none s
  have hp := entered_params v fs pcx none s
  have hs : (entered v fs pcx none s).sr.s = true := by rw [entered_sr, entrySr]
  have hfirst : valueAt (entered v fs pcx none s) ((entered v fs pcx none s).getA .sp) 4 =
      frameWord (s.getA .sp) fs v s.srWord := by
    rw [hsp, valueAt_of_mem (entered_mem v fs pcx none s), stackFrame_first]
  have hsecond : valueAt (entered v fs pcx none s) ((entered v fs pcx none s).getA .sp + 4) 4 = pcx := by
    rw [hsp, valueAt_of_mem (entered_mem v fs pcx none s), stackFrame_second]
  rw [returnFromException_frame hs (hsp ▸ hw.readable.of_eq hp) (hsp ▸ hw'.readable.of_eq hp) hfirst hsecond, hsp,
    frameAddr_add]

/-- Settles O53: the return reads back the frame that the entry stacked. -/
theorem returnUndoesEntry : Obligations.ReturnUndoesEntry := by
  intro c s t hv hw hw' hr ht
  obtain ⟨_, _, hd, _⟩ := takeException_next ht
  have hentered : t = entered c.vector c.faultStatus s.pc none s :=
    Host.Outcome.next.inj (ht.symm.trans (takeException_entered hv hw hw' hr))
  have hccr := State.setSrWord_srWord_ccr s t
  have hsr := State.setSrWord_srWord_sr s t
  refine ⟨((t.setSrWord s.srWord).setPc s.pc).setA .sp (s.getA .sp), ?_, State.srWord_congr hsr hccr, rfl,
    State.setA_getA_same _ _ _, hd, hccr⟩
  rw [hentered]
  exact returnFromException_entered hw hw' c.faultStatus s.pc

end Sys2Proof.Machine
end
